-- ==== Sys2Proof/Word.lean ====
section
/-!
DEFINITION. The FXU's words (spec/00_scope.md R2, R7, R9, R10): raw values, command words, bytes, register numbers.
-/

namespace Sys2Proof

/-- A 64-bit register's contents (R30, R31). As a raw value it is read signed, by `toInt`; the real number is `raw / 2^32` (R2). -/
abbrev Word := BitVec 64

/-- A command word (R80). -/
abbrev CmdWord := BitVec 32

/-- One byte of the persisted form and of the host's byte view (R63). -/
abbrev Byte := BitVec 8

/-- A register number, a 5-bit field of a command (R81); `f0` to `f31` (R30). -/
abbrev Reg := Fin 32

end Sys2Proof
end

