-- ==== Sys2Proof/Syntax.lean ====
section
/-!
DEFINITION. The FXU's commands as data: one constructor per row of the opcode map (spec/30_encoding.md R85), its arguments the
fields the row uses, in the order rd, rs1, rs2, rs3 (R81) or rd, imm20 (R82). A field of kind V or Q is its group's base register.
A term may be ill-formed (a group that passes f31, a constant index past its table): WellFormed.lean checks that.
-/

namespace Sys2Proof

inductive Instr where
  -- Scalar arithmetic (spec/41_scalar_arith.md)
  /-- ADD, saturating addition (R100). -/
  | add (rd rs1 rs2 : Reg)
  /-- SUB, saturating subtraction (R101). -/
  | sub (rd rs1 rs2 : Reg)
  /-- MUL, saturating multiplication (R103). -/
  | mul (rd rs1 rs2 : Reg)
  /-- DIV, rounding division (R105). -/
  | div (rd rs1 rs2 : Reg)
  /-- MOD, remainder (R107). -/
  | mod (rd rs1 rs2 : Reg)
  /-- NEG, saturating negation (R102). -/
  | neg (rd rs1 : Reg)
  /-- FASTADD, wrapping addition (R108). -/
  | fastadd (rd rs1 rs2 : Reg)
  /-- FASTSUB, wrapping subtraction (R109). -/
  | fastsub (rd rs1 rs2 : Reg)
  /-- FASTMUL, wrapping multiplication (R110). -/
  | fastmul (rd rs1 rs2 : Reg)
  /-- FASTMOD, unguarded remainder (R111). -/
  | fastmod (rd rs1 rs2 : Reg)
  -- Rounding and sign (spec/42_rounding_sign.md)
  /-- ABS, absolute value (R140). -/
  | abs (rd rs1 : Reg)
  /-- SIGN, sign (R141). -/
  | sign (rd rs1 : Reg)
  /-- FLOOR, round toward minus infinity (R142). -/
  | floor (rd rs1 : Reg)
  /-- CEIL, round toward plus infinity (R143). -/
  | ceil (rd rs1 : Reg)
  /-- ROUND, round to nearest, ties to even (R144). -/
  | round (rd rs1 : Reg)
  /-- TRUNC, the source's truncate (R145). -/
  | trunc (rd rs1 : Reg)
  -- Square root, logarithm, power (spec/43_sqrt_log_pow.md)
  /-- SQRT, square root (R160). -/
  | sqrt (rd rs1 : Reg)
  /-- LOG2, base-2 logarithm (R162). -/
  | log2 (rd rs1 : Reg)
  /-- LN, natural logarithm (R163). -/
  | ln (rd rs1 : Reg)
  /-- POW2, power of two (R164). -/
  | pow2 (rd rs1 : Reg)
  /-- POW, general power (R166). -/
  | pow (rd rs1 rs2 : Reg)
  -- Compare and select (spec/44_compare_select.md)
  /-- MIN, minimum (R190). -/
  | min (rd rs1 rs2 : Reg)
  /-- MAX, maximum (R191). -/
  | max (rd rs1 rs2 : Reg)
  /-- CLAMP, clamp to a range (R192). -/
  | clamp (rd rs1 rs2 rs3 : Reg)
  /-- CLAMP01, clamp to [0, 1] (R193). -/
  | clamp01 (rd rs1 : Reg)
  /-- CMPEQ, equality (R194). -/
  | cmpeq (rd rs1 rs2 : Reg)
  /-- CMPLT, less than (R195). -/
  | cmplt (rd rs1 rs2 : Reg)
  /-- CMPLE, less than or equal (R196). -/
  | cmple (rd rs1 rs2 : Reg)
  -- Moves and conversions (spec/45_move_convert.md)
  /-- MOV, register copy (R210). -/
  | mov (rd rs1 : Reg)
  /-- LI, load integer immediate (R211). -/
  | li (rd : Reg) (imm : BitVec 20)
  /-- LDC, load scalar constant, index k (R212). -/
  | ldc (rd : Reg) (k : BitVec 20)
  /-- FROMINT, integer to scalar (R213). -/
  | fromint (rd rs1 : Reg)
  /-- TOINT, scalar to integer (R214). -/
  | toint (rd rs1 : Reg)
  /-- FROMF64, binary64 to scalar (R216). -/
  | fromf64 (rd rs1 : Reg)
  /-- TOF64, scalar to binary64 (R217). -/
  | tof64 (rd rs1 : Reg)
  /-- FROMF32, binary32 to scalar (R218). -/
  | fromf32 (rd rs1 : Reg)
  /-- TOF32, scalar to binary32 (R219). -/
  | tof32 (rd rs1 : Reg)
  -- Vector pipeline (spec/46_vector.md)
  /-- VADD, vector addition (R241). -/
  | vadd (rd rs1 rs2 : Reg)
  /-- VSUB, vector subtraction (R242). -/
  | vsub (rd rs1 rs2 : Reg)
  /-- VNEG, vector negation (R243). -/
  | vneg (rd rs1 : Reg)
  /-- VSCALE, vector times scalar (R244). -/
  | vscale (rd rs1 rs2 : Reg)
  /-- VDIVS, vector divided by scalar (R245). -/
  | vdivs (rd rs1 rs2 : Reg)
  /-- VDOT, dot product (R246). -/
  | vdot (rd rs1 rs2 : Reg)
  /-- VSQRMAG, squared magnitude (R247). -/
  | vsqrmag (rd rs1 : Reg)
  /-- VMAG, magnitude (R248). -/
  | vmag (rd rs1 : Reg)
  /-- VNORM, normalize (R249). -/
  | vnorm (rd rs1 : Reg)
  /-- VCROSS, cross product (R250). -/
  | vcross (rd rs1 rs2 : Reg)
  /-- VPROJ, project onto a vector (R251). -/
  | vproj (rd rs1 rs2 : Reg)
  /-- VPROJP, project onto a plane (R252). -/
  | vprojp (rd rs1 rs2 : Reg)
  /-- VDIST, distance (R253). -/
  | vdist (rd rs1 rs2 : Reg)
  /-- VLERP, clamped linear interpolation (R254). -/
  | vlerp (rd rs1 rs2 rs3 : Reg)
  /-- VLERPU, unclamped linear interpolation (R255). -/
  | vlerpu (rd rs1 rs2 rs3 : Reg)
  /-- VMIN, component-wise minimum (R256). -/
  | vmin (rd rs1 rs2 : Reg)
  /-- VMAX, component-wise maximum (R257). -/
  | vmax (rd rs1 rs2 : Reg)
  /-- VEQ, vector equality (sum-of-differences test) (R259). -/
  | veq (rd rs1 rs2 : Reg)
  /-- VLDC, load vector constant, index k (R258). -/
  | vldc (rd : Reg) (k : BitVec 20)
  -- Quaternion pipeline (spec/47_quaternion.md)
  /-- QMUL, Hamilton product (R291). -/
  | qmul (rd rs1 rs2 : Reg)
  /-- QROT, rotate a vector by a quaternion (R292). -/
  | qrot (rd rs1 rs2 : Reg)
  /-- QNORM, normalize (R293). -/
  | qnorm (rd rs1 : Reg)
  /-- QDOT, four-component dot product (R294). -/
  | qdot (rd rs1 rs2 : Reg)
  /-- QINV, inverse as conjugate (R295). -/
  | qinv (rd rs1 : Reg)
  /-- QEQ, quaternion equality (dot test) (R296). -/
  | qeq (rd rs1 rs2 : Reg)
  /-- QID, load Identity (R297). -/
  | qid (rd : Reg)
  deriving DecidableEq, Repr

end Sys2Proof
end

