-- ==== Sys2Proof/WellFormed.lean ====
section
/-!
DEFINITION. Which terms are legal commands (spec/30_encoding.md R83, R84, R86 items 4 and 5): a vector base is at most 29, a
quaternion base at most 28, an LDC index at most 6, a VLDC index at most 7. Items 1 to 3 of R86 concern words, not terms: Decode.lean.
-/

namespace Sys2Proof

/-- Kind V: the group `f[n], f[n+1], f[n+2]` does not pass f31 (R33, R83). -/
def vecBase (n : Reg) : Bool := n.val ≤ 29

/-- Kind Q: the group `f[n] .. f[n+3]` does not pass f31 (R33, R83). -/
def quatBase (n : Reg) : Bool := n.val ≤ 28

/-- R86 items 4 and 5, per row of R85. -/
def Instr.wellFormed : Instr → Bool
  | .add _ _ _ => true
  | .sub _ _ _ => true
  | .mul _ _ _ => true
  | .div _ _ _ => true
  | .mod _ _ _ => true
  | .neg _ _ => true
  | .fastadd _ _ _ => true
  | .fastsub _ _ _ => true
  | .fastmul _ _ _ => true
  | .fastmod _ _ _ => true
  | .abs _ _ => true
  | .sign _ _ => true
  | .floor _ _ => true
  | .ceil _ _ => true
  | .round _ _ => true
  | .trunc _ _ => true
  | .sqrt _ _ => true
  | .log2 _ _ => true
  | .ln _ _ => true
  | .pow2 _ _ => true
  | .pow _ _ _ => true
  | .min _ _ _ => true
  | .max _ _ _ => true
  | .clamp _ _ _ _ => true
  | .clamp01 _ _ => true
  | .cmpeq _ _ _ => true
  | .cmplt _ _ _ => true
  | .cmple _ _ _ => true
  | .mov _ _ => true
  | .li _ _ => true
  | .ldc _ k => decide (k.toNat ≤ 6)
  | .fromint _ _ => true
  | .toint _ _ => true
  | .fromf64 _ _ => true
  | .tof64 _ _ => true
  | .fromf32 _ _ => true
  | .tof32 _ _ => true
  | .vadd rd rs1 rs2 => vecBase rd && vecBase rs1 && vecBase rs2
  | .vsub rd rs1 rs2 => vecBase rd && vecBase rs1 && vecBase rs2
  | .vneg rd rs1 => vecBase rd && vecBase rs1
  | .vscale rd rs1 _ => vecBase rd && vecBase rs1
  | .vdivs rd rs1 _ => vecBase rd && vecBase rs1
  | .vdot _ rs1 rs2 => vecBase rs1 && vecBase rs2
  | .vsqrmag _ rs1 => vecBase rs1
  | .vmag _ rs1 => vecBase rs1
  | .vnorm rd rs1 => vecBase rd && vecBase rs1
  | .vcross rd rs1 rs2 => vecBase rd && vecBase rs1 && vecBase rs2
  | .vproj rd rs1 rs2 => vecBase rd && vecBase rs1 && vecBase rs2
  | .vprojp rd rs1 rs2 => vecBase rd && vecBase rs1 && vecBase rs2
  | .vdist _ rs1 rs2 => vecBase rs1 && vecBase rs2
  | .vlerp rd rs1 rs2 _ => vecBase rd && vecBase rs1 && vecBase rs2
  | .vlerpu rd rs1 rs2 _ => vecBase rd && vecBase rs1 && vecBase rs2
  | .vmin rd rs1 rs2 => vecBase rd && vecBase rs1 && vecBase rs2
  | .vmax rd rs1 rs2 => vecBase rd && vecBase rs1 && vecBase rs2
  | .veq _ rs1 rs2 => vecBase rs1 && vecBase rs2
  | .vldc rd k => vecBase rd && decide (k.toNat ≤ 7)
  | .qmul rd rs1 rs2 => quatBase rd && quatBase rs1 && quatBase rs2
  | .qrot rd rs1 rs2 => vecBase rd && quatBase rs1 && vecBase rs2
  | .qnorm rd rs1 => quatBase rd && quatBase rs1
  | .qdot _ rs1 rs2 => quatBase rs1 && quatBase rs2
  | .qinv rd rs1 => quatBase rd && quatBase rs1
  | .qeq _ rs1 rs2 => quatBase rs1 && quatBase rs2
  | .qid rd => quatBase rd

end Sys2Proof
end

