-- ==== Sys2Proof/Decode.lean ====
section
/-!
DEFINITION. Command words (spec/30_encoding.md): decoding, total on every 32-bit word (R87), and encoding (R90), both written from
the opcode map R85. A refused word (`none`) is an IllegalCommand (R86): Machine/Port.lean takes that fault.
-/

namespace Sys2Proof

/-- `w[hi:lo]`, read unsigned (R9). -/
def bits (w : CmdWord) (hi lo : Nat) : Nat := w.toNat / 2 ^ lo % 2 ^ (hi - lo + 1)

/-- The register number in the 5 bits from `lo` up (R81). -/
def regAt (w : CmdWord) (lo : Nat) : Reg := Fin.ofNat 32 (bits w (lo + 4) lo)

/-- Operand kinds (R83); `unused` is the table's '-'. -/
inductive Kind where
  | S | V | Q | unused
  deriving DecidableEq, Repr

/-- The field check of R87 for one kind. -/
def Kind.legal : Kind → Nat → Bool
  | .S, _ => true
  | .V, n => n ≤ 29
  | .Q, n => n ≤ 28
  | .unused, n => n == 0

/-- Format R (R81, R87): `z` is 0 and each field is legal for its kind. -/
def formR (w : CmdWord) (rd rs1 rs2 rs3 : Kind) (i : Instr) : Option Instr :=
  if bits w 4 0 = 0 ∧ rd.legal (bits w 24 20) ∧ rs1.legal (bits w 19 15) ∧ rs2.legal (bits w 14 10) ∧ rs3.legal (bits w 9 5)
  then some i else none

/-- Format I (R82, R84, R87): rd is legal for its kind and imm20 at most `maxImm`. -/
def formI (w : CmdWord) (rd : Kind) (maxImm : Nat) (i : Instr) : Option Instr :=
  if rd.legal (bits w 24 20) ∧ bits w 19 0 ≤ maxImm then some i else none

/-- The decoding procedure R87 over the opcode map R85. An opcode that is not in the map is unassigned (R86 item 1). -/
def decode (w : CmdWord) : Option Instr :=
  let rd := regAt w 20
  let rs1 := regAt w 15
  let rs2 := regAt w 10
  let rs3 := regAt w 5
  let imm : BitVec 20 := BitVec.ofNat 20 (bits w 19 0)
  match bits w 31 25 with
  -- Scalar arithmetic (spec/41_scalar_arith.md)
  | 0x01 => formR w .S .S .S .unused (.add rd rs1 rs2)
  | 0x02 => formR w .S .S .S .unused (.sub rd rs1 rs2)
  | 0x03 => formR w .S .S .S .unused (.mul rd rs1 rs2)
  | 0x04 => formR w .S .S .S .unused (.div rd rs1 rs2)
  | 0x05 => formR w .S .S .S .unused (.mod rd rs1 rs2)
  | 0x06 => formR w .S .S .unused .unused (.neg rd rs1)
  | 0x07 => formR w .S .S .S .unused (.fastadd rd rs1 rs2)
  | 0x08 => formR w .S .S .S .unused (.fastsub rd rs1 rs2)
  | 0x09 => formR w .S .S .S .unused (.fastmul rd rs1 rs2)
  | 0x0A => formR w .S .S .S .unused (.fastmod rd rs1 rs2)
  -- Rounding and sign (spec/42_rounding_sign.md)
  | 0x10 => formR w .S .S .unused .unused (.abs rd rs1)
  | 0x11 => formR w .S .S .unused .unused (.sign rd rs1)
  | 0x12 => formR w .S .S .unused .unused (.floor rd rs1)
  | 0x13 => formR w .S .S .unused .unused (.ceil rd rs1)
  | 0x14 => formR w .S .S .unused .unused (.round rd rs1)
  | 0x15 => formR w .S .S .unused .unused (.trunc rd rs1)
  -- Square root, logarithm, power (spec/43_sqrt_log_pow.md)
  | 0x18 => formR w .S .S .unused .unused (.sqrt rd rs1)
  | 0x19 => formR w .S .S .unused .unused (.log2 rd rs1)
  | 0x1A => formR w .S .S .unused .unused (.ln rd rs1)
  | 0x1B => formR w .S .S .unused .unused (.pow2 rd rs1)
  | 0x1C => formR w .S .S .S .unused (.pow rd rs1 rs2)
  -- Compare and select (spec/44_compare_select.md)
  | 0x20 => formR w .S .S .S .unused (.min rd rs1 rs2)
  | 0x21 => formR w .S .S .S .unused (.max rd rs1 rs2)
  | 0x22 => formR w .S .S .S .S (.clamp rd rs1 rs2 rs3)
  | 0x23 => formR w .S .S .unused .unused (.clamp01 rd rs1)
  | 0x24 => formR w .S .S .S .unused (.cmpeq rd rs1 rs2)
  | 0x25 => formR w .S .S .S .unused (.cmplt rd rs1 rs2)
  | 0x26 => formR w .S .S .S .unused (.cmple rd rs1 rs2)
  -- Moves and conversions (spec/45_move_convert.md)
  | 0x28 => formR w .S .S .unused .unused (.mov rd rs1)
  | 0x29 => formI w .S 0xFFFFF (.li rd imm)
  | 0x2A => formI w .S 6 (.ldc rd imm)
  | 0x2B => formR w .S .S .unused .unused (.fromint rd rs1)
  | 0x2C => formR w .S .S .unused .unused (.toint rd rs1)
  | 0x2D => formR w .S .S .unused .unused (.fromf64 rd rs1)
  | 0x2E => formR w .S .S .unused .unused (.tof64 rd rs1)
  | 0x2F => formR w .S .S .unused .unused (.fromf32 rd rs1)
  | 0x30 => formR w .S .S .unused .unused (.tof32 rd rs1)
  -- Vector pipeline (spec/46_vector.md)
  | 0x38 => formR w .V .V .V .unused (.vadd rd rs1 rs2)
  | 0x39 => formR w .V .V .V .unused (.vsub rd rs1 rs2)
  | 0x3A => formR w .V .V .unused .unused (.vneg rd rs1)
  | 0x3B => formR w .V .V .S .unused (.vscale rd rs1 rs2)
  | 0x3C => formR w .V .V .S .unused (.vdivs rd rs1 rs2)
  | 0x3D => formR w .S .V .V .unused (.vdot rd rs1 rs2)
  | 0x3E => formR w .S .V .unused .unused (.vsqrmag rd rs1)
  | 0x3F => formR w .S .V .unused .unused (.vmag rd rs1)
  | 0x40 => formR w .V .V .unused .unused (.vnorm rd rs1)
  | 0x41 => formR w .V .V .V .unused (.vcross rd rs1 rs2)
  | 0x42 => formR w .V .V .V .unused (.vproj rd rs1 rs2)
  | 0x43 => formR w .V .V .V .unused (.vprojp rd rs1 rs2)
  | 0x44 => formR w .S .V .V .unused (.vdist rd rs1 rs2)
  | 0x45 => formR w .V .V .V .S (.vlerp rd rs1 rs2 rs3)
  | 0x46 => formR w .V .V .V .S (.vlerpu rd rs1 rs2 rs3)
  | 0x47 => formR w .V .V .V .unused (.vmin rd rs1 rs2)
  | 0x48 => formR w .V .V .V .unused (.vmax rd rs1 rs2)
  | 0x49 => formR w .S .V .V .unused (.veq rd rs1 rs2)
  | 0x4A => formI w .V 7 (.vldc rd imm)
  -- Quaternion pipeline (spec/47_quaternion.md)
  | 0x50 => formR w .Q .Q .Q .unused (.qmul rd rs1 rs2)
  | 0x51 => formR w .V .Q .V .unused (.qrot rd rs1 rs2)
  | 0x52 => formR w .Q .Q .unused .unused (.qnorm rd rs1)
  | 0x53 => formR w .S .Q .Q .unused (.qdot rd rs1 rs2)
  | 0x54 => formR w .Q .Q .unused .unused (.qinv rd rs1)
  | 0x55 => formR w .S .Q .Q .unused (.qeq rd rs1 rs2)
  | 0x56 => formR w .Q .unused .unused .unused (.qid rd)
  | _ => none

/-- Format R, the encoding arithmetic of R90. -/
def wordR (op : Nat) (rd rs1 rs2 rs3 : Reg) : CmdWord :=
  BitVec.ofNat 32 (op <<< 25 ||| rd.val <<< 20 ||| rs1.val <<< 15 ||| rs2.val <<< 10 ||| rs3.val <<< 5)

/-- Format I, the encoding arithmetic of R90. -/
def wordI (op : Nat) (rd : Reg) (imm : BitVec 20) : CmdWord :=
  BitVec.ofNat 32 (op <<< 25 ||| rd.val <<< 20 ||| imm.toNat)

/-- The command word of an instruction (R85, R90); a field the row does not use is 0 (R81). On an ill-formed term it is the illegal
word with those fields. -/
def encode : Instr → CmdWord
  | .add rd rs1 rs2 => wordR 0x01 rd rs1 rs2 0
  | .sub rd rs1 rs2 => wordR 0x02 rd rs1 rs2 0
  | .mul rd rs1 rs2 => wordR 0x03 rd rs1 rs2 0
  | .div rd rs1 rs2 => wordR 0x04 rd rs1 rs2 0
  | .mod rd rs1 rs2 => wordR 0x05 rd rs1 rs2 0
  | .neg rd rs1 => wordR 0x06 rd rs1 0 0
  | .fastadd rd rs1 rs2 => wordR 0x07 rd rs1 rs2 0
  | .fastsub rd rs1 rs2 => wordR 0x08 rd rs1 rs2 0
  | .fastmul rd rs1 rs2 => wordR 0x09 rd rs1 rs2 0
  | .fastmod rd rs1 rs2 => wordR 0x0A rd rs1 rs2 0
  | .abs rd rs1 => wordR 0x10 rd rs1 0 0
  | .sign rd rs1 => wordR 0x11 rd rs1 0 0
  | .floor rd rs1 => wordR 0x12 rd rs1 0 0
  | .ceil rd rs1 => wordR 0x13 rd rs1 0 0
  | .round rd rs1 => wordR 0x14 rd rs1 0 0
  | .trunc rd rs1 => wordR 0x15 rd rs1 0 0
  | .sqrt rd rs1 => wordR 0x18 rd rs1 0 0
  | .log2 rd rs1 => wordR 0x19 rd rs1 0 0
  | .ln rd rs1 => wordR 0x1A rd rs1 0 0
  | .pow2 rd rs1 => wordR 0x1B rd rs1 0 0
  | .pow rd rs1 rs2 => wordR 0x1C rd rs1 rs2 0
  | .min rd rs1 rs2 => wordR 0x20 rd rs1 rs2 0
  | .max rd rs1 rs2 => wordR 0x21 rd rs1 rs2 0
  | .clamp rd rs1 rs2 rs3 => wordR 0x22 rd rs1 rs2 rs3
  | .clamp01 rd rs1 => wordR 0x23 rd rs1 0 0
  | .cmpeq rd rs1 rs2 => wordR 0x24 rd rs1 rs2 0
  | .cmplt rd rs1 rs2 => wordR 0x25 rd rs1 rs2 0
  | .cmple rd rs1 rs2 => wordR 0x26 rd rs1 rs2 0
  | .mov rd rs1 => wordR 0x28 rd rs1 0 0
  | .li rd imm => wordI 0x29 rd imm
  | .ldc rd k => wordI 0x2A rd k
  | .fromint rd rs1 => wordR 0x2B rd rs1 0 0
  | .toint rd rs1 => wordR 0x2C rd rs1 0 0
  | .fromf64 rd rs1 => wordR 0x2D rd rs1 0 0
  | .tof64 rd rs1 => wordR 0x2E rd rs1 0 0
  | .fromf32 rd rs1 => wordR 0x2F rd rs1 0 0
  | .tof32 rd rs1 => wordR 0x30 rd rs1 0 0
  | .vadd rd rs1 rs2 => wordR 0x38 rd rs1 rs2 0
  | .vsub rd rs1 rs2 => wordR 0x39 rd rs1 rs2 0
  | .vneg rd rs1 => wordR 0x3A rd rs1 0 0
  | .vscale rd rs1 rs2 => wordR 0x3B rd rs1 rs2 0
  | .vdivs rd rs1 rs2 => wordR 0x3C rd rs1 rs2 0
  | .vdot rd rs1 rs2 => wordR 0x3D rd rs1 rs2 0
  | .vsqrmag rd rs1 => wordR 0x3E rd rs1 0 0
  | .vmag rd rs1 => wordR 0x3F rd rs1 0 0
  | .vnorm rd rs1 => wordR 0x40 rd rs1 0 0
  | .vcross rd rs1 rs2 => wordR 0x41 rd rs1 rs2 0
  | .vproj rd rs1 rs2 => wordR 0x42 rd rs1 rs2 0
  | .vprojp rd rs1 rs2 => wordR 0x43 rd rs1 rs2 0
  | .vdist rd rs1 rs2 => wordR 0x44 rd rs1 rs2 0
  | .vlerp rd rs1 rs2 rs3 => wordR 0x45 rd rs1 rs2 rs3
  | .vlerpu rd rs1 rs2 rs3 => wordR 0x46 rd rs1 rs2 rs3
  | .vmin rd rs1 rs2 => wordR 0x47 rd rs1 rs2 0
  | .vmax rd rs1 rs2 => wordR 0x48 rd rs1 rs2 0
  | .veq rd rs1 rs2 => wordR 0x49 rd rs1 rs2 0
  | .vldc rd k => wordI 0x4A rd k
  | .qmul rd rs1 rs2 => wordR 0x50 rd rs1 rs2 0
  | .qrot rd rs1 rs2 => wordR 0x51 rd rs1 rs2 0
  | .qnorm rd rs1 => wordR 0x52 rd rs1 0 0
  | .qdot rd rs1 rs2 => wordR 0x53 rd rs1 rs2 0
  | .qinv rd rs1 => wordR 0x54 rd rs1 0 0
  | .qeq rd rs1 rs2 => wordR 0x55 rd rs1 rs2 0
  | .qid rd => wordR 0x56 rd 0 0 0

/-- What the decoder reads from an instruction whose bits are `w`, numbered as spec/opcode_table.json numbers them: every command is
one 32-bit word (R80), so `w` is that word and bits from `nbits` up are 0. -/
def decodeTableWord (nbits w : Nat) : Option Instr :=
  decode (BitVec.ofNat 32 (w % 2 ^ nbits))

end Sys2Proof
end

