-- ==== Sys2Proof/Config.lean ====
section
/-!
DEFINITION. The implementation parameters of spec/00_scope.md R7. The ones the spec leaves OPEN are constants without a body
(logs 7, 8, 12); the three "precomputed" constants carry the defaults of R7 (log 9). LATENCY is not modelled (log 17).
-/

namespace Sys2Proof

/-- A floating-point operand as the conversion commands read it (R215): all 64 bits, or bits 31:0 of a register. -/
inductive FloatPattern where
  | f64 (p : Word)
  | f32 (p : BitVec 32)
  deriving DecidableEq, Repr

/-- The "precomputed" constants of R8, parameters with the defaults of R7 (D25). PRESUMED (log 9). -/
structure Config.LogConstants where
  /-- `LN2_RAW`, ln 2 truncated to Q32.32. -/
  ln2 : Word := 0x00000000B17217F7#64
  /-- `LOG2MAX_RAW`, 31.0. -/
  log2max : Word := 0x0000001F00000000#64
  /-- `LOG2MIN_RAW`, -32.0. -/
  log2min : Word := 0xFFFFFFE000000000#64
  deriving DecidableEq, Repr

/-- The constants this FXU is built with. PRESUMED (log 9). -/
def Config.logConstants : Config.LogConstants where

/-- `FASTMOD_MIN_NEG1` (R7, R111): OPEN. `some v`: the raw value v is written; `none`: the `fault` choice. DESIGN CHOICE (log 7). -/
opaque Config.fastmodMinNeg1 : Option Word

/-- `F2X_OOR` (R7, R215): OPEN. `some g`: the raw value `g p` for the input pattern p; `none`: the `fault` choice.
DESIGN CHOICE (log 8). -/
opaque Config.f2xOor : Option (FloatPattern → Word)

/-- `FXU_BASE` (R67): OPEN, the platform's. Host accesses are given by their offset into the window. DESIGN CHOICE (log 12). -/
opaque Config.fxuBase : Nat

end Sys2Proof
end

