-- ==== Sys2Proof/Machine/State.lean ====
section
/-!
DEFINITION. The FXU's state as plain data (spec/10_state.md R30 to R43), the inputs the host and the platform still have for it,
and the reasons a step can end without a next state.
-/

namespace Sys2Proof.Machine

/-- The cause codes a command can raise (spec/60_exceptions.md R321). Code 0, "(none)", is `none` of `Option Cause`; the codes
5 to 7 are never produced (R37). -/
inductive Cause where
  | divideByZero      -- 1
  | domainError       -- 2
  | illegalCommand    -- 3
  | fastModOverflow   -- 4
  deriving DecidableEq, Repr

/-- What the outside world does to the FXU, one at a time in one total order (spec/20_memory.md R66, R69): host accesses through
the host port, of some width in bits at some offset into the window (R61, R62), and the platform's reset input
(spec/70_reset_and_hazards.md R361). -/
inductive HostEvent where
  /-- `HostRead(offset)`. -/
  | read (width offset : Nat)
  /-- `HostWrite(offset, v)`. -/
  | write (width offset : Nat) (v : Word)
  /-- The platform asserts reset. -/
  | resetAssert
  /-- The platform releases reset. -/
  | resetRelease
  deriving DecidableEq, Repr

/-- The state of the FXU. `host` and `busOut` are the model's own (logs 1 and 2). -/
structure State where
  /-- The register file `f0` to `f31` (R30). -/
  f : Vector Word 32
  /-- FSR.HALT (R37); the execution state is Halted exactly when it is set (R41). -/
  halt : Bool
  /-- FSR.CAUSE (R37, R321). -/
  cause : Option Cause
  /-- FSR.LOST (R37, R324). -/
  lost : Bool
  /-- FCMD, the faulting-command register (R39). -/
  fcmd : Word
  /-- The level of the reset input (R361). DESIGN CHOICE (log 4). -/
  inReset : Bool
  /-- What the host and the platform do next, oldest first. The model's own field. DESIGN CHOICE (log 1). -/
  host : List HostEvent
  /-- The value the last host access returned, `none` if it was no read. The model's own field. DESIGN CHOICE (log 2). -/
  busOut : Option Word
  deriving DecidableEq, Repr

/-- Why the machine would stop with a fault of its own: never. A command that cannot produce a result takes fault entry, which is
a next state (R322), and every other step completes (R366), so this type has no constructor. -/
inductive Fault where
  deriving DecidableEq, Repr

/-- Why a step is refused. Only host accesses that are no transaction of the FXU are (R62, R361: "a model refuses it"). -/
inductive Refusal where
  /-- An arm of `exec` without a meaning, by mnemonic. No arm raises it. Safe. -/
  | notModelled (mnemonic : String)
  /-- A host access of a width other than 64 bits (R62); raised by `serveAccess`. Safe: no step. -/
  | unsupportedWidth
  /-- A host access at an offset that is not a multiple of 8 (R62, R64); raised by `serveAccess`. Safe: no step. -/
  | misalignedOffset
  /-- A host access outside 0x000..0x11F (R62); raised by `serveAccess`. Safe: no step. -/
  | outsideWindow
  /-- A host access while reset is asserted (R361); raised by `serveAccess`. Safe: no step. -/
  | accessDuringReset
  deriving DecidableEq, Repr

/-- The machine right after reset (R43, R360): every register 0, FSR and FCMD 0, Running. `inReset`, `host` and `busOut` are
DESIGN CHOICES (logs 4, 1, 2). -/
def State.reset : State where
  f := Vector.replicate 32 0#64
  halt := false
  cause := none
  lost := false
  fcmd := 0#64
  inReset := false
  host := []
  busOut := none

end Sys2Proof.Machine
end

