-- ==== Sys2Proof/Machine/Flags.lean ====
section
/-!
DEFINITION. Status (spec/10_state.md R37 to R41, spec/60_exceptions.md R321, R328). The FXU has no arithmetic flags, condition codes
or predicates (R40): the only status bits are HALT, CAUSE and LOST of FSR.
-/

namespace Sys2Proof.Machine

/-- The code of a cause (R321). -/
def Cause.code : Cause → BitVec 3
  | .divideByZero => 1#3
  | .domainError => 2#3
  | .illegalCommand => 3#3
  | .fastModOverflow => 4#3

/-- What FSR.CAUSE holds (R37, R321): 0 is "(none)". -/
def causeField : Option Cause → BitVec 3
  | none => 0#3
  | some c => c.code

/-- FSR as the host reads it (R37): HALT in bit 0, CAUSE in bits 3:1, LOST in bit 4, bits 63:5 zero. -/
def State.fsr (s : State) : Word :=
  0#59 ++ BitVec.ofBool s.lost ++ causeField s.cause ++ BitVec.ofBool s.halt

/-- FXID as the host reads it (R38). -/
def fxid : Word := 0x0000000007204020#64

/-- The execution state (R41). -/
inductive ExecState where
  | running | halted
  deriving DecidableEq, Repr

/-- Running when FSR.HALT = 0, Halted when FSR.HALT = 1 (R41). -/
def State.execState (s : State) : ExecState := if s.halt then .halted else .running

/-- The interrupt output FAULT_IRQ, a level equal to FSR.HALT at all times (R328). DEDUCED (log 14): computed, not stored. -/
def State.faultIrq (s : State) : Bool := s.halt

end Sys2Proof.Machine
end

