-- ==== Sys2Proof/Machine/Operands.lean ====
section
/-!
DEFINITION. Operand forms (spec/10_state.md R30 to R34, spec/30_encoding.md R83, R84): single registers, vector and quaternion
groups, and the immediates of format I.
-/

namespace Sys2Proof.Machine

/-- A vector operand's components (R33). -/
structure Vec3 where
  x : Word
  y : Word
  z : Word
  deriving DecidableEq, Repr

/-- A quaternion operand's components (R33); `w` is the scalar part (R290). -/
structure Quat where
  x : Word
  y : Word
  z : Word
  w : Word
  deriving DecidableEq, Repr

/-- The components in the order of the group's registers (R33). -/
def Vec3.toList (v : Vec3) : List Word := [v.x, v.y, v.z]

/-- The components in the order of the group's registers (R33). -/
def Quat.toList (q : Quat) : List Word := [q.x, q.y, q.z, q.w]

/-- Kind S, read: `f[r]` (R12, R30). -/
def State.reg (s : State) (r : Reg) : Word := s.f[r.val]

/-- Kind S, written: `f[r] <- v` (R12, R30). -/
def State.setReg (s : State) (r : Reg) (v : Word) : State := { s with f := s.f.set r.val v }

/-- Kind V, read: `V[r]` (R12, R33). Groups do not wrap: a base that would is an IllegalCommand (`complete`), so the sums here are
those of numbers up to 31. -/
def State.vec (s : State) (r : Reg) : Vec3 := ⟨s.reg r, s.reg (r + 1), s.reg (r + 2)⟩

/-- Kind Q, read: `Q[r]` (R12, R33); see `State.vec`. -/
def State.quat (s : State) (r : Reg) : Quat := ⟨s.reg r, s.reg (r + 1), s.reg (r + 2), s.reg (r + 3)⟩

/-- A destination of any kind, written: the values go to consecutive registers from `r` up (R33, R83). -/
def State.writeGroup (s : State) (r : Reg) : List Word → State
  | [] => s
  | v :: vs => (s.setReg r v).writeGroup (r + 1) vs

/-- `sext_20(imm20)`, the immediate of LI (R10, R84). -/
def sext20 (imm : BitVec 20) : Int := imm.toInt

/-- `zext_20(imm20)`, the constant index of LDC and VLDC (R10, R84). -/
def zext20 (k : BitVec 20) : Nat := k.toNat

end Sys2Proof.Machine
end

