-- ==== Sys2Proof/Machine/Ops.lean ====
section
/-!
DEFINITION. The shared operations of a command: fault entry (spec/60_exceptions.md R322), resume (R325), discarding a command while
Halted (R324), a host write to FSR (spec/10_state.md R37), and how a command ends (R34, R35, R320).
-/

namespace Sys2Proof.Machine

/-- Fault entry (R322): HALT, CAUSE and FCMD are written; the registers and LOST are not. -/
def State.faultEntry (s : State) (c : Cause) (cmd : CmdWord) : State :=
  { s with halt := true, cause := some c, fcmd := cmd.setWidth 64 }

/-- Resume (R325): HALT, CAUSE and FCMD are cleared, LOST is not. -/
def State.resume (s : State) : State :=
  { s with halt := false, cause := none, fcmd := 0#64 }

/-- A CMD write while Halted (R324 item 1): discarded, LOST set. -/
def State.discard (s : State) : State := { s with lost := true }

/-- A host write to FSR (R37): write 1 to clear on bits 0 and 4, all other bits ignored (log 13). -/
def State.writeFsr (s : State) (v : Word) : State :=
  let s1 := if v.getLsbD 0 then s.resume else s
  if v.getLsbD 4 then { s1 with lost := false } else s1

/-- The platform's reset (R360, R361) as seen by the machine: the reset state with the reset input at the level given. What the
outside world does next is not the machine's and stays. DESIGN CHOICE (log 4). -/
def State.resetTo (s : State) (level : Bool) : State :=
  { State.reset with inReset := level, host := s.host }

/-- How every command ends. A term with illegal fields is an IllegalCommand (R86) whatever its operands (R327 item 1; log 6). A
computation that raised takes fault entry and writes no register (R35, R322); any other writes its destination, from `rd` up, after
all sources were read (R34). The command word `cmd` of fault entry is the instruction's encoding (log 5). -/
def complete (i : Instr) (rd : Reg) (r : Except Cause (List Word)) (s : State) : Host.Outcome State Fault Refusal :=
  if i.wellFormed then
    match r with
    | .ok vs => .next (s.writeGroup rd vs)
    | .error c => .next (s.faultEntry c (encode i))
  else .next (s.faultEntry .illegalCommand (encode i))

/-- A command whose destination is one register (kind S). -/
def completeS (i : Instr) (rd : Reg) (r : Except Cause Word) (s : State) : Host.Outcome State Fault Refusal :=
  complete i rd (r.map fun v => [v]) s

/-- A command whose destination is a vector group (kind V). -/
def completeV (i : Instr) (rd : Reg) (r : Except Cause Vec3) (s : State) : Host.Outcome State Fault Refusal :=
  complete i rd (r.map Vec3.toList) s

/-- A command whose destination is a quaternion group (kind Q). -/
def completeQ (i : Instr) (rd : Reg) (r : Except Cause Quat) (s : State) : Host.Outcome State Fault Refusal :=
  complete i rd (r.map Quat.toList) s

end Sys2Proof.Machine
end

