-- ==== Sys2Proof/Machine/Arith.lean ====
section
/-!
DEFINITION. Scalar arithmetic (spec/41_scalar_arith.md R100 to R113): the functions of R13 over raw values, and the meanings of ADD SUB
MUL DIV MOD NEG FASTADD FASTSUB FASTMUL FASTMOD. Integers in between are exact and are narrowed by `s64` or `u64` where the rule says
so (spec/00_scope.md R10, R11).
-/

namespace Sys2Proof.Machine

/-- `ZERO` (R14). -/
def zeroV : Word := 0#64

/-- `ONE = 2^32` (R14). -/
def oneV : Word := 0x0000000100000000#64

/-- `TWO = 2·2^32` (R14). -/
def twoV : Word := 0x0000000200000000#64

/-- `MAXV = 2^63 - 1` (R14). -/
def maxV : Word := 0x7FFFFFFFFFFFFFFF#64

/-- `MINV = -2^63` (R14). -/
def minV : Word := 0x8000000000000000#64

/-- `s64(v)`, the two's-complement wrap (R10). -/
def s64 (v : Int) : Word := BitVec.ofInt 64 v

/-- `u64(v)` of a natural number (R10). -/
def u64 (v : Nat) : Nat := v % 2 ^ 64

/-- `a >> n` on a signed integer: floor division by `2^n` (R11). -/
def asr (a : Int) (n : Nat) : Int := a / 2 ^ n

/-- `sb(r)`, the sign bit of a raw value (R11). -/
def sb (r : Word) : Bool := r.msb

/-- `u64(r)[31:0]`, the fraction bits read unsigned (R9, R10). -/
def fracBits (r : Word) : Nat := r.toNat % 2 ^ 32

namespace Fx

/-- R100. -/
def add (x y : Word) : Word :=
  let s := s64 (x.toInt + y.toInt)
  if sb x = sb y ∧ sb s ≠ sb x then (if x.toInt > 0 then maxV else minV) else s

/-- R101. -/
def sub (x y : Word) : Word :=
  let d := s64 (x.toInt - y.toInt)
  if sb x ≠ sb y ∧ sb d ≠ sb x then (if x.toInt < 0 then minV else maxV) else d

/-- R102 (D32). -/
def neg (x : Word) : Word := sub 0#64 x

/-- The four partial products of R103, exact: `xlo·ylo`. -/
def lolo (x y : Word) : Int := (fracBits x : Int) * (fracBits y : Int)

/-- `xlo·yhi` (R103). -/
def lohi (x y : Word) : Int := (fracBits x : Int) * asr y.toInt 32

/-- `xhi·ylo` (R103). -/
def hilo (x y : Word) : Int := asr x.toInt 32 * (fracBits y : Int)

/-- `xhi·yhi` (R103). -/
def hihi (x y : Word) : Int := asr x.toInt 32 * asr y.toInt 32

/-- The 64-bit sum of R103's `acc`. -/
def accSum (a b : Word) : Word := s64 (a.toInt + b.toInt)

/-- Whether R103's `acc` sets `ov`: the carry into bit 63. -/
def accCarry (a b : Word) : Bool := sb a ^^ sb b ^^ sb (accSum a b)

/-- R103 (D18): the product's 64 bits summed in three steps with a record of carries, then the saturation tests in the order written. -/
def mul (x y : Word) : Word :=
  let a0 := s64 (asr (lolo x y) 32)
  let a1 := s64 (lohi x y)
  let a2 := s64 (hilo x y)
  let a3 := s64 (hihi x y * 2 ^ 32)
  let s1 := accSum a0 a1
  let s2 := accSum s1 a2
  let s := accSum s2 a3
  let ov := accCarry a0 a1 || accCarry s1 a2 || accCarry s2 a3
  let same : Bool := sb x == sb y
  let top := asr (hihi x y) 32
  let pos := if x.toInt > y.toInt then x else y
  let neg := if x.toInt > y.toInt then y else x
  if same ∧ (s.toInt < 0 ∨ (ov ∧ x.toInt > 0)) then maxV
  else if ¬ same ∧ s.toInt > 0 then minV
  else if top ≠ 0 ∧ top ≠ -1 then (if same then maxV else minV)
  else if ¬ same ∧ s.toInt > neg.toInt ∧ neg.toInt < -oneV.toInt ∧ pos.toInt > oneV.toInt then minV
  else s

/-- `clz64(v)` of a non-zero 64-bit `v` (R105). -/
def clz64 (v : Nat) : Nat := 63 - Nat.log2 v

/-- R105's loop that strips trailing zero nibbles of the divisor: the divisor and bit position it leaves. At most 8 rounds (log 10). -/
def stripNibbles : Nat → Nat → Nat → Nat × Nat
  | 0, d, bp => (d, bp)
  | n + 1, d, bp => if d % 16 = 0 ∧ 4 ≤ bp then stripNibbles n (d / 16) (bp - 4) else (d, bp)

/-- R105's digit loop: the quotient `q`, or `none` at the overflow exit (D44). At most 34 rounds (R365, log 10). -/
def divDigits : Nat → Nat → Nat → Nat → Int → Option Nat
  | 0, _, _, q, _ => some q
  | n + 1, rem, d, q, bp =>
    if rem ≠ 0 ∧ 0 ≤ bp then
      let sh := min (clz64 rem) bp.toNat
      let rem1 := rem * 2 ^ sh
      let bp1 := bp.toNat - sh
      let dv := rem1 / d
      let q1 := u64 (q + u64 (dv * 2 ^ bp1))
      if 2 ^ (64 - bp1) ≤ dv then none
      else divDigits n (u64 (rem1 % d * 2)) d q1 (bp1 - 1)
    else some q

/-- R105 (D19): magnitudes divided digit by digit, rounded by the extra +1 before the shift by 1, the sign the XOR of the operands'. At
`(MINV, -1)` the rules differ: this is MAXV by R105, R106 and D44, where a cell of R112 says MINV. DEDUCED (log 19). -/
def div (x y : Word) : Except Cause Word :=
  if y = 0#64 then .error .divideByZero
  else
    let strip := stripNibbles 8 y.toInt.natAbs 33
    match divDigits 34 x.toInt.natAbs strip.1 0 strip.2 with
    | none => .ok (if sb x = sb y then maxV else minV)
    | some q =>
      let r : Int := u64 (q + 1) / 2
      .ok (s64 (if sb x ≠ sb y then -r else r))

/-- R107 (D26): the truncated remainder of the raw integers. -/
def mod (x y : Word) : Except Cause Word :=
  if y = 0#64 then .error .divideByZero
  else if x = minV ∧ y.toInt = -1 then .ok 0#64
  else .ok (s64 (x.toInt.tmod y.toInt))

/-- R108 (D27). -/
def fastadd (x y : Word) : Word := s64 (x.toInt + y.toInt)

/-- R109 (D27). -/
def fastsub (x y : Word) : Word := s64 (x.toInt - y.toInt)

/-- R110 (D27): the sum of R103's partial products, wrapped. -/
def fastmul (x y : Word) : Word :=
  s64 (asr (lolo x y) 32 + lohi x y + hilo x y + hihi x y * 2 ^ 32)

/-- R111 (D26, D28): at `(MINV, -1)` the OPEN parameter `FASTMOD_MIN_NEG1` (log 7). -/
def fastmod (x y : Word) : Except Cause Word :=
  if y = 0#64 then .error .divideByZero
  else if x = minV ∧ y.toInt = -1 then
    match Config.fastmodMinNeg1 with
    | none => .error .fastModOverflow
    | some v => .ok v
  else .ok (s64 (x.toInt.tmod y.toInt))

end Fx

/-- ADD (R100). -/
def execAdd (rd rs1 rs2 : Reg) (s : State) : Host.Outcome State Fault Refusal :=
  completeS (.add rd rs1 rs2) rd (.ok (Fx.add (s.reg rs1) (s.reg rs2))) s

/-- SUB (R101). -/
def execSub (rd rs1 rs2 : Reg) (s : State) : Host.Outcome State Fault Refusal :=
  completeS (.sub rd rs1 rs2) rd (.ok (Fx.sub (s.reg rs1) (s.reg rs2))) s

/-- MUL (R103). -/
def execMul (rd rs1 rs2 : Reg) (s : State) : Host.Outcome State Fault Refusal :=
  completeS (.mul rd rs1 rs2) rd (.ok (Fx.mul (s.reg rs1) (s.reg rs2))) s

/-- DIV (R105). -/
def execDiv (rd rs1 rs2 : Reg) (s : State) : Host.Outcome State Fault Refusal :=
  completeS (.div rd rs1 rs2) rd (Fx.div (s.reg rs1) (s.reg rs2)) s

/-- MOD (R107). -/
def execMod (rd rs1 rs2 : Reg) (s : State) : Host.Outcome State Fault Refusal :=
  completeS (.mod rd rs1 rs2) rd (Fx.mod (s.reg rs1) (s.reg rs2)) s

/-- NEG (R102). -/
def execNeg (rd rs1 : Reg) (s : State) : Host.Outcome State Fault Refusal :=
  completeS (.neg rd rs1) rd (.ok (Fx.neg (s.reg rs1))) s

/-- FASTADD (R108). -/
def execFastadd (rd rs1 rs2 : Reg) (s : State) : Host.Outcome State Fault Refusal :=
  completeS (.fastadd rd rs1 rs2) rd (.ok (Fx.fastadd (s.reg rs1) (s.reg rs2))) s

/-- FASTSUB (R109). -/
def execFastsub (rd rs1 rs2 : Reg) (s : State) : Host.Outcome State Fault Refusal :=
  completeS (.fastsub rd rs1 rs2) rd (.ok (Fx.fastsub (s.reg rs1) (s.reg rs2))) s

/-- FASTMUL (R110). -/
def execFastmul (rd rs1 rs2 : Reg) (s : State) : Host.Outcome State Fault Refusal :=
  completeS (.fastmul rd rs1 rs2) rd (.ok (Fx.fastmul (s.reg rs1) (s.reg rs2))) s

/-- FASTMOD (R111). -/
def execFastmod (rd rs1 rs2 : Reg) (s : State) : Host.Outcome State Fault Refusal :=
  completeS (.fastmod rd rs1 rs2) rd (Fx.fastmod (s.reg rs1) (s.reg rs2)) s

end Sys2Proof.Machine
end

