-- ==== Sys2Proof/Machine/Compare.lean ====
section
/-!
DEFINITION. Compare and select (spec/44_compare_select.md R190 to R196): MIN MAX CLAMP CLAMP01 CMPEQ CMPLT CMPLE. Raw values compare as
signed integers (R15).
-/

namespace Sys2Proof.Machine

namespace Fx

/-- R190: a tie returns the second argument. -/
def min (a b : Word) : Word := if a.toInt < b.toInt then a else b

/-- R191: a tie returns the second argument. -/
def max (a b : Word) : Word := if a.toInt > b.toInt then a else b

/-- R192 (D31): the lower bound is tested first. -/
def clamp (v lo hi : Word) : Word :=
  if v.toInt < lo.toInt then lo else if v.toInt > hi.toInt then hi else v

/-- R193. -/
def clamp01 (v : Word) : Word := clamp v zeroV oneV

/-- A comparison's outcome as a register value: ONE for true, ZERO for false (D30). -/
def truth (p : Bool) : Word := if p then oneV else zeroV

/-- R194. -/
def cmpeq (a b : Word) : Word := truth (a.toInt = b.toInt)

/-- R195. -/
def cmplt (a b : Word) : Word := truth (a.toInt < b.toInt)

/-- R196. -/
def cmple (a b : Word) : Word := truth (a.toInt ≤ b.toInt)

end Fx

/-- MIN (R190). -/
def execMin (rd rs1 rs2 : Reg) (s : State) : Host.Outcome State Fault Refusal :=
  completeS (.min rd rs1 rs2) rd (.ok (Fx.min (s.reg rs1) (s.reg rs2))) s

/-- MAX (R191). -/
def execMax (rd rs1 rs2 : Reg) (s : State) : Host.Outcome State Fault Refusal :=
  completeS (.max rd rs1 rs2) rd (.ok (Fx.max (s.reg rs1) (s.reg rs2))) s

/-- CLAMP (R192): value rs1, lower bound rs2, upper bound rs3. -/
def execClamp (rd rs1 rs2 rs3 : Reg) (s : State) : Host.Outcome State Fault Refusal :=
  completeS (.clamp rd rs1 rs2 rs3) rd (.ok (Fx.clamp (s.reg rs1) (s.reg rs2) (s.reg rs3))) s

/-- CLAMP01 (R193). -/
def execClamp01 (rd rs1 : Reg) (s : State) : Host.Outcome State Fault Refusal :=
  completeS (.clamp01 rd rs1) rd (.ok (Fx.clamp01 (s.reg rs1))) s

/-- CMPEQ (R194). -/
def execCmpeq (rd rs1 rs2 : Reg) (s : State) : Host.Outcome State Fault Refusal :=
  completeS (.cmpeq rd rs1 rs2) rd (.ok (Fx.cmpeq (s.reg rs1) (s.reg rs2))) s

/-- CMPLT (R195). -/
def execCmplt (rd rs1 rs2 : Reg) (s : State) : Host.Outcome State Fault Refusal :=
  completeS (.cmplt rd rs1 rs2) rd (.ok (Fx.cmplt (s.reg rs1) (s.reg rs2))) s

/-- CMPLE (R196). -/
def execCmple (rd rs1 rs2 : Reg) (s : State) : Host.Outcome State Fault Refusal :=
  completeS (.cmple rd rs1 rs2) rd (.ok (Fx.cmple (s.reg rs1) (s.reg rs2))) s

end Sys2Proof.Machine
end

