-- ==== Sys2Proof/Machine/Convert.lean ====
section
/-!
DEFINITION. Moves, constants and conversions (spec/45_move_convert.md R210 to R219): MOV LI LDC FROMINT TOINT FROMF64 TOF64 FROMF32
TOF32.
-/

namespace Sys2Proof.Machine

/-- A binary floating-point format: the widths of its exponent and fraction fields. The IEEE 754 formats are general knowledge
(R215). PRESUMED (log 9). -/
structure FloatFormat where
  expBits : Nat
  manBits : Nat
  deriving DecidableEq, Repr

/-- binary64: sign bit 63, exponent 62:52, fraction 51:0. -/
def binary64 : FloatFormat := ⟨11, 52⟩

/-- binary32: sign bit 31, exponent 30:23, fraction 22:0. -/
def binary32 : FloatFormat := ⟨8, 23⟩

/-- The exponent bias. -/
def FloatFormat.bias (fmt : FloatFormat) : Nat := 2 ^ (fmt.expBits - 1) - 1

/-- The sign bit of a pattern. -/
def FloatFormat.negative (fmt : FloatFormat) (p : Nat) : Bool := p / 2 ^ (fmt.expBits + fmt.manBits) % 2 == 1

/-- The exponent field of a pattern. -/
def FloatFormat.expField (fmt : FloatFormat) (p : Nat) : Nat := p / 2 ^ fmt.manBits % 2 ^ fmt.expBits

/-- The fraction field of a pattern. -/
def FloatFormat.manField (fmt : FloatFormat) (p : Nat) : Nat := p % 2 ^ fmt.manBits

/-- Finite: the exponent field is not all ones (infinities and NaNs). -/
def FloatFormat.finite (fmt : FloatFormat) (p : Nat) : Bool := fmt.expField p != 2 ^ fmt.expBits - 1

/-- The significand of a finite pattern as an integer: with the hidden bit when normal, without when subnormal or zero. -/
def FloatFormat.significand (fmt : FloatFormat) (p : Nat) : Nat :=
  if fmt.expField p = 0 then fmt.manField p else 2 ^ fmt.manBits + fmt.manField p

/-- The exponent `e` of a finite pattern, so that its magnitude is `significand · 2^e`. -/
def FloatFormat.exponent (fmt : FloatFormat) (p : Nat) : Int :=
  (if fmt.expField p = 0 then 1 else fmt.expField p : Int) - fmt.bias - fmt.manBits

/-- `trunc(v · 2^32)` of the finite value `v` of a pattern, exact, toward zero (R215 item 1). -/
def FloatFormat.truncFixed (fmt : FloatFormat) (p : Nat) : Int :=
  let e := fmt.exponent p + 32
  let m := if 0 ≤ e then fmt.significand p * 2 ^ e.toNat else fmt.significand p / 2 ^ (-e).toNat
  if fmt.negative p then -(m : Int) else m

/-- `m / 2^sh` rounded to the nearest integer, ties to even (R215 item 3). -/
def roundShift (m sh : Nat) : Nat :=
  let q := m / 2 ^ sh
  let r := m % 2 ^ sh
  if 2 * r > 2 ^ sh ∨ (2 * r = 2 ^ sh ∧ q % 2 = 1) then q + 1 else q

/-- The pattern of `m / 2^32`, `m` not 0, rounded to the format, ties to even; the result is always normal (R215 item 3). A rounding up to
the next power of two carries into the exponent field. -/
def FloatFormat.patternOfMagnitude (fmt : FloatFormat) (m : Nat) : Nat :=
  let top := Nat.log2 m
  let sig := if top ≤ fmt.manBits then m * 2 ^ (fmt.manBits - top) else roundShift m (top - fmt.manBits)
  (top + fmt.bias - 32) * 2 ^ fmt.manBits + (sig - 2 ^ fmt.manBits)

/-- The pattern of `raw / 2^32` in the format (R215 item 3); zero gives +0.0. -/
def FloatFormat.ofFixed (fmt : FloatFormat) (x : Word) : Nat :=
  if x = 0#64 then 0
  else (if x.toInt < 0 then 2 ^ (fmt.expBits + fmt.manBits) else 0) + fmt.patternOfMagnitude x.toInt.natAbs

namespace Fx

/-- R211 (D40). -/
def li (imm : BitVec 20) : Word := s64 (sext20 imm * 2 ^ 32)

/-- SCONST (R212, D25), the read-only table of LDC; rows 4 to 6 are the parameters `k` (R8). There is no row past 6: such an LDC is an
IllegalCommand (R86). -/
def sconst (k : Config.LogConstants) : Nat → Word
  | 0 => zeroV
  | 1 => oneV
  | 2 => maxV
  | 3 => minV
  | 4 => k.ln2
  | 5 => k.log2max
  | 6 => k.log2min
  | _ => zeroV

/-- R213 (D34): bits 31:0 as a signed integer, times `2^32`. -/
def fromint (n : Word) : Word := s64 ((n.setWidth 32).toInt * 2 ^ 32)

/-- R214 (D34): floor of the value, as a 64-bit integer. -/
def toint (x : Word) : Word := s64 (asr x.toInt 32)

/-- R215 item 1: a value out of range, infinite or NaN goes to the OPEN parameter `F2X_OOR` (log 8). -/
def fromFloat (fmt : FloatFormat) (bitsOfP : Nat) (p : FloatPattern) : Except Cause Word :=
  let t := fmt.truncFixed bitsOfP
  if fmt.finite bitsOfP ∧ minV.toInt ≤ t ∧ t ≤ maxV.toInt then .ok (s64 t)
  else
    match Config.f2xOor with
    | none => .error .domainError
    | some g => .ok (g p)

/-- R216. -/
def fromf64 (p : Word) : Except Cause Word := fromFloat binary64 p.toNat (.f64 p)

/-- R217. -/
def tof64 (x : Word) : Word := BitVec.ofNat 64 (binary64.ofFixed x)

/-- R218: bits 63:32 are ignored. -/
def fromf32 (p : Word) : Except Cause Word := fromFloat binary32 (p.setWidth 32).toNat (.f32 (p.setWidth 32))

/-- R219: bits 63:32 of the result are 0. -/
def tof32 (x : Word) : Word := (BitVec.ofNat 32 (binary32.ofFixed x)).setWidth 64

end Fx

/-- MOV (R210): all 64 bits. -/
def execMov (rd rs1 : Reg) (s : State) : Host.Outcome State Fault Refusal :=
  completeS (.mov rd rs1) rd (.ok (s.reg rs1)) s

/-- LI (R211). -/
def execLi (rd : Reg) (imm : BitVec 20) (s : State) : Host.Outcome State Fault Refusal :=
  completeS (.li rd imm) rd (.ok (Fx.li imm)) s

/-- LDC (R212). -/
def execLdc (rd : Reg) (k : BitVec 20) (s : State) : Host.Outcome State Fault Refusal :=
  completeS (.ldc rd k) rd (.ok (Fx.sconst Config.logConstants (zext20 k))) s

/-- FROMINT (R213). -/
def execFromint (rd rs1 : Reg) (s : State) : Host.Outcome State Fault Refusal :=
  completeS (.fromint rd rs1) rd (.ok (Fx.fromint (s.reg rs1))) s

/-- TOINT (R214). -/
def execToint (rd rs1 : Reg) (s : State) : Host.Outcome State Fault Refusal :=
  completeS (.toint rd rs1) rd (.ok (Fx.toint (s.reg rs1))) s

/-- FROMF64 (R216). -/
def execFromf64 (rd rs1 : Reg) (s : State) : Host.Outcome State Fault Refusal :=
  completeS (.fromf64 rd rs1) rd (Fx.fromf64 (s.reg rs1)) s

/-- TOF64 (R217). -/
def execTof64 (rd rs1 : Reg) (s : State) : Host.Outcome State Fault Refusal :=
  completeS (.tof64 rd rs1) rd (.ok (Fx.tof64 (s.reg rs1))) s

/-- FROMF32 (R218). -/
def execFromf32 (rd rs1 : Reg) (s : State) : Host.Outcome State Fault Refusal :=
  completeS (.fromf32 rd rs1) rd (Fx.fromf32 (s.reg rs1)) s

/-- TOF32 (R219). -/
def execTof32 (rd rs1 : Reg) (s : State) : Host.Outcome State Fault Refusal :=
  completeS (.tof32 rd rs1) rd (.ok (Fx.tof32 (s.reg rs1))) s

end Sys2Proof.Machine
end

