-- ==== Sys2Proof/Machine/Rounding.lean ====
section
/-!
DEFINITION. Rounding and sign (spec/42_rounding_sign.md R140 to R145): ABS SIGN FLOOR CEIL ROUND TRUNC.
-/

namespace Sys2Proof.Machine

namespace Fx

/-- R140. -/
def abs (x : Word) : Word :=
  if x = minV then maxV
  else
    let m := asr x.toInt 63
    s64 (x.toInt + m) ^^^ s64 m

/-- R141 (D29). -/
def sign (x : Word) : Word :=
  if x.toInt < 0 then s64 (-oneV.toInt) else if x.toInt > 0 then oneV else 0#64

/-- R142. -/
def floor (x : Word) : Word := x &&& 0xFFFFFFFF00000000#64

/-- R143 (D33). -/
def ceil (x : Word) : Word := if fracBits x ≠ 0 then add (floor x) oneV else x

/-- R144. -/
def round (x : Word) : Word :=
  let i := floor x
  if fracBits x < 0x80000000 then i
  else if fracBits x > 0x80000000 then add i oneV
  else if i.getLsbD 32 = false then i
  else add i oneV

/-- R145 (D33): the formula, as 90_conflicts.md C1 decides. -/
def trunc (x : Word) : Word := if x.toInt ≥ 0 then floor x else add (floor x) oneV

end Fx

/-- ABS (R140). -/
def execAbs (rd rs1 : Reg) (s : State) : Host.Outcome State Fault Refusal :=
  completeS (.abs rd rs1) rd (.ok (Fx.abs (s.reg rs1))) s

/-- SIGN (R141). -/
def execSign (rd rs1 : Reg) (s : State) : Host.Outcome State Fault Refusal :=
  completeS (.sign rd rs1) rd (.ok (Fx.sign (s.reg rs1))) s

/-- FLOOR (R142). -/
def execFloor (rd rs1 : Reg) (s : State) : Host.Outcome State Fault Refusal :=
  completeS (.floor rd rs1) rd (.ok (Fx.floor (s.reg rs1))) s

/-- CEIL (R143). -/
def execCeil (rd rs1 : Reg) (s : State) : Host.Outcome State Fault Refusal :=
  completeS (.ceil rd rs1) rd (.ok (Fx.ceil (s.reg rs1))) s

/-- ROUND (R144). -/
def execRound (rd rs1 : Reg) (s : State) : Host.Outcome State Fault Refusal :=
  completeS (.round rd rs1) rd (.ok (Fx.round (s.reg rs1))) s

/-- TRUNC (R145). -/
def execTrunc (rd rs1 : Reg) (s : State) : Host.Outcome State Fault Refusal :=
  completeS (.trunc rd rs1) rd (.ok (Fx.trunc (s.reg rs1))) s

end Sys2Proof.Machine
end

