-- ==== Sys2Proof/Machine/SqrtLogPow.lean ====
section
/-!
DEFINITION. Square root, logarithm and power (spec/43_sqrt_log_pow.md R160 to R166): SQRT LOG2 LN POW2 POW. Each loop carries a bound
that it never reaches (R365, log 10).
-/

namespace Sys2Proof.Machine

namespace Fx

/-- R160: `while bit > num: bit <- bit >> 2`. At most 32 rounds. -/
def sqrtStart : Nat → Word → Word → Word
  | 0, _, bit => bit
  | n + 1, num, bit => if num < bit then sqrtStart n num (bit >>> 2) else bit

/-- The registers of R160's digit loop, 64 bits unsigned; every operation on them wraps. -/
structure SqrtRegs where
  num : Word
  res : Word
  deriving DecidableEq, Repr

/-- R160: `while bit != 0`, one digit of the root per round. At most 32 rounds (R365). -/
def sqrtDigits : Nat → Word → SqrtRegs → SqrtRegs
  | 0, _, r => r
  | n + 1, bit, r =>
    if bit = 0#64 then r
    else if r.res + bit ≤ r.num then sqrtDigits n (bit >>> 2) ⟨r.num - (r.res + bit), (r.res >>> 1) + bit⟩
    else sqrtDigits n (bit >>> 2) ⟨r.num, r.res >>> 1⟩

/-- R160: what the first pass leaves to the second (`if pass = 0`). DESIGN CHOICE, unsafe (log 20): the constants are R160's; the first
branch takes 2^31 off `num` where R161's closed form would take 2^30, so the two forms differ on some operands of 2^62 or more. -/
def sqrtRescale (r : SqrtRegs) : SqrtRegs :=
  if (0xFFFFFFFF#64 : Word) < r.num then
    ⟨((r.num - r.res) <<< 32) - 0x80000000#64, (r.res <<< 32) + 0x80000000#64⟩
  else ⟨r.num <<< 32, r.res <<< 32⟩

/-- R160 (D20): the two passes on the raw value read unsigned, and the final adjustment. R161 lets a model compute this loop or its closed
form; this is the loop (log 20). -/
def sqrtUnsigned (x : Word) : Word :=
  let r0 := sqrtDigits 32 (sqrtStart 32 x 0x4000000000000000#64) ⟨x, 0#64⟩
  let r := sqrtDigits 16 0x40000000#64 (sqrtRescale r0)
  if r.res < r.num then r.res + 1#64 else r.res

/-- R160; where it and R161 differ, R160 (log 20). -/
def sqrt (x : Word) : Except Cause Word :=
  if x.toInt < 0 then .error .domainError else .ok (sqrtUnsigned x)

/-- The mantissa and the integer part of R162's normalisation. -/
structure LogRegs where
  r : Int
  y : Int
  deriving DecidableEq, Repr

/-- R162: `while r < ONE`. At most 32 rounds (R365). -/
def logUp : Nat → LogRegs → LogRegs
  | 0, l => l
  | n + 1, l => if l.r < oneV.toInt then logUp n ⟨l.r * 2, l.y - oneV.toInt⟩ else l

/-- R162: `while r >= 2*ONE`. At most 32 rounds (R365). -/
def logDown : Nat → LogRegs → LogRegs
  | 0, l => l
  | n + 1, l => if 2 * oneV.toInt ≤ l.r then logDown n ⟨asr l.r 1, l.y + oneV.toInt⟩ else l

/-- R162: `repeat 32 times`, one fractional bit of the logarithm per squaring, `b` its weight. -/
def logSquare : Nat → Int → LogRegs → LogRegs
  | 0, _, l => l
  | n + 1, b, l =>
    let z := (fastmul (s64 l.r) (s64 l.r)).toInt
    if 2 * oneV.toInt ≤ z then logSquare n (asr b 1) ⟨asr z 1, l.y + b⟩ else logSquare n (asr b 1) ⟨z, l.y⟩

/-- R162 (D21). -/
def log2 (x : Word) : Except Cause Word :=
  if x.toInt ≤ 0 then .error .domainError
  else .ok (s64 (logSquare 32 (2 ^ 31) (logDown 32 (logUp 32 ⟨x.toInt, 0⟩))).y)

/-- R163 (D22): the product by FASTMUL. `k` holds the parameter `LN2_RAW`. -/
def ln (k : Config.LogConstants) (x : Word) : Except Cause Word :=
  (log2 x).map fun l => fastmul l k.ln2

/-- One more term of R164's series, the `i`-th. -/
def powTerm (ln2 fr term : Word) (i : Nat) : Except Cause Word :=
  div (fastmul (fastmul fr term) ln2) (fromint (BitVec.ofNat 64 i))

/-- R164: `while term != 0`. At most 12 rounds with the constants of R7 (R165 item 1, log 10). -/
def powSeries (ln2 fr : Word) : Nat → Word → Word → Nat → Except Cause Word
  | 0, result, _, _ => .ok result
  | n + 1, result, term, i =>
    if term = 0#64 then .ok result
    else
      match powTerm ln2 fr term i with
      | .error c => .error c
      | .ok t => powSeries ln2 fr n (add result t) t (i + 1)

/-- R164 (D23; 90_conflicts.md C3): the signed exponent is tested before it is negated. `k` holds the parameters. -/
def pow2 (k : Config.LogConstants) (x : Word) : Except Cause Word :=
  if x = 0#64 then .ok oneV
  else if x.toInt ≥ k.log2max.toInt then .ok maxV
  else if x.toInt ≤ k.log2min.toInt then .ok zeroV
  else
    let a := if x.toInt < 0 then neg x else x
    if x.toInt < 0 ∧ a.toInt ≥ k.log2max.toInt then div oneV maxV
    else
      let ip := (asr a.toInt 32).toNat
      let fr := BitVec.ofNat 64 (fracBits a)
      match powSeries k.ln2 fr 64 oneV oneV 1 with
      | .error c => .error c
      | .ok p =>
        let result := s64 (p.toInt * 2 ^ ip)
        if x.toInt < 0 then div oneV result else .ok result

/-- R166 (D24): the special cases in the order written, then `POW2(MUL(e, LOG2(b)))`. -/
def pow (k : Config.LogConstants) (b e : Word) : Except Cause Word :=
  if b = oneV then .ok oneV
  else if e = 0#64 then .ok oneV
  else if b = 0#64 then (if e.toInt < 0 then .error .divideByZero else .ok zeroV)
  else
    match log2 b with
    | .error c => .error c
    | .ok l => pow2 k (mul e l)

end Fx

/-- SQRT (R160). -/
def execSqrt (rd rs1 : Reg) (s : State) : Host.Outcome State Fault Refusal :=
  completeS (.sqrt rd rs1) rd (Fx.sqrt (s.reg rs1)) s

/-- LOG2 (R162). -/
def execLog2 (rd rs1 : Reg) (s : State) : Host.Outcome State Fault Refusal :=
  completeS (.log2 rd rs1) rd (Fx.log2 (s.reg rs1)) s

/-- LN (R163). -/
def execLn (rd rs1 : Reg) (s : State) : Host.Outcome State Fault Refusal :=
  completeS (.ln rd rs1) rd (Fx.ln Config.logConstants (s.reg rs1)) s

/-- POW2 (R164). -/
def execPow2 (rd rs1 : Reg) (s : State) : Host.Outcome State Fault Refusal :=
  completeS (.pow2 rd rs1) rd (Fx.pow2 Config.logConstants (s.reg rs1)) s

/-- POW (R166). -/
def execPow (rd rs1 rs2 : Reg) (s : State) : Host.Outcome State Fault Refusal :=
  completeS (.pow rd rs1 rs2) rd (Fx.pow Config.logConstants (s.reg rs1) (s.reg rs2)) s

end Sys2Proof.Machine
end

