-- ==== Sys2Proof/Machine/VectorOps.lean ====
section
/-!
DEFINITION. The vector pipeline (spec/46_vector.md R240 to R259): fixed expressions of the scalar functions, in the association order
the rules write (D35). Components are computed in the order x, y, z, and a fault in one abandons the command (R240).
-/

namespace Sys2Proof.Machine

namespace Fx

/-- The same scalar function on each component. -/
def map3 (g : Word → Word) (a : Vec3) : Vec3 := ⟨g a.x, g a.y, g a.z⟩

/-- The same scalar function on each pair of components. -/
def zip3 (g : Word → Word → Word) (a b : Vec3) : Vec3 := ⟨g a.x b.x, g a.y b.y, g a.z b.z⟩

/-- Each component divided by `d`, in the order x, y, z. -/
def div3 (a : Vec3) (d : Word) : Except Cause Vec3 := do
  let x ← div a.x d
  let y ← div a.y d
  let z ← div a.z d
  return ⟨x, y, z⟩

/-- R241. -/
def vadd (a b : Vec3) : Vec3 := zip3 add a b

/-- R242. -/
def vsub (a b : Vec3) : Vec3 := zip3 sub a b

/-- R243. -/
def vneg (a : Vec3) : Vec3 := map3 neg a

/-- R244. -/
def vscale (a : Vec3) (s : Word) : Vec3 := map3 (fun c => mul c s) a

/-- R245 (D45). -/
def vdivs (a : Vec3) (s : Word) : Except Cause Vec3 :=
  if s = 0#64 then .error .divideByZero else div3 a s

/-- R246 (D35). -/
def vdot (a b : Vec3) : Word := add (add (mul a.x b.x) (mul a.y b.y)) (mul a.z b.z)

/-- R247. -/
def vsqrmag (a : Vec3) : Word := vdot a a

/-- R248. -/
def vmag (a : Vec3) : Except Cause Word := sqrt (vsqrmag a)

/-- R249. -/
def vnorm (a : Vec3) : Except Cause Vec3 := do
  let m ← vmag a
  if m.toInt ≤ 0 then return ⟨zeroV, zeroV, zeroV⟩ else div3 a m

/-- R250. -/
def vcross (a b : Vec3) : Vec3 :=
  ⟨sub (mul a.y b.z) (mul a.z b.y),
   sub (mul a.z b.x) (mul a.x b.z),
   sub (mul a.x b.y) (mul a.y b.x)⟩

/-- R251 (D35). -/
def vproj (v n : Vec3) : Except Cause Vec3 :=
  let sq := vdot n n
  if sq.toInt < 0 then .ok ⟨zeroV, zeroV, zeroV⟩
  else if sq = 0#64 then .error .divideByZero
  else
    let d := vdot v n
    div3 (map3 (fun c => mul c d) n) sq

/-- R252 (D35, D36). -/
def vprojp (v n : Vec3) : Except Cause Vec3 :=
  let sq := vdot n n
  if sq.toInt < 0 then .ok v
  else if sq = 0#64 then .error .divideByZero
  else
    let d := vdot v n
    (div3 (map3 (fun c => mul c d) n) sq).map fun p => zip3 sub v p

/-- R253. -/
def vdist (a b : Vec3) : Except Cause Word := vmag (vsub a b)

/-- R255 (D35). -/
def vlerpu (a b : Vec3) (t : Word) : Vec3 :=
  zip3 (fun ai bi => add ai (mul (sub bi ai) t)) a b

/-- R254. -/
def vlerp (a b : Vec3) (t : Word) : Vec3 := vlerpu a b (clamp01 t)

/-- R256. -/
def vmin (a b : Vec3) : Vec3 := zip3 min a b

/-- R257. -/
def vmax (a b : Vec3) : Vec3 := zip3 max a b

/-- R259 (D30, D35): the sum-of-differences test, not component-wise equality. -/
def veq (a b : Vec3) : Word :=
  truth (add (add (sub a.x b.x) (sub a.y b.y)) (sub a.z b.z) = 0#64)

/-- `-ONE`. -/
def negOne : Word := 0xFFFFFFFF00000000#64

/-- VCONST (R258, D39), the read-only table of VLDC. There is no row past 7: such a VLDC is an IllegalCommand (R86). -/
def vconst : Nat → Vec3
  | 0 => ⟨zeroV, zeroV, zeroV⟩    -- ZERO
  | 1 => ⟨oneV, oneV, oneV⟩       -- ONE
  | 2 => ⟨zeroV, oneV, zeroV⟩     -- UP
  | 3 => ⟨zeroV, negOne, zeroV⟩   -- DOWN
  | 4 => ⟨negOne, zeroV, zeroV⟩   -- LEFT
  | 5 => ⟨oneV, zeroV, zeroV⟩     -- RIGHT
  | 6 => ⟨zeroV, zeroV, oneV⟩     -- FORWARD
  | 7 => ⟨zeroV, zeroV, negOne⟩   -- BACK
  | _ => ⟨zeroV, zeroV, zeroV⟩

end Fx

/-- VADD (R241). -/
def execVadd (rd rs1 rs2 : Reg) (s : State) : Host.Outcome State Fault Refusal :=
  completeV (.vadd rd rs1 rs2) rd (.ok (Fx.vadd (s.vec rs1) (s.vec rs2))) s

/-- VSUB (R242). -/
def execVsub (rd rs1 rs2 : Reg) (s : State) : Host.Outcome State Fault Refusal :=
  completeV (.vsub rd rs1 rs2) rd (.ok (Fx.vsub (s.vec rs1) (s.vec rs2))) s

/-- VNEG (R243). -/
def execVneg (rd rs1 : Reg) (s : State) : Host.Outcome State Fault Refusal :=
  completeV (.vneg rd rs1) rd (.ok (Fx.vneg (s.vec rs1))) s

/-- VSCALE (R244). -/
def execVscale (rd rs1 rs2 : Reg) (s : State) : Host.Outcome State Fault Refusal :=
  completeV (.vscale rd rs1 rs2) rd (.ok (Fx.vscale (s.vec rs1) (s.reg rs2))) s

/-- VDIVS (R245). -/
def execVdivs (rd rs1 rs2 : Reg) (s : State) : Host.Outcome State Fault Refusal :=
  completeV (.vdivs rd rs1 rs2) rd (Fx.vdivs (s.vec rs1) (s.reg rs2)) s

/-- VDOT (R246). -/
def execVdot (rd rs1 rs2 : Reg) (s : State) : Host.Outcome State Fault Refusal :=
  completeS (.vdot rd rs1 rs2) rd (.ok (Fx.vdot (s.vec rs1) (s.vec rs2))) s

/-- VSQRMAG (R247). -/
def execVsqrmag (rd rs1 : Reg) (s : State) : Host.Outcome State Fault Refusal :=
  completeS (.vsqrmag rd rs1) rd (.ok (Fx.vsqrmag (s.vec rs1))) s

/-- VMAG (R248). -/
def execVmag (rd rs1 : Reg) (s : State) : Host.Outcome State Fault Refusal :=
  completeS (.vmag rd rs1) rd (Fx.vmag (s.vec rs1)) s

/-- VNORM (R249). -/
def execVnorm (rd rs1 : Reg) (s : State) : Host.Outcome State Fault Refusal :=
  completeV (.vnorm rd rs1) rd (Fx.vnorm (s.vec rs1)) s

/-- VCROSS (R250). -/
def execVcross (rd rs1 rs2 : Reg) (s : State) : Host.Outcome State Fault Refusal :=
  completeV (.vcross rd rs1 rs2) rd (.ok (Fx.vcross (s.vec rs1) (s.vec rs2))) s

/-- VPROJ (R251): vector rs1, normal rs2. -/
def execVproj (rd rs1 rs2 : Reg) (s : State) : Host.Outcome State Fault Refusal :=
  completeV (.vproj rd rs1 rs2) rd (Fx.vproj (s.vec rs1) (s.vec rs2)) s

/-- VPROJP (R252): vector rs1, plane normal rs2. -/
def execVprojp (rd rs1 rs2 : Reg) (s : State) : Host.Outcome State Fault Refusal :=
  completeV (.vprojp rd rs1 rs2) rd (Fx.vprojp (s.vec rs1) (s.vec rs2)) s

/-- VDIST (R253). -/
def execVdist (rd rs1 rs2 : Reg) (s : State) : Host.Outcome State Fault Refusal :=
  completeS (.vdist rd rs1 rs2) rd (Fx.vdist (s.vec rs1) (s.vec rs2)) s

/-- VLERP (R254). -/
def execVlerp (rd rs1 rs2 rs3 : Reg) (s : State) : Host.Outcome State Fault Refusal :=
  completeV (.vlerp rd rs1 rs2 rs3) rd (.ok (Fx.vlerp (s.vec rs1) (s.vec rs2) (s.reg rs3))) s

/-- VLERPU (R255). -/
def execVlerpu (rd rs1 rs2 rs3 : Reg) (s : State) : Host.Outcome State Fault Refusal :=
  completeV (.vlerpu rd rs1 rs2 rs3) rd (.ok (Fx.vlerpu (s.vec rs1) (s.vec rs2) (s.reg rs3))) s

/-- VMIN (R256). -/
def execVmin (rd rs1 rs2 : Reg) (s : State) : Host.Outcome State Fault Refusal :=
  completeV (.vmin rd rs1 rs2) rd (.ok (Fx.vmin (s.vec rs1) (s.vec rs2))) s

/-- VMAX (R257). -/
def execVmax (rd rs1 rs2 : Reg) (s : State) : Host.Outcome State Fault Refusal :=
  completeV (.vmax rd rs1 rs2) rd (.ok (Fx.vmax (s.vec rs1) (s.vec rs2))) s

/-- VEQ (R259). -/
def execVeq (rd rs1 rs2 : Reg) (s : State) : Host.Outcome State Fault Refusal :=
  completeS (.veq rd rs1 rs2) rd (.ok (Fx.veq (s.vec rs1) (s.vec rs2))) s

/-- VLDC (R258). -/
def execVldc (rd : Reg) (k : BitVec 20) (s : State) : Host.Outcome State Fault Refusal :=
  completeV (.vldc rd k) rd (.ok (Fx.vconst (zext20 k))) s

end Sys2Proof.Machine
end

