-- ==== Sys2Proof/Machine/Quaternion.lean ====
section
/-!
DEFINITION. The quaternion pipeline (spec/47_quaternion.md R290 to R297), in the association order the rules write (D37).
-/

namespace Sys2Proof.Machine

namespace Fx

/-- Identity (R297). -/
def qidentity : Quat := ⟨zeroV, zeroV, zeroV, oneV⟩

/-- R291, the Hamilton product. -/
def qmul (l r : Quat) : Quat :=
  ⟨sub (add (add (mul l.w r.x) (mul l.x r.w)) (mul l.y r.z)) (mul l.z r.y),
   sub (add (add (mul l.w r.y) (mul l.y r.w)) (mul l.z r.x)) (mul l.x r.z),
   sub (add (add (mul l.w r.z) (mul l.z r.w)) (mul l.x r.y)) (mul l.y r.x),
   sub (sub (sub (mul l.w r.w) (mul l.x r.x)) (mul l.y r.y)) (mul l.z r.z)⟩

/-- R292, the 21-multiply rotation. -/
def qrot (q : Quat) (p : Vec3) : Vec3 :=
  let x2 := mul q.x twoV
  let y2 := mul q.y twoV
  let z2 := mul q.z twoV
  let xx := mul q.x x2
  let yy := mul q.y y2
  let zz := mul q.z z2
  let xy := mul q.x y2
  let xz := mul q.x z2
  let yz := mul q.y z2
  let wx := mul q.w x2
  let wy := mul q.w y2
  let wz := mul q.w z2
  ⟨add (add (mul (sub oneV (add yy zz)) p.x) (mul (sub xy wz) p.y)) (mul (add xz wy) p.z),
   add (add (mul (add xy wz) p.x) (mul (sub oneV (add xx zz)) p.y)) (mul (sub yz wx) p.z),
   add (add (mul (sub xz wy) p.x) (mul (add yz wx) p.y)) (mul (sub oneV (add xx yy)) p.z)⟩

/-- R294. -/
def qdot (a b : Quat) : Word :=
  add (add (add (mul a.x b.x) (mul a.y b.y)) (mul a.z b.z)) (mul a.w b.w)

/-- Each component divided by `d`, in the order x, y, z, w. -/
def div4 (a : Quat) (d : Word) : Except Cause Quat := do
  let x ← div a.x d
  let y ← div a.y d
  let z ← div a.z d
  let w ← div a.w d
  return ⟨x, y, z, w⟩

/-- R293. -/
def qnorm (q : Quat) : Except Cause Quat := do
  let m ← sqrt (qdot q q)
  if m.toInt ≤ 0 then return qidentity else div4 q m

/-- R295 (D37): the conjugate. -/
def qinv (q : Quat) : Quat := ⟨neg q.x, neg q.y, neg q.z, q.w⟩

/-- R296 (D30): the dot product is exactly ONE. -/
def qeq (a b : Quat) : Word := truth (qdot a b = oneV)

end Fx

/-- QMUL (R291). -/
def execQmul (rd rs1 rs2 : Reg) (s : State) : Host.Outcome State Fault Refusal :=
  completeQ (.qmul rd rs1 rs2) rd (.ok (Fx.qmul (s.quat rs1) (s.quat rs2))) s

/-- QROT (R292): quaternion rs1, vector rs2, vector rd. -/
def execQrot (rd rs1 rs2 : Reg) (s : State) : Host.Outcome State Fault Refusal :=
  completeV (.qrot rd rs1 rs2) rd (.ok (Fx.qrot (s.quat rs1) (s.vec rs2))) s

/-- QNORM (R293). -/
def execQnorm (rd rs1 : Reg) (s : State) : Host.Outcome State Fault Refusal :=
  completeQ (.qnorm rd rs1) rd (Fx.qnorm (s.quat rs1)) s

/-- QDOT (R294). -/
def execQdot (rd rs1 rs2 : Reg) (s : State) : Host.Outcome State Fault Refusal :=
  completeS (.qdot rd rs1 rs2) rd (.ok (Fx.qdot (s.quat rs1) (s.quat rs2))) s

/-- QINV (R295). -/
def execQinv (rd rs1 : Reg) (s : State) : Host.Outcome State Fault Refusal :=
  completeQ (.qinv rd rs1) rd (.ok (Fx.qinv (s.quat rs1))) s

/-- QEQ (R296). -/
def execQeq (rd rs1 rs2 : Reg) (s : State) : Host.Outcome State Fault Refusal :=
  completeS (.qeq rd rs1 rs2) rd (.ok (Fx.qeq (s.quat rs1) (s.quat rs2))) s

/-- QID (R297). -/
def execQid (rd : Reg) (s : State) : Host.Outcome State Fault Refusal :=
  completeQ (.qid rd) rd (.ok Fx.qidentity) s

end Sys2Proof.Machine
end

