-- ==== Sys2Proof/Machine/Dispatch.lean ====
section
/-!
DEFINITION. One arm per command: the meaning of each row of the opcode map (spec/30_encoding.md R85).
-/

namespace Sys2Proof.Machine

def exec (i : Instr) (s : State) : Host.Outcome State Fault Refusal :=
  match i with
  | .add rd rs1 rs2 => Sys2Proof.Machine.execAdd rd rs1 rs2 s
  | .sub rd rs1 rs2 => Sys2Proof.Machine.execSub rd rs1 rs2 s
  | .mul rd rs1 rs2 => Sys2Proof.Machine.execMul rd rs1 rs2 s
  | .div rd rs1 rs2 => Sys2Proof.Machine.execDiv rd rs1 rs2 s
  | .mod rd rs1 rs2 => Sys2Proof.Machine.execMod rd rs1 rs2 s
  | .neg rd rs1 => Sys2Proof.Machine.execNeg rd rs1 s
  | .fastadd rd rs1 rs2 => Sys2Proof.Machine.execFastadd rd rs1 rs2 s
  | .fastsub rd rs1 rs2 => Sys2Proof.Machine.execFastsub rd rs1 rs2 s
  | .fastmul rd rs1 rs2 => Sys2Proof.Machine.execFastmul rd rs1 rs2 s
  | .fastmod rd rs1 rs2 => Sys2Proof.Machine.execFastmod rd rs1 rs2 s
  | .abs rd rs1 => Sys2Proof.Machine.execAbs rd rs1 s
  | .sign rd rs1 => Sys2Proof.Machine.execSign rd rs1 s
  | .floor rd rs1 => Sys2Proof.Machine.execFloor rd rs1 s
  | .ceil rd rs1 => Sys2Proof.Machine.execCeil rd rs1 s
  | .round rd rs1 => Sys2Proof.Machine.execRound rd rs1 s
  | .trunc rd rs1 => Sys2Proof.Machine.execTrunc rd rs1 s
  | .sqrt rd rs1 => Sys2Proof.Machine.execSqrt rd rs1 s
  | .log2 rd rs1 => Sys2Proof.Machine.execLog2 rd rs1 s
  | .ln rd rs1 => Sys2Proof.Machine.execLn rd rs1 s
  | .pow2 rd rs1 => Sys2Proof.Machine.execPow2 rd rs1 s
  | .pow rd rs1 rs2 => Sys2Proof.Machine.execPow rd rs1 rs2 s
  | .min rd rs1 rs2 => Sys2Proof.Machine.execMin rd rs1 rs2 s
  | .max rd rs1 rs2 => Sys2Proof.Machine.execMax rd rs1 rs2 s
  | .clamp rd rs1 rs2 rs3 => Sys2Proof.Machine.execClamp rd rs1 rs2 rs3 s
  | .clamp01 rd rs1 => Sys2Proof.Machine.execClamp01 rd rs1 s
  | .cmpeq rd rs1 rs2 => Sys2Proof.Machine.execCmpeq rd rs1 rs2 s
  | .cmplt rd rs1 rs2 => Sys2Proof.Machine.execCmplt rd rs1 rs2 s
  | .cmple rd rs1 rs2 => Sys2Proof.Machine.execCmple rd rs1 rs2 s
  | .mov rd rs1 => Sys2Proof.Machine.execMov rd rs1 s
  | .li rd imm => Sys2Proof.Machine.execLi rd imm s
  | .ldc rd k => Sys2Proof.Machine.execLdc rd k s
  | .fromint rd rs1 => Sys2Proof.Machine.execFromint rd rs1 s
  | .toint rd rs1 => Sys2Proof.Machine.execToint rd rs1 s
  | .fromf64 rd rs1 => Sys2Proof.Machine.execFromf64 rd rs1 s
  | .tof64 rd rs1 => Sys2Proof.Machine.execTof64 rd rs1 s
  | .fromf32 rd rs1 => Sys2Proof.Machine.execFromf32 rd rs1 s
  | .tof32 rd rs1 => Sys2Proof.Machine.execTof32 rd rs1 s
  | .vadd rd rs1 rs2 => Sys2Proof.Machine.execVadd rd rs1 rs2 s
  | .vsub rd rs1 rs2 => Sys2Proof.Machine.execVsub rd rs1 rs2 s
  | .vneg rd rs1 => Sys2Proof.Machine.execVneg rd rs1 s
  | .vscale rd rs1 rs2 => Sys2Proof.Machine.execVscale rd rs1 rs2 s
  | .vdivs rd rs1 rs2 => Sys2Proof.Machine.execVdivs rd rs1 rs2 s
  | .vdot rd rs1 rs2 => Sys2Proof.Machine.execVdot rd rs1 rs2 s
  | .vsqrmag rd rs1 => Sys2Proof.Machine.execVsqrmag rd rs1 s
  | .vmag rd rs1 => Sys2Proof.Machine.execVmag rd rs1 s
  | .vnorm rd rs1 => Sys2Proof.Machine.execVnorm rd rs1 s
  | .vcross rd rs1 rs2 => Sys2Proof.Machine.execVcross rd rs1 rs2 s
  | .vproj rd rs1 rs2 => Sys2Proof.Machine.execVproj rd rs1 rs2 s
  | .vprojp rd rs1 rs2 => Sys2Proof.Machine.execVprojp rd rs1 rs2 s
  | .vdist rd rs1 rs2 => Sys2Proof.Machine.execVdist rd rs1 rs2 s
  | .vlerp rd rs1 rs2 rs3 => Sys2Proof.Machine.execVlerp rd rs1 rs2 rs3 s
  | .vlerpu rd rs1 rs2 rs3 => Sys2Proof.Machine.execVlerpu rd rs1 rs2 rs3 s
  | .vmin rd rs1 rs2 => Sys2Proof.Machine.execVmin rd rs1 rs2 s
  | .vmax rd rs1 rs2 => Sys2Proof.Machine.execVmax rd rs1 rs2 s
  | .veq rd rs1 rs2 => Sys2Proof.Machine.execVeq rd rs1 rs2 s
  | .vldc rd k => Sys2Proof.Machine.execVldc rd k s
  | .qmul rd rs1 rs2 => Sys2Proof.Machine.execQmul rd rs1 rs2 s
  | .qrot rd rs1 rs2 => Sys2Proof.Machine.execQrot rd rs1 rs2 s
  | .qnorm rd rs1 => Sys2Proof.Machine.execQnorm rd rs1 s
  | .qdot rd rs1 rs2 => Sys2Proof.Machine.execQdot rd rs1 rs2 s
  | .qinv rd rs1 => Sys2Proof.Machine.execQinv rd rs1 s
  | .qeq rd rs1 rs2 => Sys2Proof.Machine.execQeq rd rs1 rs2 s
  | .qid rd => Sys2Proof.Machine.execQid rd s

end Sys2Proof.Machine
end

