-- ==== Sys2Proof/Machine/Port.lean ====
section
/-!
DEFINITION. The host port (spec/20_memory.md R60 to R74), the reset input (spec/70_reset_and_hazards.md R361), and the byte order of
the persisted form (R63).
-/

namespace Sys2Proof.Machine

/-- The offset of FSR (R61). -/
def fsrOffset : Nat := 0x100

/-- The offset of FCMD (R61). -/
def fcmdOffset : Nat := 0x108

/-- The offset of FXID (R61). -/
def fxidOffset : Nat := 0x110

/-- The offset of CMD (R61). -/
def cmdOffset : Nat := 0x118

/-- The bytes of the window (R60). -/
def windowBytes : Nat := 0x120

/-- The platform's address of an offset (R67): the base is the OPEN parameter `FXU_BASE`. No step depends on it (log 12). -/
def busAddress (offset : Nat) : Nat := Config.fxuBase + offset

/-- Why a host access of this width at this offset is no transaction (R62), if it is none. Which reason is named when several hold is
a DESIGN CHOICE (log 15). -/
def accessRefusal (width offset : Nat) : Option Refusal :=
  if width ≠ 64 then some .unsupportedWidth
  else if offset % 8 ≠ 0 then some .misalignedOffset
  else if windowBytes ≤ offset then some .outsideWindow
  else none

/-- What a read of a legal offset returns (R61). -/
def State.hostRead (s : State) (offset : Nat) : Word :=
  if offset < fsrOffset then s.reg (Fin.ofNat 32 (offset / 8))
  else if offset = fsrOffset then s.fsr
  else if offset = fcmdOffset then s.fcmd
  else if offset = fxidOffset then fxid
  else 0#64

/-- A CMD write of the command word `w` (R65): discarded while Halted (R324); otherwise decoded (R87) and executed, or, if it is
illegal, an IllegalCommand fault with that word (R86). -/
def issueCommand (w : CmdWord) (s : State) : Host.Outcome State Fault Refusal :=
  if s.halt then .next s.discard
  else
    match decode w with
    | none => .next (s.faultEntry .illegalCommand w)
    | some i => exec i s

/-- What a write of `v` at a legal offset does (R61, R65). The bits 63:32 of a CMD write are ignored. -/
def hostWrite (offset : Nat) (v : Word) (s : State) : Host.Outcome State Fault Refusal :=
  if offset < fsrOffset then .next (s.setReg (Fin.ofNat 32 (offset / 8)) v)
  else if offset = fsrOffset then .next (s.writeFsr v)
  else if offset = cmdOffset then issueCommand (v.setWidth 32) s
  else .next s

/-- A host access is accepted only outside reset (R361), 64 bits wide, aligned and inside the window (R62); otherwise it is refused. -/
def serveAccess (width offset : Nat) (s : State) (accepted : Host.Outcome State Fault Refusal) : Host.Outcome State Fault Refusal :=
  if s.inReset then .refused .accessDuringReset
  else
    match accessRefusal width offset with
    | some r => .refused r
    | none => accepted

/-- One event of the outside world, wholly before or after any command (R66). `s` is the state with that event taken off `host`. -/
def serve (e : HostEvent) (s : State) : Host.Outcome State Fault Refusal :=
  match e with
  | .read width offset => serveAccess width offset s (.next { s with busOut := some (s.hostRead offset) })
  | .write width offset v => serveAccess width offset s (hostWrite offset v { s with busOut := none })
  | .resetAssert => .next (s.resetTo true)
  | .resetRelease => .next { s with inReset := false }

/-- Byte `k` of a 64-bit port register as the host views it (R63): little-endian. -/
def byteOf (v : Word) (k : Nat) : Byte := v.extractLsb' (8 * k) 8

/-- The byte the host views at byte offset `a` of the window (R60, R63), `none` outside it. -/
def State.portByte (s : State) (a : Nat) : Option Byte :=
  if a < windowBytes then some (byteOf (s.hostRead (a / 8 * 8)) (a % 8)) else none

/-- The persisted form of a raw value: 8 bytes, little-endian (R63, D7). -/
def persist (v : Word) : List Byte := (List.range 8).map (byteOf v)

/-- The raw value of a persisted form (R63, R74). -/
def unpersist : List Byte → Word
  | [] => 0#64
  | b :: bs => b.setWidth 64 ||| (unpersist bs <<< 8)

end Sys2Proof.Machine
end

