-- ==== Sys2Proof/Machine/Step.lean ====
section
/-!
DEFINITION. One step: the FXU serves the oldest event of the outside world (spec/20_memory.md R66, R69). It has no program counter and
fetches nothing (spec/10_state.md R36): the next command is the host's next CMD write.
-/

namespace Sys2Proof.Machine

/-- Serve the oldest event; with none, do nothing and keep all state (R335, log 3). -/
def step (s : State) : Host.Outcome State Fault Refusal :=
  match s.host with
  | [] => .next s
  | e :: es => serve e { s with host := es }

/-- `s` with a CMD write of the command word `w` (bits from `nbits` up are 0) as the host's next access, the reset input released
and, if the FXU was Halted, resumed (R325), so that the next step runs that command (log 16). -/
def State.withFetchWord (s : State) (nbits w : Nat) : State :=
  let s1 := if s.halt then s.resume else s
  { s1 with inReset := false, host := .write 64 cmdOffset (BitVec.ofNat 64 (w % 2 ^ nbits)) :: s.host }

end Sys2Proof.Machine
end

