-- ==== Sys2Proof/Machine/Assembly.lean ====
section
/-!
DEFINITION. The assembler syntax (spec/30_encoding.md R88) and its pseudo-instructions (R89), on lists of characters. What R88 leaves
open (blanks, numbers, leading zeros of register names, the case of constant names, values out of range) is a DESIGN CHOICE (log 18).
-/

namespace Sys2Proof

/-- The mnemonic of the opcode map (R85). -/
def Instr.mnemonic : Instr → String
  | .add _ _ _ => "ADD"
  | .sub _ _ _ => "SUB"
  | .mul _ _ _ => "MUL"
  | .div _ _ _ => "DIV"
  | .mod _ _ _ => "MOD"
  | .neg _ _ => "NEG"
  | .fastadd _ _ _ => "FASTADD"
  | .fastsub _ _ _ => "FASTSUB"
  | .fastmul _ _ _ => "FASTMUL"
  | .fastmod _ _ _ => "FASTMOD"
  | .abs _ _ => "ABS"
  | .sign _ _ => "SIGN"
  | .floor _ _ => "FLOOR"
  | .ceil _ _ => "CEIL"
  | .round _ _ => "ROUND"
  | .trunc _ _ => "TRUNC"
  | .sqrt _ _ => "SQRT"
  | .log2 _ _ => "LOG2"
  | .ln _ _ => "LN"
  | .pow2 _ _ => "POW2"
  | .pow _ _ _ => "POW"
  | .min _ _ _ => "MIN"
  | .max _ _ _ => "MAX"
  | .clamp _ _ _ _ => "CLAMP"
  | .clamp01 _ _ => "CLAMP01"
  | .cmpeq _ _ _ => "CMPEQ"
  | .cmplt _ _ _ => "CMPLT"
  | .cmple _ _ _ => "CMPLE"
  | .mov _ _ => "MOV"
  | .li _ _ => "LI"
  | .ldc _ _ => "LDC"
  | .fromint _ _ => "FROMINT"
  | .toint _ _ => "TOINT"
  | .fromf64 _ _ => "FROMF64"
  | .tof64 _ _ => "TOF64"
  | .fromf32 _ _ => "FROMF32"
  | .tof32 _ _ => "TOF32"
  | .vadd _ _ _ => "VADD"
  | .vsub _ _ _ => "VSUB"
  | .vneg _ _ => "VNEG"
  | .vscale _ _ _ => "VSCALE"
  | .vdivs _ _ _ => "VDIVS"
  | .vdot _ _ _ => "VDOT"
  | .vsqrmag _ _ => "VSQRMAG"
  | .vmag _ _ => "VMAG"
  | .vnorm _ _ => "VNORM"
  | .vcross _ _ _ => "VCROSS"
  | .vproj _ _ _ => "VPROJ"
  | .vprojp _ _ _ => "VPROJP"
  | .vdist _ _ _ => "VDIST"
  | .vlerp _ _ _ _ => "VLERP"
  | .vlerpu _ _ _ _ => "VLERPU"
  | .vmin _ _ _ => "VMIN"
  | .vmax _ _ _ => "VMAX"
  | .veq _ _ _ => "VEQ"
  | .vldc _ _ => "VLDC"
  | .qmul _ _ _ => "QMUL"
  | .qrot _ _ _ => "QROT"
  | .qnorm _ _ => "QNORM"
  | .qdot _ _ _ => "QDOT"
  | .qinv _ _ => "QINV"
  | .qeq _ _ _ => "QEQ"
  | .qid _ => "QID"

namespace Asm

/-- The pseudo-instruction `NOP` (R89). -/
def nop : Instr := .mov 0 0

/-- The pseudo-instruction `CLR fd` (R89). -/
def clr (fd : Reg) : Instr := .ldc fd 0#20

/-- The pseudo-instruction `SQR fd, fs` (R89). -/
def sqr (fd fs : Reg) : Instr := .mul fd fs fs

/-- The pseudo-instruction `LDONE fd` (R89). -/
def ldone (fd : Reg) : Instr := .ldc fd 1#20

/-- An operand as written (R88): a register, an integer, or a name. -/
inductive Operand where
  | reg (r : Reg)
  | int (v : Int)
  | name (n : List Char)
  deriving DecidableEq, Repr

/-- The value of a digit in bases up to 16. -/
def digit (c : Char) : Option Nat :=
  if '0' ≤ c ∧ c ≤ '9' then some (c.toNat - 48) else if 'a' ≤ c ∧ c ≤ 'f' then some (c.toNat - 87) else none

/-- A non-empty run of digits in a base, continuing from `acc`. -/
def digits (base : Nat) : Nat → List Char → Option Nat
  | _, [] => none
  | acc, [c] => (digit c).bind fun d => if d < base then some (acc * base + d) else none
  | acc, c :: cs => (digit c).bind fun d => if d < base then digits base (acc * base + d) cs else none

/-- A decimal or `0x` hexadecimal number. -/
def number : List Char → Option Nat
  | '0' :: 'x' :: cs => digits 16 0 cs
  | cs => digits 10 0 cs

/-- One operand: a register `f0` to `f31`, an integer, else a name. R88 does not speak of leading zeros: `f07` is taken as `f7`, as a
number's leading zeros are. DESIGN CHOICE (log 18). -/
def operand (cs : List Char) : Operand :=
  match cs with
  | 'f' :: ds =>
    match digits 10 0 ds with
    | some n => if n < 32 then .reg (Fin.ofNat 32 n) else .name cs
    | none => .name cs
  | '-' :: ds =>
    match number ds with
    | some n => .int (-(n : Int))
    | none => .name cs
  | _ =>
    match number cs with
    | some n => .int n
    | none => .name cs

/-- Case folding: mnemonics and register names are case-insensitive (R88). The constant names and the digits of a number are folded too,
of which R88 does not speak: DESIGN CHOICE (log 18). -/
def lower (c : Char) : Char := if 'A' ≤ c ∧ c ≤ 'Z' then Char.ofNat (c.toNat + 32) else c

/-- A blank. -/
def blank (c : Char) : Bool := c == ' ' || c == '\t'

/-- Without the comment, which starts with `;` (R88). -/
def uncomment (cs : List Char) : List Char := cs.takeWhile (· != ';')

/-- Without the blanks at both ends. -/
def trim (cs : List Char) : List Char := ((cs.dropWhile blank).reverse.dropWhile blank).reverse

/-- Cut at every comma. -/
def commas : List Char → List (List Char)
  | [] => [[]]
  | c :: cs =>
    if c = ',' then [] :: commas cs
    else
      match commas cs with
      | [] => [[c]]
      | w :: ws => (c :: w) :: ws

/-- The first word and the operands of a line. All of it is folded to lower case, constant names (R212, R258) included: R88 calls only
mnemonics and register names case-insensitive, so that is a DESIGN CHOICE (log 18). -/
def parts (line : List Char) : List Char × List Operand :=
  let cs := trim ((uncomment line).map lower)
  let rest := trim (cs.dropWhile fun c => !blank c)
  (cs.takeWhile fun c => !blank c, if rest = [] then [] else (commas rest).map fun w => operand (trim w))

/-- The index of a name in a constant table, or of an integer (R88, R212, R258). An integer that 20 bits do not hold makes the line no
command: DESIGN CHOICE (log 18). -/
def index (names : List (List Char)) : Operand → Option (BitVec 20)
  | .name n => if n ∈ names then some (BitVec.ofNat 20 (names.idxOf n)) else none
  | .int v => if 0 ≤ v ∧ v < 2 ^ 20 then some (BitVec.ofInt 20 v) else none
  | .reg _ => none

/-- The names of SCONST (R212), lower case. -/
def scalarNames : List (List Char) :=
  [['z', 'e', 'r', 'o'], ['o', 'n', 'e'], ['m', 'a', 'x', 'v'], ['m', 'i', 'n', 'v'], ['l', 'n', '2'],
   ['l', 'o', 'g', '2', 'm', 'a', 'x'], ['l', 'o', 'g', '2', 'm', 'i', 'n']]

/-- The names of VCONST (R258), lower case. -/
def vectorNames : List (List Char) :=
  [['z', 'e', 'r', 'o'], ['o', 'n', 'e'], ['u', 'p'], ['d', 'o', 'w', 'n'], ['l', 'e', 'f', 't'], ['r', 'i', 'g', 'h', 't'],
   ['f', 'o', 'r', 'w', 'a', 'r', 'd'], ['b', 'a', 'c', 'k']]

/-- The immediate of LI (R84): a signed integer of 20 bits. R88 does not say what an assembler does with an integer outside
[-524288, 524287], such as the field pattern 0xFFFF9: here the line is no command and nothing is masked. DESIGN CHOICE (log 18). -/
def liImm : Operand → Option (BitVec 20)
  | .int v => if -524288 ≤ v ∧ v ≤ 524287 then some (BitVec.ofInt 20 v) else none
  | _ => none

/-- The instruction of a lower-case mnemonic and its operands: the rows of R85 and the single-command rows of R89. A group or a
constant index out of range is assembled all the same, into the illegal word it names. -/
def instrOf (m : String) (ops : List Operand) : Option Instr :=
  match m, ops with
  | "add", [.reg rd, .reg rs1, .reg rs2] => some (.add rd rs1 rs2)
  | "sub", [.reg rd, .reg rs1, .reg rs2] => some (.sub rd rs1 rs2)
  | "mul", [.reg rd, .reg rs1, .reg rs2] => some (.mul rd rs1 rs2)
  | "div", [.reg rd, .reg rs1, .reg rs2] => some (.div rd rs1 rs2)
  | "mod", [.reg rd, .reg rs1, .reg rs2] => some (.mod rd rs1 rs2)
  | "neg", [.reg rd, .reg rs1] => some (.neg rd rs1)
  | "fastadd", [.reg rd, .reg rs1, .reg rs2] => some (.fastadd rd rs1 rs2)
  | "fastsub", [.reg rd, .reg rs1, .reg rs2] => some (.fastsub rd rs1 rs2)
  | "fastmul", [.reg rd, .reg rs1, .reg rs2] => some (.fastmul rd rs1 rs2)
  | "fastmod", [.reg rd, .reg rs1, .reg rs2] => some (.fastmod rd rs1 rs2)
  | "abs", [.reg rd, .reg rs1] => some (.abs rd rs1)
  | "sign", [.reg rd, .reg rs1] => some (.sign rd rs1)
  | "floor", [.reg rd, .reg rs1] => some (.floor rd rs1)
  | "ceil", [.reg rd, .reg rs1] => some (.ceil rd rs1)
  | "round", [.reg rd, .reg rs1] => some (.round rd rs1)
  | "trunc", [.reg rd, .reg rs1] => some (.trunc rd rs1)
  | "sqrt", [.reg rd, .reg rs1] => some (.sqrt rd rs1)
  | "log2", [.reg rd, .reg rs1] => some (.log2 rd rs1)
  | "ln", [.reg rd, .reg rs1] => some (.ln rd rs1)
  | "pow2", [.reg rd, .reg rs1] => some (.pow2 rd rs1)
  | "pow", [.reg rd, .reg rs1, .reg rs2] => some (.pow rd rs1 rs2)
  | "min", [.reg rd, .reg rs1, .reg rs2] => some (.min rd rs1 rs2)
  | "max", [.reg rd, .reg rs1, .reg rs2] => some (.max rd rs1 rs2)
  | "clamp", [.reg rd, .reg rs1, .reg rs2, .reg rs3] => some (.clamp rd rs1 rs2 rs3)
  | "clamp01", [.reg rd, .reg rs1] => some (.clamp01 rd rs1)
  | "cmpeq", [.reg rd, .reg rs1, .reg rs2] => some (.cmpeq rd rs1 rs2)
  | "cmplt", [.reg rd, .reg rs1, .reg rs2] => some (.cmplt rd rs1 rs2)
  | "cmple", [.reg rd, .reg rs1, .reg rs2] => some (.cmple rd rs1 rs2)
  | "mov", [.reg rd, .reg rs1] => some (.mov rd rs1)
  | "li", [.reg rd, k] => (liImm k).map (.li rd)
  | "ldc", [.reg rd, k] => (index scalarNames k).map (.ldc rd)
  | "fromint", [.reg rd, .reg rs1] => some (.fromint rd rs1)
  | "toint", [.reg rd, .reg rs1] => some (.toint rd rs1)
  | "fromf64", [.reg rd, .reg rs1] => some (.fromf64 rd rs1)
  | "tof64", [.reg rd, .reg rs1] => some (.tof64 rd rs1)
  | "fromf32", [.reg rd, .reg rs1] => some (.fromf32 rd rs1)
  | "tof32", [.reg rd, .reg rs1] => some (.tof32 rd rs1)
  | "vadd", [.reg rd, .reg rs1, .reg rs2] => some (.vadd rd rs1 rs2)
  | "vsub", [.reg rd, .reg rs1, .reg rs2] => some (.vsub rd rs1 rs2)
  | "vneg", [.reg rd, .reg rs1] => some (.vneg rd rs1)
  | "vscale", [.reg rd, .reg rs1, .reg rs2] => some (.vscale rd rs1 rs2)
  | "vdivs", [.reg rd, .reg rs1, .reg rs2] => some (.vdivs rd rs1 rs2)
  | "vdot", [.reg rd, .reg rs1, .reg rs2] => some (.vdot rd rs1 rs2)
  | "vsqrmag", [.reg rd, .reg rs1] => some (.vsqrmag rd rs1)
  | "vmag", [.reg rd, .reg rs1] => some (.vmag rd rs1)
  | "vnorm", [.reg rd, .reg rs1] => some (.vnorm rd rs1)
  | "vcross", [.reg rd, .reg rs1, .reg rs2] => some (.vcross rd rs1 rs2)
  | "vproj", [.reg rd, .reg rs1, .reg rs2] => some (.vproj rd rs1 rs2)
  | "vprojp", [.reg rd, .reg rs1, .reg rs2] => some (.vprojp rd rs1 rs2)
  | "vdist", [.reg rd, .reg rs1, .reg rs2] => some (.vdist rd rs1 rs2)
  | "vlerp", [.reg rd, .reg rs1, .reg rs2, .reg rs3] => some (.vlerp rd rs1 rs2 rs3)
  | "vlerpu", [.reg rd, .reg rs1, .reg rs2, .reg rs3] => some (.vlerpu rd rs1 rs2 rs3)
  | "vmin", [.reg rd, .reg rs1, .reg rs2] => some (.vmin rd rs1 rs2)
  | "vmax", [.reg rd, .reg rs1, .reg rs2] => some (.vmax rd rs1 rs2)
  | "veq", [.reg rd, .reg rs1, .reg rs2] => some (.veq rd rs1 rs2)
  | "vldc", [.reg rd, k] => (index vectorNames k).map (.vldc rd)
  | "qmul", [.reg rd, .reg rs1, .reg rs2] => some (.qmul rd rs1 rs2)
  | "qrot", [.reg rd, .reg rs1, .reg rs2] => some (.qrot rd rs1 rs2)
  | "qnorm", [.reg rd, .reg rs1] => some (.qnorm rd rs1)
  | "qdot", [.reg rd, .reg rs1, .reg rs2] => some (.qdot rd rs1 rs2)
  | "qinv", [.reg rd, .reg rs1] => some (.qinv rd rs1)
  | "qeq", [.reg rd, .reg rs1, .reg rs2] => some (.qeq rd rs1 rs2)
  | "qid", [.reg rd] => some (.qid rd)
  | "nop", [] => some nop
  | "clr", [.reg fd] => some (clr fd)
  | "sqr", [.reg fd, .reg fs] => some (sqr fd fs)
  | "ldone", [.reg fd] => some (ldone fd)
  | _, _ => none

/-- Assemble one line `MNEMONIC dst, src1, src2, src3 ; comment` (R88). -/
def assemble (line : List Char) : Option Instr :=
  let p := parts line
  instrOf (String.ofList p.1) p.2

end Asm

end Sys2Proof
end

