-- ==== Sys2Proof/Safety.lean ====
section
/-!
DEFINITION. What claims call a consistent state, a precise fault and a command's destination (spec/10_state.md R33, R35, R37, R39;
spec/30_encoding.md R83, R85; spec/60_exceptions.md R322, R323).
-/

namespace Sys2Proof.Machine

/-- FSR and FCMD agree, as R37 and R39 say: CAUSE and FCMD are 0 while HALT is 0, a cause is recorded while HALT is 1, and FCMD holds a
32-bit command word. -/
abbrev State.StatusConsistent (s : State) : Prop :=
  (s.halt = false → s.cause = none ∧ s.fcmd = 0#64) ∧
  (s.halt = true → s.cause ≠ none) ∧
  s.fcmd.toNat < 2 ^ 32

/-- All state but HALT, CAUSE and FCMD agrees: what a precise fault leaves alone (R322, R323). -/
abbrev State.SameButStatus (s t : State) : Prop :=
  t.f = s.f ∧ t.lost = s.lost ∧ t.inReset = s.inReset ∧ t.host = s.host ∧ t.busOut = s.busOut

/-- The `rd` field of a command (R81, R82): its destination register, or its destination group's base. -/
def destBase : Instr → Reg
  | .add rd _ _ => rd
  | .sub rd _ _ => rd
  | .mul rd _ _ => rd
  | .div rd _ _ => rd
  | .mod rd _ _ => rd
  | .neg rd _ => rd
  | .fastadd rd _ _ => rd
  | .fastsub rd _ _ => rd
  | .fastmul rd _ _ => rd
  | .fastmod rd _ _ => rd
  | .abs rd _ => rd
  | .sign rd _ => rd
  | .floor rd _ => rd
  | .ceil rd _ => rd
  | .round rd _ => rd
  | .trunc rd _ => rd
  | .sqrt rd _ => rd
  | .log2 rd _ => rd
  | .ln rd _ => rd
  | .pow2 rd _ => rd
  | .pow rd _ _ => rd
  | .min rd _ _ => rd
  | .max rd _ _ => rd
  | .clamp rd _ _ _ => rd
  | .clamp01 rd _ => rd
  | .cmpeq rd _ _ => rd
  | .cmplt rd _ _ => rd
  | .cmple rd _ _ => rd
  | .mov rd _ => rd
  | .li rd _ => rd
  | .ldc rd _ => rd
  | .fromint rd _ => rd
  | .toint rd _ => rd
  | .fromf64 rd _ => rd
  | .tof64 rd _ => rd
  | .fromf32 rd _ => rd
  | .tof32 rd _ => rd
  | .vadd rd _ _ => rd
  | .vsub rd _ _ => rd
  | .vneg rd _ => rd
  | .vscale rd _ _ => rd
  | .vdivs rd _ _ => rd
  | .vdot rd _ _ => rd
  | .vsqrmag rd _ => rd
  | .vmag rd _ => rd
  | .vnorm rd _ => rd
  | .vcross rd _ _ => rd
  | .vproj rd _ _ => rd
  | .vprojp rd _ _ => rd
  | .vdist rd _ _ => rd
  | .vlerp rd _ _ _ => rd
  | .vlerpu rd _ _ _ => rd
  | .vmin rd _ _ => rd
  | .vmax rd _ _ => rd
  | .veq rd _ _ => rd
  | .vldc rd _ => rd
  | .qmul rd _ _ => rd
  | .qrot rd _ _ => rd
  | .qnorm rd _ => rd
  | .qdot rd _ _ => rd
  | .qinv rd _ => rd
  | .qeq rd _ _ => rd
  | .qid rd => rd

/-- How many registers a command writes: 1, 3 or 4 by the kind of its destination (R83, R85). -/
def destCount : Instr → Nat
  | .add _ _ _ => 1
  | .sub _ _ _ => 1
  | .mul _ _ _ => 1
  | .div _ _ _ => 1
  | .mod _ _ _ => 1
  | .neg _ _ => 1
  | .fastadd _ _ _ => 1
  | .fastsub _ _ _ => 1
  | .fastmul _ _ _ => 1
  | .fastmod _ _ _ => 1
  | .abs _ _ => 1
  | .sign _ _ => 1
  | .floor _ _ => 1
  | .ceil _ _ => 1
  | .round _ _ => 1
  | .trunc _ _ => 1
  | .sqrt _ _ => 1
  | .log2 _ _ => 1
  | .ln _ _ => 1
  | .pow2 _ _ => 1
  | .pow _ _ _ => 1
  | .min _ _ _ => 1
  | .max _ _ _ => 1
  | .clamp _ _ _ _ => 1
  | .clamp01 _ _ => 1
  | .cmpeq _ _ _ => 1
  | .cmplt _ _ _ => 1
  | .cmple _ _ _ => 1
  | .mov _ _ => 1
  | .li _ _ => 1
  | .ldc _ _ => 1
  | .fromint _ _ => 1
  | .toint _ _ => 1
  | .fromf64 _ _ => 1
  | .tof64 _ _ => 1
  | .fromf32 _ _ => 1
  | .tof32 _ _ => 1
  | .vadd _ _ _ => 3
  | .vsub _ _ _ => 3
  | .vneg _ _ => 3
  | .vscale _ _ _ => 3
  | .vdivs _ _ _ => 3
  | .vdot _ _ _ => 1
  | .vsqrmag _ _ => 1
  | .vmag _ _ => 1
  | .vnorm _ _ => 3
  | .vcross _ _ _ => 3
  | .vproj _ _ _ => 3
  | .vprojp _ _ _ => 3
  | .vdist _ _ _ => 1
  | .vlerp _ _ _ _ => 3
  | .vlerpu _ _ _ _ => 3
  | .vmin _ _ _ => 3
  | .vmax _ _ _ => 3
  | .veq _ _ _ => 1
  | .vldc _ _ => 3
  | .qmul _ _ _ => 4
  | .qrot _ _ _ => 3
  | .qnorm _ _ => 4
  | .qdot _ _ _ => 1
  | .qinv _ _ => 4
  | .qeq _ _ _ => 1
  | .qid _ => 4

/-- A register is a destination of the command. -/
abbrev IsDest (i : Instr) (q : Reg) : Prop := (destBase i).val ≤ q.val ∧ q.val < (destBase i).val + destCount i

end Sys2Proof.Machine
end

