-- ==== Sys2Proof/Certificates/Slice0/Obligations.lean ====
section
/-!
DEFINITION. The statements for the provers. Helpers first (namespace Sys2Proof.Claims): the spec's closed forms and tables, written
apart from the definitions the model computes with. Then one definition per statement.
-/

namespace Sys2Proof.Claims

open Sys2Proof.Machine

/-- An integer clamped to [MINV, MAXV], as a raw value (R100). -/
def clampRaw (v : Int) : Word := if v < -2 ^ 63 then minV else if 2 ^ 63 - 1 < v then maxV else BitVec.ofInt 64 v

/-- The closed form of DIV for a non-zero divisor (R106). -/
def divClosed (x y : Word) : Word :=
  let q := x.toInt.natAbs * 2 ^ 33 / y.toInt.natAbs
  if 2 ^ 64 ≤ q then (if x.msb = y.msb then maxV else minV)
  else BitVec.ofInt 64 (if x.msb = y.msb then (((q + 1) / 2 : Nat) : Int) else -(((q + 1) / 2 : Nat) : Int))

/-- The product truncated toward minus infinity is in [MINV, MAXV] (R104 items 2 to 4). -/
abbrev FloorInRange (x y : Word) : Prop := -2 ^ 63 ≤ x.toInt * y.toInt / 2 ^ 32 ∧ x.toInt * y.toInt / 2 ^ 32 < 2 ^ 63

/-- The `top` of R103, `hihi >> 32`, is 0 or -1. -/
abbrev TopIsClear (x y : Word) : Prop :=
  x.toInt / 2 ^ 32 * (y.toInt / 2 ^ 32) / 2 ^ 32 = 0 ∨ x.toInt / 2 ^ 32 * (y.toInt / 2 ^ 32) / 2 ^ 32 = -1

/-- The bound of the product's sign (R104 item 3). -/
def signBound (x y : Word) : Word := if x.msb = y.msb then maxV else minV

/-- `v` is the root of `n` rounded to the nearest: one above the integer root `r` exactly when `n - r^2 > r`. -/
def IsRoundedRoot (n v : Nat) : Prop :=
  ∃ r : Nat, r * r ≤ n ∧ n < (r + 1) * (r + 1) ∧ v = if n - r * r > r then r + 1 else r

/-- The closed form R161 gives SQRT of a non-negative operand: the rounded root of `N = x·2^32`. -/
def IsNearestRoot (x : Word) (v : Nat) : Prop := IsRoundedRoot (x.toNat * 2 ^ 32) v

/-- What R160's digit loop gives for a non-negative operand (log 20): where the integer root `r` of `x` leaves a remainder of 2^32 or
more, the rescaling of R160 takes 2^30 more off `N = x·2^32` than R161 does. -/
def IsDigitLoopRoot (x : Word) (v : Nat) : Prop :=
  ∃ r : Nat, r * r ≤ x.toNat ∧ x.toNat < (r + 1) * (r + 1) ∧
    IsRoundedRoot (if 2 ^ 32 ≤ x.toNat - r * r then x.toNat * 2 ^ 32 - 2 ^ 30 else x.toNat * 2 ^ 32) v

/-- The operand of LOG2 shifted into [ONE, 2·ONE) (R162). -/
def logMantissa (x : Nat) : Nat :=
  if Nat.log2 x < 32 then x * 2 ^ (32 - Nat.log2 x) else x / 2 ^ (Nat.log2 x - 32)

/-- The last `n` fraction bits of the logarithm, from a mantissa `z` (R162): one bit per squaring, the square truncated. -/
def logFraction : Nat → Nat → Nat
  | 0, _ => 0
  | n + 1, z =>
    if 2 ^ 33 ≤ z * z / 2 ^ 32 then 2 ^ n + logFraction n (z * z / 2 ^ 32 / 2) else logFraction n (z * z / 2 ^ 32)

/-- Term `i` of the series of POW2 (R164), with the default LN2: two truncated products and one division by `i`, rounded to nearest. -/
def powTerm (fr : Nat) : Nat → Nat
  | 0 => 2 ^ 32
  | i + 1 => (2 * (fr * powTerm fr i / 2 ^ 32 * 0xB17217F7 / 2 ^ 32) / (i + 1) + 1) / 2

/-- The sum of the terms that are not 0 (R164, R165 item 1). -/
def powSum (fr : Nat) : Nat := ((List.range 12).map (powTerm fr)).sum

/-- The series at the fraction of `|x|`, shifted by its integer part (R164). -/
def powMagnitude (x : Word) : Word := BitVec.ofNat 64 (powSum (x.toInt.natAbs % 2 ^ 32) * 2 ^ (x.toInt.natAbs / 2 ^ 32))

/-- Round to nearest, ties to even, of `x / 2^32` (R144). -/
def nearestEven (x : Int) : Int :=
  if 2 * (x % 2 ^ 32) < 2 ^ 32 then x / 2 ^ 32
  else if 2 ^ 32 < 2 * (x % 2 ^ 32) then x / 2 ^ 32 + 1
  else if x / 2 ^ 32 % 2 = 0 then x / 2 ^ 32 else x / 2 ^ 32 + 1

/-- The value of a finite pattern of a binary format with `eb` exponent bits and `mb` fraction bits (R215). -/
def binaryValue (eb mb p : Nat) : ℚ :=
  (if p / 2 ^ (eb + mb) % 2 = 1 then -1 else 1) *
    (if p / 2 ^ mb % 2 ^ eb = 0 then ((p % 2 ^ mb : Nat) : ℚ) * 2 ^ ((1 : Int) - (2 ^ (eb - 1) - 1) - mb)
     else ((2 ^ mb + p % 2 ^ mb : Nat) : ℚ) * 2 ^ (((p / 2 ^ mb % 2 ^ eb : Nat) : Int) - (2 ^ (eb - 1) - 1) - mb))

/-- Neither an infinity nor a NaN. -/
def BinaryFinite (eb mb p : Nat) : Prop := p / 2 ^ mb % 2 ^ eb ≠ 2 ^ eb - 1

/-- Truncation toward zero (R215 item 1). -/
def truncQ (q : ℚ) : Int := if 0 ≤ q then ⌊q⌋ else ⌈q⌉

/-- `p` is the pattern of `v` rounded to nearest, ties to even; zero gives +0.0 (R215 item 3). -/
def IsRoundedTo (eb mb : Nat) (v : ℚ) (p : Nat) : Prop :=
  p < 2 ^ (1 + eb + mb) ∧ BinaryFinite eb mb p ∧ (v = 0 → p = 0) ∧
  ∀ q, q < 2 ^ (1 + eb + mb) → BinaryFinite eb mb q →
    |binaryValue eb mb p - v| ≤ |binaryValue eb mb q - v| ∧
    (|binaryValue eb mb q - v| = |binaryValue eb mb p - v| → binaryValue eb mb q ≠ binaryValue eb mb p → p % 2 = 0)

/-- A row of the opcode map: its format, the kinds of its fields, the largest immediate, and the instruction that its mnemonic names,
of the fields in the order of the format (R81 to R85). -/
inductive Row where
  | R (rd rs1 rs2 rs3 : Kind) (make : Reg → Reg → Reg → Reg → Instr)
  | I (rd : Kind) (maxImm : Nat) (make : Reg → BitVec 20 → Instr)

/-- Scalar arithmetic (R85). -/
def scalarRows : List (Nat × Row) :=
  [(0x01, .R .S .S .S .unused fun d a b _ => .add d a b), (0x02, .R .S .S .S .unused fun d a b _ => .sub d a b),
   (0x03, .R .S .S .S .unused fun d a b _ => .mul d a b), (0x04, .R .S .S .S .unused fun d a b _ => .div d a b),
   (0x05, .R .S .S .S .unused fun d a b _ => .mod d a b), (0x06, .R .S .S .unused .unused fun d a _ _ => .neg d a),
   (0x07, .R .S .S .S .unused fun d a b _ => .fastadd d a b), (0x08, .R .S .S .S .unused fun d a b _ => .fastsub d a b),
   (0x09, .R .S .S .S .unused fun d a b _ => .fastmul d a b), (0x0A, .R .S .S .S .unused fun d a b _ => .fastmod d a b)]

/-- Rounding and sign (R85). -/
def roundingRows : List (Nat × Row) :=
  [(0x10, .R .S .S .unused .unused fun d a _ _ => .abs d a), (0x11, .R .S .S .unused .unused fun d a _ _ => .sign d a),
   (0x12, .R .S .S .unused .unused fun d a _ _ => .floor d a), (0x13, .R .S .S .unused .unused fun d a _ _ => .ceil d a),
   (0x14, .R .S .S .unused .unused fun d a _ _ => .round d a), (0x15, .R .S .S .unused .unused fun d a _ _ => .trunc d a)]

/-- Square root, logarithm, power (R85). -/
def logPowRows : List (Nat × Row) :=
  [(0x18, .R .S .S .unused .unused fun d a _ _ => .sqrt d a), (0x19, .R .S .S .unused .unused fun d a _ _ => .log2 d a),
   (0x1A, .R .S .S .unused .unused fun d a _ _ => .ln d a), (0x1B, .R .S .S .unused .unused fun d a _ _ => .pow2 d a),
   (0x1C, .R .S .S .S .unused fun d a b _ => .pow d a b)]

/-- Compare and select (R85). -/
def compareRows : List (Nat × Row) :=
  [(0x20, .R .S .S .S .unused fun d a b _ => .min d a b), (0x21, .R .S .S .S .unused fun d a b _ => .max d a b),
   (0x22, .R .S .S .S .S fun d a b c => .clamp d a b c), (0x23, .R .S .S .unused .unused fun d a _ _ => .clamp01 d a),
   (0x24, .R .S .S .S .unused fun d a b _ => .cmpeq d a b), (0x25, .R .S .S .S .unused fun d a b _ => .cmplt d a b),
   (0x26, .R .S .S .S .unused fun d a b _ => .cmple d a b)]

/-- Move and convert (R85). -/
def moveRows : List (Nat × Row) :=
  [(0x28, .R .S .S .unused .unused fun d a _ _ => .mov d a), (0x29, .I .S 0xFFFFF .li),
   (0x2A, .I .S 6 .ldc), (0x2B, .R .S .S .unused .unused fun d a _ _ => .fromint d a),
   (0x2C, .R .S .S .unused .unused fun d a _ _ => .toint d a), (0x2D, .R .S .S .unused .unused fun d a _ _ => .fromf64 d a),
   (0x2E, .R .S .S .unused .unused fun d a _ _ => .tof64 d a), (0x2F, .R .S .S .unused .unused fun d a _ _ => .fromf32 d a),
   (0x30, .R .S .S .unused .unused fun d a _ _ => .tof32 d a)]

/-- Vector (R85). -/
def vectorRows : List (Nat × Row) :=
  [(0x38, .R .V .V .V .unused fun d a b _ => .vadd d a b), (0x39, .R .V .V .V .unused fun d a b _ => .vsub d a b),
   (0x3A, .R .V .V .unused .unused fun d a _ _ => .vneg d a), (0x3B, .R .V .V .S .unused fun d a b _ => .vscale d a b),
   (0x3C, .R .V .V .S .unused fun d a b _ => .vdivs d a b), (0x3D, .R .S .V .V .unused fun d a b _ => .vdot d a b),
   (0x3E, .R .S .V .unused .unused fun d a _ _ => .vsqrmag d a), (0x3F, .R .S .V .unused .unused fun d a _ _ => .vmag d a),
   (0x40, .R .V .V .unused .unused fun d a _ _ => .vnorm d a), (0x41, .R .V .V .V .unused fun d a b _ => .vcross d a b),
   (0x42, .R .V .V .V .unused fun d a b _ => .vproj d a b), (0x43, .R .V .V .V .unused fun d a b _ => .vprojp d a b),
   (0x44, .R .S .V .V .unused fun d a b _ => .vdist d a b), (0x45, .R .V .V .V .S fun d a b c => .vlerp d a b c),
   (0x46, .R .V .V .V .S fun d a b c => .vlerpu d a b c), (0x47, .R .V .V .V .unused fun d a b _ => .vmin d a b),
   (0x48, .R .V .V .V .unused fun d a b _ => .vmax d a b), (0x49, .R .S .V .V .unused fun d a b _ => .veq d a b),
   (0x4A, .I .V 7 .vldc)]

/-- Quaternion (R85). -/
def quaternionRows : List (Nat × Row) :=
  [(0x50, .R .Q .Q .Q .unused fun d a b _ => .qmul d a b), (0x51, .R .V .Q .V .unused fun d a b _ => .qrot d a b),
   (0x52, .R .Q .Q .unused .unused fun d a _ _ => .qnorm d a), (0x53, .R .S .Q .Q .unused fun d a b _ => .qdot d a b),
   (0x54, .R .Q .Q .unused .unused fun d a _ _ => .qinv d a), (0x55, .R .S .Q .Q .unused fun d a b _ => .qeq d a b),
   (0x56, .R .Q .unused .unused .unused fun d _ _ _ => .qid d)]

/-- The opcode map (R85). -/
def opcodeMap : List (Nat × Row) :=
  scalarRows ++ roundingRows ++ logPowRows ++ compareRows ++ moveRows ++ vectorRows ++ quaternionRows

/-- A field whose value its kind forbids (R86 items 3 and 4). -/
def BadField (k : Kind) (n : Nat) : Prop :=
  match k with
  | .S => False
  | .V => 29 < n
  | .Q => 28 < n
  | .unused => n ≠ 0

/-- `word[hi:lo]` as `lo` and a width. -/
def field (w : CmdWord) (lo len : Nat) : Nat := (w.extractLsb' lo len).toNat

/-- The 5-bit field from bit `lo` up, as a register number (R81). -/
def regField (w : CmdWord) (lo : Nat) : Reg := Fin.ofNat 32 (field w lo 5)

/-- The instruction of a row with the operands of a word. -/
def Row.instr (row : Row) (w : CmdWord) : Instr :=
  match row with
  | .R _ _ _ _ make => make (regField w 20) (regField w 15) (regField w 10) (regField w 5)
  | .I _ _ make => make (regField w 20) (BitVec.ofNat 20 (field w 0 20))

/-- R86, its five conditions. -/
def IllegalWord (w : CmdWord) : Prop :=
  match opcodeMap.lookup (field w 25 7) with
  | none => True
  | some (.R rd rs1 rs2 rs3 _) =>
    field w 0 5 ≠ 0 ∨ BadField rd (field w 20 5) ∨ BadField rs1 (field w 15 5) ∨ BadField rs2 (field w 10 5) ∨
      BadField rs3 (field w 5 5)
  | some (.I rd maxImm _) => BadField rd (field w 20 5) ∨ maxImm < field w 0 20

/-- The opcodes R86 item 1 lists as unassigned. -/
def Unassigned (op : Nat) : Prop :=
  op = 0x00 ∨ (0x0B ≤ op ∧ op ≤ 0x0F) ∨ (0x16 ≤ op ∧ op ≤ 0x17) ∨ (0x1D ≤ op ∧ op ≤ 0x1F) ∨ op = 0x27 ∨
    (0x31 ≤ op ∧ op ≤ 0x37) ∨ (0x4B ≤ op ∧ op ≤ 0x4F) ∨ (0x57 ≤ op ∧ op ≤ 0x7F)

/-- A float operand that goes to `F2X_OOR` (R215 item 1): not finite, or its truncation out of range. -/
def FloatOutOfRange (eb mb p : Nat) : Prop :=
  ¬ (BinaryFinite eb mb p ∧ -2 ^ 63 ≤ truncQ (binaryValue eb mb p * 2 ^ 32) ∧ truncQ (binaryValue eb mb p * 2 ^ 32) < 2 ^ 63)

/-- The table R321, rows 1, 2 and 4: when a legal command raises which cause. -/
def Raises (i : Instr) (s : State) (c : Cause) : Prop :=
  match i with
  | .add _ _ _ => False
  | .sub _ _ _ => False
  | .mul _ _ _ => False
  | .div _ _ rs2 => c = .divideByZero ∧ s.reg rs2 = 0#64
  | .mod _ _ rs2 => c = .divideByZero ∧ s.reg rs2 = 0#64
  | .neg _ _ => False
  | .fastadd _ _ _ => False
  | .fastsub _ _ _ => False
  | .fastmul _ _ _ => False
  | .fastmod _ rs1 rs2 => (c = .divideByZero ∧ s.reg rs2 = 0#64) ∨
      (c = .fastModOverflow ∧ s.reg rs1 = minV ∧ (s.reg rs2).toInt = -1 ∧ Config.fastmodMinNeg1 = none)
  | .abs _ _ => False
  | .sign _ _ => False
  | .floor _ _ => False
  | .ceil _ _ => False
  | .round _ _ => False
  | .trunc _ _ => False
  | .sqrt _ rs1 => c = .domainError ∧ (s.reg rs1).toInt < 0
  | .log2 _ rs1 => c = .domainError ∧ (s.reg rs1).toInt ≤ 0
  | .ln _ rs1 => c = .domainError ∧ (s.reg rs1).toInt ≤ 0
  | .pow2 _ _ => False
  | .pow _ rs1 rs2 => (c = .divideByZero ∧ s.reg rs1 = 0#64 ∧ (s.reg rs2).toInt < 0) ∨
      (c = .domainError ∧ (s.reg rs1).toInt < 0 ∧ s.reg rs2 ≠ 0#64)
  | .min _ _ _ => False
  | .max _ _ _ => False
  | .clamp _ _ _ _ => False
  | .clamp01 _ _ => False
  | .cmpeq _ _ _ => False
  | .cmplt _ _ _ => False
  | .cmple _ _ _ => False
  | .mov _ _ => False
  | .li _ _ => False
  | .ldc _ _ => False
  | .fromint _ _ => False
  | .toint _ _ => False
  | .fromf64 _ rs1 => c = .domainError ∧ FloatOutOfRange 11 52 (s.reg rs1).toNat ∧ Config.f2xOor.isNone
  | .tof64 _ _ => False
  | .fromf32 _ rs1 => c = .domainError ∧ FloatOutOfRange 8 23 ((s.reg rs1).toNat % 2 ^ 32) ∧ Config.f2xOor.isNone
  | .tof32 _ _ => False
  | .vadd _ _ _ => False
  | .vsub _ _ _ => False
  | .vneg _ _ => False
  | .vscale _ _ _ => False
  | .vdivs _ _ rs2 => c = .divideByZero ∧ s.reg rs2 = 0#64
  | .vdot _ _ _ => False
  | .vsqrmag _ _ => False
  | .vmag _ _ => False
  | .vnorm _ _ => False
  | .vcross _ _ _ => False
  | .vproj _ _ rs2 => c = .divideByZero ∧ Fx.vdot (s.vec rs2) (s.vec rs2) = 0#64
  | .vprojp _ _ rs2 => c = .divideByZero ∧ Fx.vdot (s.vec rs2) (s.vec rs2) = 0#64
  | .vdist _ _ _ => False
  | .vlerp _ _ _ _ => False
  | .vlerpu _ _ _ _ => False
  | .vmin _ _ _ => False
  | .vmax _ _ _ => False
  | .veq _ _ _ => False
  | .vldc _ _ => False
  | .qmul _ _ _ => False
  | .qrot _ _ _ => False
  | .qnorm _ _ => False
  | .qdot _ _ _ => False
  | .qinv _ _ => False
  | .qeq _ _ _ => False
  | .qid _ => False

end Sys2Proof.Claims

open Sys2Proof Sys2Proof.Machine Sys2Proof.Claims

-- Encoding

/-- R87, R90: decoding the encoding of a well-formed instruction gives it back, with every operand at every value. -/
def Obligations.DecodeOfEncode : Prop :=
  ∀ i : Instr, i.wellFormed = true → decode (encode i) = some i

/-- R86, last sentence: a word that decodes is the encoding of a well-formed instruction, so no word decodes two ways and no bit of a
legal word is ignored. -/
def Obligations.EncodeOfDecode : Prop :=
  ∀ (w : CmdWord) (i : Instr), decode w = some i → i.wellFormed = true ∧ encode i = w

/-- R85, R86: a command word is illegal under exactly its five conditions, the opcodes outside R85 are the listed ones, an illegal word
issued while Running takes the IllegalCommand fault with that word and does nothing else, no bit of a legal word is ignored, and a
legal word is the instruction of its own row of R85 with each operand from its own field. -/
def Obligations.IllegalWordsRaiseIllegalCommand : Prop :=
  (∀ op, op < 128 → (opcodeMap.lookup op = none ↔ Unassigned op)) ∧
  (∀ w : CmdWord, decode w = none ↔ IllegalWord w) ∧
  (∀ (s : State) (w : CmdWord), s.halt = false → IllegalWord w →
    issueCommand w s = .next { s with halt := true, cause := some .illegalCommand, fcmd := w.setWidth 64 }) ∧
  (∀ (v w : CmdWord) (i : Instr), decode v = some i → decode w = some i → v = w) ∧
  (∀ (w : CmdWord) (i : Instr), decode w = some i → ∃ row, opcodeMap.lookup (field w 25 7) = some row ∧ i = row.instr w)

/-- R90 and the words of 95_test_vectors.md: one word per family, and illegal ones, decode as the spec says. -/
def Obligations.SpecWordsDecode : Prop :=
  decode 0x02308800#32 = some (.add 3 1 2) ∧ decode 0x27408000#32 = some (.ceil 20 1) ∧
  decode 0x39408800#32 = some (.pow 20 1 2) ∧ decode 0x45408860#32 = some (.clamp 20 1 2 3) ∧
  decode 0x525FFFF9#32 = some (.li 5 (-7)) ∧ decode 0x8B4090E0#32 = some (.vlerp 20 1 4 7) ∧
  decode 0xA3409400#32 = some (.qrot 20 1 5) ∧ decode 0xAD800000#32 = some (.qid 24) ∧
  decode 0x00000000#32 = none ∧ decode 0x02110C01#32 = none ∧ decode 0x0C110400#32 = none ∧ decode 0x95E00002#32 = none ∧
  decode 0xADD00000#32 = none ∧ decode 0x54600007#32 = none

/-- R88, R89: the pseudo-instructions assemble to their expansions; NOP changes no state, CLR writes 0, LDONE writes 2^32, and SQR is the
MUL of a register by itself. -/
def Obligations.PseudoInstructionsExpand : Prop :=
  Asm.assemble "NOP".toList = some (.mov 0 0) ∧ Asm.assemble "CLR f7".toList = some (.ldc 7 0#20) ∧
  Asm.assemble "SQR f3, f4".toList = some (.mul 3 4 4) ∧ Asm.assemble "LDONE f31".toList = some (.ldc 31 1#20) ∧
  (∀ s : State, exec (.mov 0 0) s = .next s) ∧
  (∀ (s : State) (d : Reg), exec (.ldc d 0#20) s = .next (s.setReg d 0#64)) ∧
  (∀ (s : State) (d : Reg), exec (.ldc d 1#20) s = .next (s.setReg d 0x0000000100000000#64)) ∧
  (∀ (s : State) (d a : Reg), exec (.mul d a a) s = .next (s.setReg d (Fx.mul (s.reg a) (s.reg a))))

-- The machine: steps, port, status, faults, reset

/-- R36, R65, R335: a CMD write, out of reset, is one issue of the command word in its bits 31:0; while Running that is one execution of
the instruction the word decodes to. The step adds only the taking of the access off the list and the clearing of the read value. With
no event of the outside world a step changes nothing. The list, the read value and the idle step are the model's (logs 1, 2, 3). -/
def Obligations.StepRunsDecodedCommand : Prop :=
  (∀ (s : State) (v : Word) (es : List HostEvent), s.host = .write 64 0x118 v :: es → s.inReset = false →
    step s = issueCommand (v.setWidth 32) { s with host := es, busOut := none }) ∧
  (∀ (s : State) (v : Word) (es : List HostEvent) (i : Instr), s.host = .write 64 0x118 v :: es → s.inReset = false →
    s.halt = false → decode (v.setWidth 32) = some i → step s = exec i { s with host := es, busOut := none }) ∧
  (∀ s : State, s.host = [] → step s = .next s)

/-- R360: the reset state. -/
def Obligations.ResetStateValues : Prop :=
  (∀ q : Reg, State.reset.reg q = 0#64) ∧ State.reset.halt = false ∧ State.reset.cause = none ∧ State.reset.lost = false ∧
  State.reset.fsr = 0#64 ∧ State.reset.fcmd = 0#64 ∧ State.reset.hostRead 0x110 = 0x0000000007204020#64 ∧
  State.reset.execState = .running ∧ State.reset.faultIrq = false

/-- R361, with the reset input's level as the model holds it (log 4) and the list of what comes next (log 1): asserting reset in any
state, Halted ones too, gives the reset values; while it is asserted every host access is refused, and reset is the reason named
whatever else is wrong with it (log 15); releasing it changes nothing else. -/
def Obligations.ResetInputFromEveryState : Prop :=
  (∀ (s : State) (es : List HostEvent), s.host = .resetAssert :: es →
    step s = .next { State.reset with host := es, inReset := true }) ∧
  (∀ (s : State) (es : List HostEvent) (w off : Nat), s.inReset = true → s.host = .read w off :: es →
    step s = .refused .accessDuringReset) ∧
  (∀ (s : State) (es : List HostEvent) (w off : Nat) (v : Word), s.inReset = true → s.host = .write w off v :: es →
    step s = .refused .accessDuringReset) ∧
  (∀ (s : State) (es : List HostEvent), s.host = .resetRelease :: es →
    step s = .next { s with host := es, inReset := false })

/-- R62: out of reset, an access of another width, misaligned or outside the window is refused, and every other access is served. What the
outside world does next is a list (log 1). -/
def Obligations.OnlyLegalAccessesAreServed : Prop :=
  (∀ (s : State) (es : List HostEvent) (w off : Nat), s.inReset = false → s.host = .read w off :: es →
    (w ≠ 64 ∨ off % 8 ≠ 0 ∨ 0x120 ≤ off → ∃ r, step s = .refused r) ∧
    (w = 64 ∧ off % 8 = 0 ∧ off < 0x120 → ∃ t, step s = .next t)) ∧
  (∀ (s : State) (es : List HostEvent) (w off : Nat) (v : Word), s.inReset = false → s.host = .write w off v :: es →
    (w ≠ 64 ∨ off % 8 ≠ 0 ∨ 0x120 ≤ off → ∃ r, step s = .refused r) ∧
    (w = 64 ∧ off % 8 = 0 ∧ off < 0x120 → ∃ t, step s = .next t))

/-- R61 (read column), R65: what each read returns; it changes nothing the FXU holds. The host's accesses are a list and a read's value is
kept, as logs 1 and 2 choose. -/
def Obligations.HostReadsReturnTheMap : Prop :=
  ∀ (s : State) (es : List HostEvent) (off : Nat), s.inReset = false → s.host = .read 64 off :: es → off % 8 = 0 → off < 0x120 →
    ∃ v, step s = .next { s with host := es, busOut := some v } ∧
      (∀ q : Reg, off = 8 * q.val → v = s.reg q) ∧
      (off = 0x100 → v = s.fsr) ∧ (off = 0x108 → v = s.fcmd) ∧ (off = 0x110 → v = 0x0000000007204020#64) ∧ (off = 0x118 → v = 0#64)

/-- R61 (write column), R65: what each write does, but for CMD: a register is replaced, FSR clears the bits written 1, FCMD and FXID
ignore the write. The host's accesses are a list and a read's value is kept, as logs 1 and 2 choose. -/
def Obligations.HostWritesFollowTheMap : Prop :=
  ∀ (s : State) (es : List HostEvent) (off : Nat) (v : Word), s.inReset = false → s.host = .write 64 off v :: es →
    (∀ q : Reg, off = 8 * q.val → step s = .next ({ s with host := es, busOut := none }.setReg q v)) ∧
    (off = 0x100 → step s = .next { s with
      host := es, busOut := none,
      halt := if v.getLsbD 0 then false else s.halt,
      cause := if v.getLsbD 0 then none else s.cause,
      fcmd := if v.getLsbD 0 then 0#64 else s.fcmd,
      lost := if v.getLsbD 4 then false else s.lost }) ∧
    (off = 0x108 ∨ off = 0x110 → step s = .next { s with host := es, busOut := none })

/-- R30, R32: a register holds the last value written; no other register and no other state is touched by a register write. -/
def Obligations.RegisterWriteAndRead : Prop :=
  ∀ (s : State) (r : Reg) (v : Word),
    (∀ q : Reg, (s.setReg r v).reg q = if q = r then v else s.reg q) ∧
    { s.setReg r v with f := s.f } = s

/-- R33, R34: a group write puts its values on consecutive registers from the base up and touches nothing else; a vector and a quaternion
operand are read from consecutive registers. -/
def Obligations.GroupWriteAndRead : Prop :=
  (∀ (s : State) (r : Reg) (vs : List Word), r.val + vs.length ≤ 32 →
    (∀ q : Reg, (s.writeGroup r vs).reg q = if r.val ≤ q.val ∧ q.val < r.val + vs.length then vs.getD (q.val - r.val) 0 else s.reg q) ∧
    { s.writeGroup r vs with f := s.f } = s) ∧
  (∀ (s : State) (r : Reg) (h : r.val + 2 < 32),
    s.vec r = ⟨s.reg r, s.reg ⟨r.val + 1, by omega⟩, s.reg ⟨r.val + 2, h⟩⟩) ∧
  (∀ (s : State) (r : Reg) (h : r.val + 3 < 32),
    s.quat r = ⟨s.reg r, s.reg ⟨r.val + 1, by omega⟩, s.reg ⟨r.val + 2, by omega⟩, s.reg ⟨r.val + 3, h⟩⟩)

/-- R74: a raw value written by the host is read back unchanged, and the register holds exactly it. The host's accesses are a list and a
read's value is kept, as logs 1 and 2 choose. -/
def Obligations.RawRoundTrip : Prop :=
  ∀ (s : State) (es : List HostEvent) (q : Reg) (v : Word), s.inReset = false →
    s.host = .write 64 (8 * q.val) v :: .read 64 (8 * q.val) :: es →
    ∃ t u, step s = .next t ∧ t.reg q = v ∧ step t = .next u ∧ u.busOut = some v ∧ u.reg q = v

/-- R63: byte `a + k` of the host's view is bits `8k+7 : 8k` of the register at `a`; the persisted form has 8 bytes, byte `k` of it is
bits `8k+7 : 8k` of the raw value, and it gives the raw value back. -/
def Obligations.BytesAreLittleEndian : Prop :=
  (∀ (s : State) (a k : Nat), a % 8 = 0 → k < 8 → a + k < 0x120 →
    s.portByte (a + k) = some ((s.hostRead a).extractLsb' (8 * k) 8)) ∧
  (∀ v : Word, (persist v).length = 8 ∧ unpersist (persist v) = v ∧
    ∀ k, k < 8 → (persist v)[k]? = some (v.extractLsb' (8 * k) 8))

/-- R37, R38, R39, R328: FSR's layout, FXID's fields, CAUSE's codes, and the interrupt output equal to HALT. -/
def Obligations.StatusRegistersLayout : Prop :=
  (∀ s : State, s.fsr.getLsbD 0 = s.halt ∧ s.fsr.extractLsb' 1 3 = causeField s.cause ∧ s.fsr.getLsbD 4 = s.lost ∧
    s.fsr.extractLsb' 5 59 = 0#59 ∧ (causeField s.cause).toNat ≤ 4 ∧ s.faultIrq = s.fsr.getLsbD 0) ∧
  causeField none = 0#3 ∧ causeField (some .divideByZero) = 1#3 ∧ causeField (some .domainError) = 2#3 ∧
  causeField (some .illegalCommand) = 3#3 ∧ causeField (some .fastModOverflow) = 4#3 ∧
  fxid.extractLsb' 0 8 = 0x20#8 ∧ fxid.extractLsb' 8 8 = 0x40#8 ∧ fxid.extractLsb' 16 8 = 0x20#8 ∧ fxid.extractLsb' 24 8 = 0x07#8 ∧
  fxid.extractLsb' 32 32 = 0#32

/-- R324: while Halted a CMD write is discarded whatever its word, recording only LOST, and reads, register writes and FSR writes work as
when Running. The host's accesses are a list and a read's value is kept, as logs 1 and 2 choose. -/
def Obligations.HaltedDiscardsCommands : Prop :=
  ∀ (s : State) (es : List HostEvent), s.halt = true → s.inReset = false →
    (∀ v : Word, s.host = .write 64 0x118 v :: es → step s = .next { s with host := es, busOut := none, lost := true }) ∧
    (∀ off, off % 8 = 0 → off < 0x120 → s.host = .read 64 off :: es →
      step s = .next { s with host := es, busOut := some (s.hostRead off) }) ∧
    (∀ (q : Reg) (v : Word), s.host = .write 64 (8 * q.val) v :: es →
      step s = .next ({ s with host := es, busOut := none }.setReg q v)) ∧
    (∀ v : Word, s.host = .write 64 0x100 v :: es → step s = .next ({ s with host := es, busOut := none }.writeFsr v))

/-- R325, R37: resume. A write to FSR with bit 0 set leaves Halted, clears CAUSE and FCMD and keeps the registers; LOST goes only with bit
4; no step leaves Halted or clears LOST in any other way, reset apart; and while Running, with FSR and FCMD in agreement, no write to
FSR changes HALT, CAUSE, FCMD or a register. What the outside world does next is a list (log 1). -/
def Obligations.ResumeIsTheOnlyWayOut : Prop :=
  (∀ (s : State) (es : List HostEvent) (v : Word), s.inReset = false → s.host = .write 64 0x100 v :: es → v.getLsbD 0 = true →
    ∃ t, step s = .next t ∧ t.halt = false ∧ t.cause = none ∧ t.fcmd = 0#64 ∧ t.execState = .running ∧ t.f = s.f ∧
      t.lost = if v.getLsbD 4 then false else s.lost) ∧
  (∀ s t : State, step s = .next t → s.halt = true → t.halt = false →
    (∃ es v, s.host = .write 64 0x100 v :: es ∧ v.getLsbD 0 = true) ∨ ∃ es, s.host = .resetAssert :: es) ∧
  (∀ s t : State, step s = .next t → s.lost = true → t.lost = false →
    (∃ es v, s.host = .write 64 0x100 v :: es ∧ v.getLsbD 4 = true) ∨ ∃ es, s.host = .resetAssert :: es) ∧
  (∀ (s : State) (es : List HostEvent) (v : Word), s.StatusConsistent → s.halt = false → s.inReset = false →
    s.host = .write 64 0x100 v :: es →
    ∃ t, step s = .next t ∧ t.halt = false ∧ t.cause = s.cause ∧ t.fcmd = s.fcmd ∧ t.f = s.f)

/-- R326: while Halted no step changes the recorded cause and command word without leaving Halted, and no CMD write changes a register.
What the outside world does next is a list (log 1). -/
def Obligations.FaultsNeverNest : Prop :=
  ∀ s t : State, step s = .next t → s.halt = true → t.halt = true →
    t.cause = s.cause ∧ t.fcmd = s.fcmd ∧ (∀ es v, s.host = .write 64 0x118 v :: es → t.f = s.f)

/-- R322, R323: a command that leaves the FXU Halted left every register and LOST alone, recorded a cause, and recorded its own word in
FCMD; a word that does not decode does the same with that word. The word of an instruction is its encoding (log 5). -/
def Obligations.FaultsArePrecise : Prop :=
  (∀ (i : Instr) (s t : State), s.halt = false → exec i s = .next t → t.halt = true →
    s.SameButStatus t ∧ t.execState = .halted ∧ (∃ c, t.cause = some c) ∧ t.fcmd = (encode i).setWidth 64) ∧
  (∀ (w : CmdWord) (s : State), s.halt = false → decode w = none →
    ∃ t, issueCommand w s = .next t ∧ s.SameButStatus t ∧ t.halt = true ∧ t.cause = some .illegalCommand ∧ t.fcmd = w.setWidth 64)

/-- R320, R321, R322, of every instruction: a legal one faults in exactly the cases of the table R321, by fault entry with that cause and
its own encoding as the command word (log 5), and every other legal one completes and writes its destination, as many registers as its
kind has; a term with a group past f31 or an index past its table is an IllegalCommand (log 6). The rows of FROMF64 and FROMF32 read
the IEEE formats of log 9. -/
def Obligations.FaultsExactlyAsListed : Prop :=
  (∀ (i : Instr) (s : State), i.wellFormed = true →
    (∀ c, Raises i s c → exec i s = .next { s with halt := true, cause := some c, fcmd := (encode i).setWidth 64 }) ∧
    ((∀ c, ¬ Raises i s c) → ∃ vs, vs.length = destCount i ∧ exec i s = .next (s.writeGroup (destBase i) vs))) ∧
  (∀ (i : Instr) (s : State), i.wellFormed = false →
    exec i s = .next { s with halt := true, cause := some .illegalCommand, fcmd := (encode i).setWidth 64 })

/-- R320, R321, R322, of every command word issued while Running: it faults in exactly the cases of the table R321, IllegalCommand for a
word that does not decode among them, by fault entry with that cause and that word; in every other case it completes and writes its
destination. The rows of FROMF64 and FROMF32 read the IEEE formats of log 9. -/
def Obligations.IssuedWordsFaultAsListed : Prop :=
  ∀ (w : CmdWord) (s : State), s.halt = false →
    (decode w = none → issueCommand w s = .next { s with halt := true, cause := some .illegalCommand, fcmd := w.setWidth 64 }) ∧
    (∀ i, decode w = some i →
      (∀ c, Raises i s c → issueCommand w s = .next { s with halt := true, cause := some c, fcmd := w.setWidth 64 }) ∧
      ((∀ c, ¬ Raises i s c) → ∃ vs, vs.length = destCount i ∧ issueCommand w s = .next (s.writeGroup (destBase i) vs)))

/-- R34, R35, R40: the frame of every command. It changes no register but its destination's, no status bit unless it faults, and never
LOST; a faulting one changes no register. The model's own fields stay too (logs 1, 2, 4). There is no memory, program counter or flag
(R36, R40, R60). -/
def Obligations.CommandsFrame : Prop :=
  ∀ (i : Instr) (s t : State), exec i s = .next t →
    (∀ q : Reg, ¬ IsDest i q → t.reg q = s.reg q) ∧
    t.lost = s.lost ∧ t.inReset = s.inReset ∧ t.host = s.host ∧ t.busOut = s.busOut ∧
    ((t.halt = s.halt ∧ t.cause = s.cause ∧ t.fcmd = s.fcmd) ∨
      (t.f = s.f ∧ t.halt = true ∧ t.cause ≠ none ∧ t.fcmd = (encode i).setWidth 64))

/-- R37, R39: FSR and FCMD agree right after reset. -/
def Obligations.StatusConsistentAtReset : Prop := State.reset.StatusConsistent

/-- R37, R39: every step keeps FSR and FCMD in agreement: CAUSE and FCMD are 0 while HALT is 0, a cause is recorded while it is 1, and
FCMD holds a 32-bit word. A step serves the list of log 1. -/
def Obligations.StepKeepsStatusConsistent : Prop :=
  ∀ s t : State, s.StatusConsistent → step s = .next t → t.StatusConsistent

-- Scalar arithmetic

/-- R100, R101, R102: addition, subtraction and negation are the exact result clamped to [MINV, MAXV]. -/
def Obligations.AddSubNegSaturate : Prop :=
  ∀ (s : State) (rd a b : Reg),
    exec (.add rd a b) s = .next (s.setReg rd (clampRaw ((s.reg a).toInt + (s.reg b).toInt))) ∧
    exec (.sub rd a b) s = .next (s.setReg rd (clampRaw ((s.reg a).toInt - (s.reg b).toInt))) ∧
    exec (.neg rd a) s = .next (s.setReg rd (clampRaw (-(s.reg a).toInt)))

/-- R108, R109, R110: the fast sum, difference and truncated product wrap modulo 2^64; the checked sum and difference equal them when
these are in range, and the checked product equals the fast one when the truncated product is in range and the `top` test of R103 does
not fire. -/
def Obligations.FastVariantsWrap : Prop :=
  ∀ (s : State) (rd a b : Reg),
    exec (.fastadd rd a b) s = .next (s.setReg rd (s.reg a + s.reg b)) ∧
    exec (.fastsub rd a b) s = .next (s.setReg rd (s.reg a - s.reg b)) ∧
    exec (.fastmul rd a b) s = .next (s.setReg rd (BitVec.ofInt 64 ((s.reg a).toInt * (s.reg b).toInt / 2 ^ 32))) ∧
    (-2 ^ 63 ≤ (s.reg a).toInt + (s.reg b).toInt ∧ (s.reg a).toInt + (s.reg b).toInt < 2 ^ 63 →
      exec (.add rd a b) s = .next (s.setReg rd (s.reg a + s.reg b))) ∧
    (-2 ^ 63 ≤ (s.reg a).toInt - (s.reg b).toInt ∧ (s.reg a).toInt - (s.reg b).toInt < 2 ^ 63 →
      exec (.sub rd a b) s = .next (s.setReg rd (s.reg a - s.reg b))) ∧
    (FloorInRange (s.reg a) (s.reg b) → TopIsClear (s.reg a) (s.reg b) →
      exec (.mul rd a b) s = .next (s.setReg rd (BitVec.ofInt 64 ((s.reg a).toInt * (s.reg b).toInt / 2 ^ 32))))

/-- R103, R104 items 1 to 4: MUL gives the product truncated toward minus infinity exactly when that is in range and `hihi >> 32` is 0 or
-1, and otherwise the bound of the product's sign; so it saturates for some products that are in range. (R104 calls item 3 sampled;
this states it for every operand.) -/
def Obligations.MulIsFloorOrBound : Prop :=
  ∀ (s : State) (rd a b : Reg), ∃ v, exec (.mul rd a b) s = .next (s.setReg rd v) ∧
    (v.toInt = (s.reg a).toInt * (s.reg b).toInt / 2 ^ 32 ∨ v = signBound (s.reg a) (s.reg b)) ∧
    (¬ FloorInRange (s.reg a) (s.reg b) → v = signBound (s.reg a) (s.reg b)) ∧
    (FloorInRange (s.reg a) (s.reg b) → TopIsClear (s.reg a) (s.reg b) →
      v.toInt = (s.reg a).toInt * (s.reg b).toInt / 2 ^ 32) ∧
    (¬ TopIsClear (s.reg a) (s.reg b) → v = signBound (s.reg a) (s.reg b))

/-- R104 items 5 to 7: MUL is commutative, exact by 0 and by ONE, and never negative on equal operands. -/
def Obligations.MulLaws : Prop :=
  (∀ (s : State) (rd a b : Reg), exec (.mul rd a b) s = .next (s.setReg rd (Fx.mul (s.reg b) (s.reg a)))) ∧
  (∀ x : Word, Fx.mul x 0#64 = 0#64) ∧ (∀ x : Word, Fx.mul x oneV = x) ∧ (∀ x : Word, 0 ≤ (Fx.mul x x).toInt)

/-- R105, R106: the digit loop of DIV computes its closed form, for every dividend and every non-zero divisor; a zero divisor is
DivideByZero for every dividend. A fault records the instruction's encoding (log 5). At (MINV, -1) this follows R105 and not the
contrary cell of R112 (log 19). -/
def Obligations.DivIsItsClosedForm : Prop :=
  ∀ (s : State) (rd a b : Reg),
    (s.reg b ≠ 0#64 → exec (.div rd a b) s = .next (s.setReg rd (divClosed (s.reg a) (s.reg b)))) ∧
    (s.reg b = 0#64 → exec (.div rd a b) s = .next (s.faultEntry .divideByZero (encode (.div rd a b))))

/-- R107: MOD is the truncated remainder of the raw integers, 0 at (MINV, -1), DivideByZero on a zero divisor. A fault records the
instruction's encoding (log 5). -/
def Obligations.ModIsTruncatedRemainder : Prop :=
  ∀ (s : State) (rd a b : Reg),
    (s.reg b ≠ 0#64 → ∃ v, exec (.mod rd a b) s = .next (s.setReg rd v) ∧ v.toInt = Int.tmod (s.reg a).toInt (s.reg b).toInt ∧
      v.toInt.natAbs < (s.reg b).toInt.natAbs ∧ (v.toInt = 0 ∨ (v.toInt < 0 ↔ (s.reg a).toInt < 0))) ∧
    (s.reg b = 0#64 → exec (.mod rd a b) s = .next (s.faultEntry .divideByZero (encode (.mod rd a b))))

/-- R111: FASTMOD equals MOD's remainder except at (MINV, -1), where the OPEN parameter FASTMOD_MIN_NEG1 says: its value, or the
FastModOverflow fault (log 7; the word recorded: log 5). -/
def Obligations.FastModFollowsItsParameter : Prop :=
  ∀ (s : State) (rd a b : Reg),
    (s.reg b ≠ 0#64 → ¬ (s.reg a = minV ∧ (s.reg b).toInt = -1) →
      ∃ v, exec (.fastmod rd a b) s = .next (s.setReg rd v) ∧ exec (.mod rd a b) s = .next (s.setReg rd v) ∧
        v.toInt = Int.tmod (s.reg a).toInt (s.reg b).toInt) ∧
    (s.reg a = minV → (s.reg b).toInt = -1 → exec (.fastmod rd a b) s = .next
      (match Config.fastmodMinNeg1 with
       | some v => s.setReg rd v
       | none => s.faultEntry .fastModOverflow (encode (.fastmod rd a b)))) ∧
    (s.reg b = 0#64 → exec (.fastmod rd a b) s = .next (s.faultEntry .divideByZero (encode (.fastmod rd a b))))

-- Rounding and sign

/-- R140, R141: absolute value (MINV to MAXV) and sign. -/
def Obligations.AbsAndSign : Prop :=
  ∀ (s : State) (rd a : Reg),
    exec (.abs rd a) s = .next (s.setReg rd (clampRaw |(s.reg a).toInt|)) ∧
    exec (.sign rd a) s = .next (s.setReg rd (BitVec.ofInt 64 ((s.reg a).toInt.sign * 2 ^ 32)))

/-- R142, R143, R145: floor, ceiling (saturating) and the source's truncate, which is x + 1 on negative integers. -/
def Obligations.FloorCeilTrunc : Prop :=
  ∀ (s : State) (rd a : Reg),
    exec (.floor rd a) s = .next (s.setReg rd (BitVec.ofInt 64 ((s.reg a).toInt / 2 ^ 32 * 2 ^ 32))) ∧
    exec (.ceil rd a) s = .next (s.setReg rd (clampRaw (-(-(s.reg a).toInt / 2 ^ 32) * 2 ^ 32))) ∧
    exec (.trunc rd a) s = .next (s.setReg rd (BitVec.ofInt 64
      (if 0 ≤ (s.reg a).toInt then (s.reg a).toInt / 2 ^ 32 * 2 ^ 32 else ((s.reg a).toInt / 2 ^ 32 + 1) * 2 ^ 32)))

/-- R144: round to nearest, ties to even, saturating. -/
def Obligations.RoundHalfToEven : Prop :=
  ∀ (s : State) (rd a : Reg), exec (.round rd a) s = .next (s.setReg rd (clampRaw (nearestEven (s.reg a).toInt * 2 ^ 32)))

-- Square root, logarithm, power

/-- R160, R161: the two-pass digit loop gives the root of `IsDigitLoopRoot`. Below 2^62 that is the nearest root, R161's closed form; for
every operand it is the nearest root or the value one below. A negative operand is DomainError. Where R160 and R161 part the model
follows R160 (log 20); a fault records the instruction's encoding (log 5). -/
def Obligations.SqrtIsTheDigitLoopRoot : Prop :=
  ∀ (s : State) (rd a : Reg),
    (0 ≤ (s.reg a).toInt → ∃ v, exec (.sqrt rd a) s = .next (s.setReg rd v) ∧ IsDigitLoopRoot (s.reg a) v.toNat ∧
      ((s.reg a).toInt < 2 ^ 62 → IsNearestRoot (s.reg a) v.toNat) ∧
      (IsNearestRoot (s.reg a) v.toNat ∨ IsNearestRoot (s.reg a) (v.toNat + 1)) ∧ v.toNat < 2 ^ 48) ∧
    ((s.reg a).toInt < 0 → exec (.sqrt rd a) s = .next (s.faultEntry .domainError (encode (.sqrt rd a))))

/-- R162: LOG2 of a positive operand is its integer part, the place of the leading one, and the 32 fraction bits of the repeated squaring;
it lies in [-32, 31) and is exact at the powers of two; any other operand is DomainError. A fault records the instruction's encoding
(log 5). -/
def Obligations.Log2RangeAndPowersOfTwo : Prop :=
  ∀ (s : State) (rd a : Reg),
    (0 < (s.reg a).toInt → ∃ v, exec (.log2 rd a) s = .next (s.setReg rd v) ∧
      v.toInt = ((Nat.log2 (s.reg a).toNat : Int) - 32) * 2 ^ 32 + logFraction 32 (logMantissa (s.reg a).toNat) ∧
      -32 * 2 ^ 32 ≤ v.toInt ∧ v.toInt < 31 * 2 ^ 32 ∧
      ∀ n : Nat, (s.reg a).toInt = 2 ^ n → v.toInt = ((n : Int) - 32) * 2 ^ 32) ∧
    ((s.reg a).toInt ≤ 0 → exec (.log2 rd a) s = .next (s.faultEntry .domainError (encode (.log2 rd a))))

/-- R163: LN is LOG2 times LN2, and the fast and the checked product agree there; a non-positive operand is DomainError. LN2 is the
parameter's default (log 9); a fault records the instruction's encoding (log 5). -/
def Obligations.LnIsLog2TimesLn2 : Prop :=
  ∀ (s : State) (rd a : Reg),
    (0 < (s.reg a).toInt → ∃ l, exec (.log2 rd a) s = .next (s.setReg rd l) ∧
      exec (.ln rd a) s = .next (s.setReg rd (Fx.mul l 0x00000000B17217F7#64)) ∧
      Fx.mul l 0x00000000B17217F7#64 = Fx.fastmul l 0x00000000B17217F7#64) ∧
    ((s.reg a).toInt ≤ 0 → exec (.ln rd a) s = .next (s.faultEntry .domainError (encode (.ln rd a))))

/-- R164: the cases of POW2 that do not enter the series: 0, at or past LOG2MAX, at or past LOG2MIN, and the band (-32, -31]. The
parameters are the defaults (log 9). -/
def Obligations.Pow2Saturates : Prop :=
  ∀ (s : State) (rd a : Reg),
    (s.reg a = 0#64 → exec (.pow2 rd a) s = .next (s.setReg rd oneV)) ∧
    (31 * 2 ^ 32 ≤ (s.reg a).toInt → exec (.pow2 rd a) s = .next (s.setReg rd maxV)) ∧
    ((s.reg a).toInt ≤ -32 * 2 ^ 32 → exec (.pow2 rd a) s = .next (s.setReg rd 0#64)) ∧
    (-32 * 2 ^ 32 < (s.reg a).toInt → (s.reg a).toInt ≤ -31 * 2 ^ 32 → exec (.pow2 rd a) s = .next (s.setReg rd 2#64))

/-- R164, R165 items 1, 2 and 4, with the default parameters (log 9): the series runs at most 12 terms and its sum, the terms the rule
gives, lies in [ONE, 2·ONE); for an exponent strictly between -31 and 31 POW2 is that sum shifted by the exponent's integer part, and
its reciprocal by DIV for a negative exponent; and POW2 always completes with a result that is not negative. -/
def Obligations.Pow2SeriesIsBounded : Prop :=
  (∀ fr : Word, fr.toNat < 2 ^ 32 → powTerm fr.toNat 12 = 0 ∧ ∃ v, 2 ^ 32 ≤ v.toInt ∧ v.toInt < 2 ^ 33 ∧
    v.toNat = powSum fr.toNat ∧ ∀ n, Fx.powSeries 0x00000000B17217F7#64 fr (12 + n) oneV oneV 1 = .ok v) ∧
  (∀ (s : State) (rd a : Reg),
    (0 < (s.reg a).toInt → (s.reg a).toInt < 31 * 2 ^ 32 →
      exec (.pow2 rd a) s = .next (s.setReg rd (powMagnitude (s.reg a)))) ∧
    (-31 * 2 ^ 32 < (s.reg a).toInt → (s.reg a).toInt < 0 →
      exec (.pow2 rd a) s = .next (s.setReg rd (divClosed oneV (powMagnitude (s.reg a)))))) ∧
  (∀ (s : State) (rd a : Reg), ∃ v, exec (.pow2 rd a) s = .next (s.setReg rd v) ∧ 0 ≤ v.toInt)

/-- R166: the special cases of POW in the order written, and otherwise POW2 of the exponent times LOG2 of the base. A fault records the
instruction's encoding (log 5). -/
def Obligations.PowSpecialCases : Prop :=
  ∀ (s : State) (rd a b : Reg),
    (s.reg a = oneV ∨ s.reg b = 0#64 → exec (.pow rd a b) s = .next (s.setReg rd oneV)) ∧
    (s.reg a = 0#64 → 0 < (s.reg b).toInt → exec (.pow rd a b) s = .next (s.setReg rd 0#64)) ∧
    (s.reg a = 0#64 → (s.reg b).toInt < 0 →
      exec (.pow rd a b) s = .next (s.faultEntry .divideByZero (encode (.pow rd a b)))) ∧
    ((s.reg a).toInt < 0 → s.reg b ≠ 0#64 →
      exec (.pow rd a b) s = .next (s.faultEntry .domainError (encode (.pow rd a b)))) ∧
    (0 < (s.reg a).toInt → s.reg a ≠ oneV → s.reg b ≠ 0#64 → ∃ l p, exec (.log2 rd a) s = .next (s.setReg rd l) ∧
      exec (.pow2 rd rd) (s.setReg rd (Fx.mul (s.reg b) l)) = .next (s.setReg rd p) ∧
      exec (.pow rd a b) s = .next (s.setReg rd p))

-- Compare and select

/-- R190 to R193: minimum, maximum and clamp over the signed order, inverted bounds included. -/
def Obligations.SelectionsFollowTheOrder : Prop :=
  ∀ (s : State) (rd a b c : Reg),
    (∃ v, exec (.min rd a b) s = .next (s.setReg rd v) ∧ v.toInt = Min.min (s.reg a).toInt (s.reg b).toInt) ∧
    (∃ v, exec (.max rd a b) s = .next (s.setReg rd v) ∧ v.toInt = Max.max (s.reg a).toInt (s.reg b).toInt) ∧
    (∃ v, exec (.clamp rd a b c) s = .next (s.setReg rd v) ∧
      ((s.reg b).toInt ≤ (s.reg c).toInt → v.toInt = Max.max (s.reg b).toInt (Min.min (s.reg a).toInt (s.reg c).toInt)) ∧
      ((s.reg c).toInt < (s.reg b).toInt → v = if (s.reg a).toInt < (s.reg b).toInt then s.reg b else s.reg c)) ∧
    (∃ v, exec (.clamp01 rd a) s = .next (s.setReg rd v) ∧ v.toInt = Max.max 0 (Min.min (s.reg a).toInt (2 ^ 32)))

/-- R194, R195, R196: the comparisons write ONE for true and 0 for false. -/
def Obligations.ComparisonsWriteOneOrZero : Prop :=
  ∀ (s : State) (rd a b : Reg),
    exec (.cmpeq rd a b) s = .next (s.setReg rd (if s.reg a = s.reg b then 0x0000000100000000#64 else 0#64)) ∧
    exec (.cmplt rd a b) s = .next (s.setReg rd (if (s.reg a).slt (s.reg b) then 0x0000000100000000#64 else 0#64)) ∧
    exec (.cmple rd a b) s = .next (s.setReg rd (if (s.reg a).sle (s.reg b) then 0x0000000100000000#64 else 0#64))

-- Moves and conversions

/-- R210, R211, R212: MOV copies all 64 bits; LI writes the signed immediate times 2^32; LDC writes the table's constant, rows 4 to 6
being the parameters' defaults (log 9). -/
def Obligations.MovesAndConstants : Prop :=
  ∀ (s : State) (rd a : Reg),
    exec (.mov rd a) s = .next (s.setReg rd (s.reg a)) ∧
    (∀ imm : BitVec 20, ∃ v, exec (.li rd imm) s = .next (s.setReg rd v) ∧ v.toInt = imm.toInt * 2 ^ 32) ∧
    exec (.ldc rd 0) s = .next (s.setReg rd 0#64) ∧
    exec (.ldc rd 1) s = .next (s.setReg rd 0x0000000100000000#64) ∧
    exec (.ldc rd 2) s = .next (s.setReg rd 0x7FFFFFFFFFFFFFFF#64) ∧
    exec (.ldc rd 3) s = .next (s.setReg rd 0x8000000000000000#64) ∧
    exec (.ldc rd 4) s = .next (s.setReg rd 0x00000000B17217F7#64) ∧
    exec (.ldc rd 5) s = .next (s.setReg rd 0x0000001F00000000#64) ∧
    exec (.ldc rd 6) s = .next (s.setReg rd 0xFFFFFFE000000000#64)

/-- R213, R214: FROMINT reads bits 31:0 as a signed integer; TOINT is the floor; FROMINT of TOINT is FLOOR. -/
def Obligations.IntegerConversions : Prop :=
  ∀ (s : State) (rd a : Reg),
    (∃ v, exec (.fromint rd a) s = .next (s.setReg rd v) ∧ v.toInt = ((s.reg a).toNat : Int).bmod (2 ^ 32) * 2 ^ 32) ∧
    (∃ v, exec (.toint rd a) s = .next (s.setReg rd v) ∧ v.toInt = (s.reg a).toInt / 2 ^ 32 ∧
      exec (.fromint rd rd) (s.setReg rd v) = exec (.floor rd a) s)

/-- R215 items 1 and 2, R216, R218: a float converts to the truncation toward zero of its value times 2^32; out of range, infinite and NaN
inputs go to the OPEN parameter F2X_OOR (log 8; the word recorded: log 5); bits 63:32 of a binary32 operand are ignored. The IEEE
formats are log 9's. -/
def Obligations.FloatsTruncateToFixed : Prop :=
  ∀ (s : State) (rd a : Reg),
    (¬ FloatOutOfRange 11 52 (s.reg a).toNat →
      exec (.fromf64 rd a) s = .next (s.setReg rd (BitVec.ofInt 64 (truncQ (binaryValue 11 52 (s.reg a).toNat * 2 ^ 32))))) ∧
    (FloatOutOfRange 11 52 (s.reg a).toNat → exec (.fromf64 rd a) s = .next
      (match Config.f2xOor with
       | some g => s.setReg rd (g (.f64 (s.reg a)))
       | none => s.faultEntry .domainError (encode (.fromf64 rd a)))) ∧
    (¬ FloatOutOfRange 8 23 ((s.reg a).toNat % 2 ^ 32) →
      exec (.fromf32 rd a) s =
        .next (s.setReg rd (BitVec.ofInt 64 (truncQ (binaryValue 8 23 ((s.reg a).toNat % 2 ^ 32) * 2 ^ 32))))) ∧
    (FloatOutOfRange 8 23 ((s.reg a).toNat % 2 ^ 32) → exec (.fromf32 rd a) s = .next
      (match Config.f2xOor with
       | some g => s.setReg rd (g (.f32 ((s.reg a).setWidth 32)))
       | none => s.faultEntry .domainError (encode (.fromf32 rd a))))

/-- R215 item 3, R217, R219: raw / 2^32 rounded to the format, to nearest, ties to even, never overflowing; bits 63:32 of a binary32
result are 0. The IEEE formats and their rounding are log 9's. -/
def Obligations.FixedRoundsToFloat : Prop :=
  ∀ (s : State) (rd a : Reg),
    (∃ p : Nat, exec (.tof64 rd a) s = .next (s.setReg rd (BitVec.ofNat 64 p)) ∧ IsRoundedTo 11 52 ((s.reg a).toInt / 2 ^ 32) p) ∧
    (∃ p : Nat, exec (.tof32 rd a) s = .next (s.setReg rd (BitVec.ofNat 64 p)) ∧ IsRoundedTo 8 23 ((s.reg a).toInt / 2 ^ 32) p)

/-- R217: FROMF64 after TOF64 is the identity on raws with at most 53 significant bits. (The formats: log 9.) -/
def Obligations.FloatRoundTripOn53Bits : Prop :=
  ∀ (s : State) (rd a : Reg) (m : Int) (k : Nat), (s.reg a).toInt = m * 2 ^ k → m.natAbs < 2 ^ 53 →
    ∃ p, exec (.tof64 rd a) s = .next (s.setReg rd p) ∧
      exec (.fromf64 rd rd) (s.setReg rd p) = .next (s.setReg rd (s.reg a))

-- Vector pipeline. `s.vec r` is the group read (GroupWriteAndRead says from where).

/-- R241, R242, R243, R244, R256, R257: the component-wise commands, each component by its scalar function. -/
def Obligations.VectorComponentwise : Prop :=
  ∀ (s : State) (rd a b c : Reg), vecBase rd = true → vecBase a = true → vecBase b = true →
    exec (.vadd rd a b) s = .next (s.writeGroup rd
      [clampRaw ((s.vec a).x.toInt + (s.vec b).x.toInt), clampRaw ((s.vec a).y.toInt + (s.vec b).y.toInt),
       clampRaw ((s.vec a).z.toInt + (s.vec b).z.toInt)]) ∧
    exec (.vsub rd a b) s = .next (s.writeGroup rd
      [clampRaw ((s.vec a).x.toInt - (s.vec b).x.toInt), clampRaw ((s.vec a).y.toInt - (s.vec b).y.toInt),
       clampRaw ((s.vec a).z.toInt - (s.vec b).z.toInt)]) ∧
    exec (.vneg rd a) s = .next (s.writeGroup rd
      [clampRaw (-(s.vec a).x.toInt), clampRaw (-(s.vec a).y.toInt), clampRaw (-(s.vec a).z.toInt)]) ∧
    exec (.vscale rd a c) s = .next (s.writeGroup rd
      [Fx.mul (s.vec a).x (s.reg c), Fx.mul (s.vec a).y (s.reg c), Fx.mul (s.vec a).z (s.reg c)]) ∧
    exec (.vmin rd a b) s = .next (s.writeGroup rd
      [Fx.min (s.vec a).x (s.vec b).x, Fx.min (s.vec a).y (s.vec b).y, Fx.min (s.vec a).z (s.vec b).z]) ∧
    exec (.vmax rd a b) s = .next (s.writeGroup rd
      [Fx.max (s.vec a).x (s.vec b).x, Fx.max (s.vec a).y (s.vec b).y, Fx.max (s.vec a).z (s.vec b).z])

/-- R245: VDIVS divides each component by the closed form of DIV, and a zero scalar is DivideByZero for every vector. A component MINV
over the raw scalar -1 is MAXV, the model's choice (log 19); a fault records the instruction's encoding (log 5). -/
def Obligations.VectorDividedByScalar : Prop :=
  ∀ (s : State) (rd a c : Reg), vecBase rd = true → vecBase a = true →
    (s.reg c ≠ 0#64 → exec (.vdivs rd a c) s = .next (s.writeGroup rd
      [divClosed (s.vec a).x (s.reg c), divClosed (s.vec a).y (s.reg c), divClosed (s.vec a).z (s.reg c)])) ∧
    (s.reg c = 0#64 → exec (.vdivs rd a c) s = .next (s.faultEntry .divideByZero (encode (.vdivs rd a c))))

/-- R246, R247, R250, R259: dot product and squared magnitude, left to right with saturation at every step; the cross product; and the
sum-of-differences test. -/
def Obligations.VectorProductsAndEquality : Prop :=
  ∀ (s : State) (rd q a b : Reg), vecBase a = true → vecBase b = true →
    exec (.vdot q a b) s = .next (s.setReg q
      (clampRaw ((clampRaw ((Fx.mul (s.vec a).x (s.vec b).x).toInt + (Fx.mul (s.vec a).y (s.vec b).y).toInt)).toInt +
        (Fx.mul (s.vec a).z (s.vec b).z).toInt))) ∧
    exec (.vsqrmag q a) s = .next (s.setReg q
      (clampRaw ((clampRaw ((Fx.mul (s.vec a).x (s.vec a).x).toInt + (Fx.mul (s.vec a).y (s.vec a).y).toInt)).toInt +
        (Fx.mul (s.vec a).z (s.vec a).z).toInt))) ∧
    (vecBase rd = true → exec (.vcross rd a b) s = .next (s.writeGroup rd
      [clampRaw ((Fx.mul (s.vec a).y (s.vec b).z).toInt - (Fx.mul (s.vec a).z (s.vec b).y).toInt),
       clampRaw ((Fx.mul (s.vec a).z (s.vec b).x).toInt - (Fx.mul (s.vec a).x (s.vec b).z).toInt),
       clampRaw ((Fx.mul (s.vec a).x (s.vec b).y).toInt - (Fx.mul (s.vec a).y (s.vec b).x).toInt)])) ∧
    exec (.veq q a b) s = .next (s.setReg q
      (if (clampRaw ((clampRaw ((clampRaw ((s.vec a).x.toInt - (s.vec b).x.toInt)).toInt +
            (clampRaw ((s.vec a).y.toInt - (s.vec b).y.toInt)).toInt)).toInt +
          (clampRaw ((s.vec a).z.toInt - (s.vec b).z.toInt)).toInt)) = 0#64
       then 0x0000000100000000#64 else 0#64))

/-- R246, R250, R259: a vector's dot product with itself is never negative, its cross product with itself is zero, and it equals itself.
-/
def Obligations.VectorSelfLaws : Prop :=
  ∀ (s : State) (rd q a : Reg), vecBase rd = true → vecBase a = true →
    (∃ v, exec (.vdot q a a) s = .next (s.setReg q v) ∧ 0 ≤ v.toInt) ∧
    exec (.vcross rd a a) s = .next (s.writeGroup rd [0#64, 0#64, 0#64]) ∧
    exec (.veq q a a) s = .next (s.setReg q oneV)

/-- R247, R248, R253: magnitude and distance never fault; the magnitude is the digit loop's root of the squared magnitude (log 20), the
nearest root when the squared magnitude is below 2^62, and at most the root of MAXV; a distance is the magnitude of the difference,
and the same both ways, saturated differences included. -/
def Obligations.MagnitudeAndDistance : Prop :=
  ∀ (s : State) (rd a b : Reg), vecBase a = true → vecBase b = true →
    (∃ q m, exec (.vsqrmag rd a) s = .next (s.setReg rd q) ∧ exec (.vmag rd a) s = .next (s.setReg rd m) ∧
      IsDigitLoopRoot q m.toNat ∧ (q.toInt < 2 ^ 62 → IsNearestRoot q m.toNat) ∧ m.toNat ≤ 0x0000B504F333F9DE) ∧
    (∃ m, exec (.vdist rd a b) s = .next (s.setReg rd m) ∧ exec (.vdist rd b a) s = .next (s.setReg rd m) ∧
      Fx.vmag ⟨Fx.sub (s.vec a).x (s.vec b).x, Fx.sub (s.vec a).y (s.vec b).y, Fx.sub (s.vec a).z (s.vec b).z⟩ = .ok m ∧
      m.toNat ≤ 0x0000B504F333F9DE)

/-- R249, R293: normalizing never faults. A zero magnitude gives the zero vector, or Identity; otherwise each component is divided by the
magnitude. -/
def Obligations.NormalizeNeverFaults : Prop :=
  (∀ (s : State) (rd a : Reg), vecBase rd = true → vecBase a = true →
    ∃ m, Fx.vmag (s.vec a) = .ok m ∧
      (m = 0#64 → exec (.vnorm rd a) s = .next (s.writeGroup rd [0#64, 0#64, 0#64])) ∧
      (m ≠ 0#64 → exec (.vnorm rd a) s = .next (s.writeGroup rd
        [divClosed (s.vec a).x m, divClosed (s.vec a).y m, divClosed (s.vec a).z m]))) ∧
  (∀ (s : State) (rd a : Reg), quatBase rd = true → quatBase a = true →
    ∃ m, Fx.sqrt (Fx.qdot (s.quat a) (s.quat a)) = .ok m ∧
      (m = 0#64 → exec (.qnorm rd a) s = .next (s.writeGroup rd [0#64, 0#64, 0#64, oneV])) ∧
      (m ≠ 0#64 → exec (.qnorm rd a) s = .next (s.writeGroup rd
        [divClosed (s.quat a).x m, divClosed (s.quat a).y m, divClosed (s.quat a).z m, divClosed (s.quat a).w m])))

/-- R251, R252: the projections, `n·d / sq` per component by the closed form of DIV, and DivideByZero when the normal's dot product with
itself is 0; the guard for a negative one is never taken. A fault records the instruction's encoding (log 5). -/
def Obligations.Projections : Prop :=
  ∀ (s : State) (rd a n : Reg), vecBase rd = true → vecBase a = true → vecBase n = true →
    (Fx.vdot (s.vec n) (s.vec n) ≠ 0#64 →
      exec (.vproj rd a n) s = .next (s.writeGroup rd
        [divClosed (Fx.mul (s.vec n).x (Fx.vdot (s.vec a) (s.vec n))) (Fx.vdot (s.vec n) (s.vec n)),
         divClosed (Fx.mul (s.vec n).y (Fx.vdot (s.vec a) (s.vec n))) (Fx.vdot (s.vec n) (s.vec n)),
         divClosed (Fx.mul (s.vec n).z (Fx.vdot (s.vec a) (s.vec n))) (Fx.vdot (s.vec n) (s.vec n))]) ∧
      exec (.vprojp rd a n) s = .next (s.writeGroup rd
        [Fx.sub (s.vec a).x (divClosed (Fx.mul (s.vec n).x (Fx.vdot (s.vec a) (s.vec n))) (Fx.vdot (s.vec n) (s.vec n))),
         Fx.sub (s.vec a).y (divClosed (Fx.mul (s.vec n).y (Fx.vdot (s.vec a) (s.vec n))) (Fx.vdot (s.vec n) (s.vec n))),
         Fx.sub (s.vec a).z (divClosed (Fx.mul (s.vec n).z (Fx.vdot (s.vec a) (s.vec n))) (Fx.vdot (s.vec n) (s.vec n)))])) ∧
    (Fx.vdot (s.vec n) (s.vec n) = 0#64 →
      exec (.vproj rd a n) s = .next (s.faultEntry .divideByZero (encode (.vproj rd a n))) ∧
      exec (.vprojp rd a n) s = .next (s.faultEntry .divideByZero (encode (.vprojp rd a n))))

/-- R254, R255: interpolation `a + (b - a)·t` per component; the clamped form gives `a` exactly for t ≤ 0 and equals the unclamped one's
value for t in [0, ONE]. -/
def Obligations.Interpolation : Prop :=
  ∀ (s : State) (rd a b c : Reg), vecBase rd = true → vecBase a = true → vecBase b = true →
    exec (.vlerpu rd a b c) s = .next (s.writeGroup rd
      [Fx.add (s.vec a).x (Fx.mul (Fx.sub (s.vec b).x (s.vec a).x) (s.reg c)),
       Fx.add (s.vec a).y (Fx.mul (Fx.sub (s.vec b).y (s.vec a).y) (s.reg c)),
       Fx.add (s.vec a).z (Fx.mul (Fx.sub (s.vec b).z (s.vec a).z) (s.reg c))]) ∧
    ((s.reg c).toInt ≤ 0 → exec (.vlerp rd a b c) s = .next (s.writeGroup rd [(s.vec a).x, (s.vec a).y, (s.vec a).z])) ∧
    (0 ≤ (s.reg c).toInt → (s.reg c).toInt ≤ 2 ^ 32 → exec (.vlerp rd a b c) s = .next (s.writeGroup rd
      [Fx.add (s.vec a).x (Fx.mul (Fx.sub (s.vec b).x (s.vec a).x) (s.reg c)),
       Fx.add (s.vec a).y (Fx.mul (Fx.sub (s.vec b).y (s.vec a).y) (s.reg c)),
       Fx.add (s.vec a).z (Fx.mul (Fx.sub (s.vec b).z (s.vec a).z) (s.reg c))])) ∧
    (2 ^ 32 ≤ (s.reg c).toInt → exec (.vlerp rd a b c) s = .next (s.writeGroup rd
      [Fx.add (s.vec a).x (Fx.sub (s.vec b).x (s.vec a).x), Fx.add (s.vec a).y (Fx.sub (s.vec b).y (s.vec a).y),
       Fx.add (s.vec a).z (Fx.sub (s.vec b).z (s.vec a).z)]))

/-- R258, R297: the vector constants and the quaternion Identity. -/
def Obligations.GroupConstants : Prop :=
  ∀ (s : State) (rd : Reg), vecBase rd = true →
    exec (.vldc rd 0) s = .next (s.writeGroup rd [0#64, 0#64, 0#64]) ∧
    exec (.vldc rd 1) s = .next (s.writeGroup rd [0x0000000100000000#64, 0x0000000100000000#64, 0x0000000100000000#64]) ∧
    exec (.vldc rd 2) s = .next (s.writeGroup rd [0#64, 0x0000000100000000#64, 0#64]) ∧
    exec (.vldc rd 3) s = .next (s.writeGroup rd [0#64, 0xFFFFFFFF00000000#64, 0#64]) ∧
    exec (.vldc rd 4) s = .next (s.writeGroup rd [0xFFFFFFFF00000000#64, 0#64, 0#64]) ∧
    exec (.vldc rd 5) s = .next (s.writeGroup rd [0x0000000100000000#64, 0#64, 0#64]) ∧
    exec (.vldc rd 6) s = .next (s.writeGroup rd [0#64, 0#64, 0x0000000100000000#64]) ∧
    exec (.vldc rd 7) s = .next (s.writeGroup rd [0#64, 0#64, 0xFFFFFFFF00000000#64]) ∧
    (quatBase rd = true → exec (.qid rd) s = .next (s.writeGroup rd [0#64, 0#64, 0#64, 0x0000000100000000#64]))

-- Quaternion pipeline

/-- R291: the Hamilton product; Identity times `r` is `r`, exactly. -/
def Obligations.HamiltonProduct : Prop :=
  ∀ (s : State) (rd a b : Reg), quatBase rd = true → quatBase a = true → quatBase b = true →
    (∃ x y z w, exec (.qmul rd a b) s = .next (s.writeGroup rd [x, y, z, w]) ∧
      x = Fx.sub (Fx.add (Fx.add (Fx.mul (s.quat a).w (s.quat b).x) (Fx.mul (s.quat a).x (s.quat b).w))
        (Fx.mul (s.quat a).y (s.quat b).z)) (Fx.mul (s.quat a).z (s.quat b).y) ∧
      y = Fx.sub (Fx.add (Fx.add (Fx.mul (s.quat a).w (s.quat b).y) (Fx.mul (s.quat a).y (s.quat b).w))
        (Fx.mul (s.quat a).z (s.quat b).x)) (Fx.mul (s.quat a).x (s.quat b).z) ∧
      z = Fx.sub (Fx.add (Fx.add (Fx.mul (s.quat a).w (s.quat b).z) (Fx.mul (s.quat a).z (s.quat b).w))
        (Fx.mul (s.quat a).x (s.quat b).y)) (Fx.mul (s.quat a).y (s.quat b).x) ∧
      w = Fx.sub (Fx.sub (Fx.sub (Fx.mul (s.quat a).w (s.quat b).w) (Fx.mul (s.quat a).x (s.quat b).x))
        (Fx.mul (s.quat a).y (s.quat b).y)) (Fx.mul (s.quat a).z (s.quat b).z)) ∧
    (s.quat a = ⟨0#64, 0#64, 0#64, oneV⟩ →
      exec (.qmul rd a b) s = .next (s.writeGroup rd [(s.quat b).x, (s.quat b).y, (s.quat b).z, (s.quat b).w]))

/-- R292: rotation always completes, writes its three registers as the 21-multiply expansion says, and by Identity gives the vector back
exactly. -/
def Obligations.Rotation : Prop :=
  ∀ (s : State) (rd a b : Reg), vecBase rd = true → quatBase a = true → vecBase b = true →
    (∀ x2 y2 z2, x2 = Fx.mul (s.quat a).x twoV → y2 = Fx.mul (s.quat a).y twoV → z2 = Fx.mul (s.quat a).z twoV →
      ∀ xx yy zz xy xz yz wx wy wz,
        xx = Fx.mul (s.quat a).x x2 → yy = Fx.mul (s.quat a).y y2 → zz = Fx.mul (s.quat a).z z2 →
        xy = Fx.mul (s.quat a).x y2 → xz = Fx.mul (s.quat a).x z2 → yz = Fx.mul (s.quat a).y z2 →
        wx = Fx.mul (s.quat a).w x2 → wy = Fx.mul (s.quat a).w y2 → wz = Fx.mul (s.quat a).w z2 →
      exec (.qrot rd a b) s = .next (s.writeGroup rd
        [Fx.add (Fx.add (Fx.mul (Fx.sub oneV (Fx.add yy zz)) (s.vec b).x) (Fx.mul (Fx.sub xy wz) (s.vec b).y))
           (Fx.mul (Fx.add xz wy) (s.vec b).z),
         Fx.add (Fx.add (Fx.mul (Fx.add xy wz) (s.vec b).x) (Fx.mul (Fx.sub oneV (Fx.add xx zz)) (s.vec b).y))
           (Fx.mul (Fx.sub yz wx) (s.vec b).z),
         Fx.add (Fx.add (Fx.mul (Fx.sub xz wy) (s.vec b).x) (Fx.mul (Fx.add yz wx) (s.vec b).y))
           (Fx.mul (Fx.sub oneV (Fx.add xx yy)) (s.vec b).z)])) ∧
    (s.quat a = ⟨0#64, 0#64, 0#64, oneV⟩ →
      exec (.qrot rd a b) s = .next (s.writeGroup rd [(s.vec b).x, (s.vec b).y, (s.vec b).z]))

/-- R294, R295, R296: the four-component dot product, never negative of a quaternion with itself; the conjugate; and equality as a dot
product of exactly ONE. -/
def Obligations.QuaternionDotInverseEquality : Prop :=
  ∀ (s : State) (rd q a b : Reg), quatBase rd = true → quatBase a = true → quatBase b = true →
    (∃ d, exec (.qdot q a b) s = .next (s.setReg q d) ∧
      d = Fx.add (Fx.add (Fx.add (Fx.mul (s.quat a).x (s.quat b).x) (Fx.mul (s.quat a).y (s.quat b).y))
        (Fx.mul (s.quat a).z (s.quat b).z)) (Fx.mul (s.quat a).w (s.quat b).w) ∧
      exec (.qeq q a b) s = .next (s.setReg q (if d = oneV then oneV else 0#64))) ∧
    (∃ d, exec (.qdot q a a) s = .next (s.setReg q d) ∧ 0 ≤ d.toInt) ∧
    exec (.qinv rd a) s = .next (s.writeGroup rd
      [clampRaw (-(s.quat a).x.toInt), clampRaw (-(s.quat a).y.toInt), clampRaw (-(s.quat a).z.toInt), (s.quat a).w])
end

