-- ==== Sys2Proof/Laws/Encoding.lean ====
section
/-!
SUPPORT. Command words as numbers: the fields of R81 and R82 as sums, and reading them back.
-/

namespace Sys2Proof

theorem wordR_toNat (op : Nat) (rd rs1 rs2 rs3 : Reg) (h : op < 128) :
    (wordR op rd rs1 rs2 rs3).toNat =
      op * 2 ^ 25 + rd.val * 2 ^ 20 + rs1.val * 2 ^ 15 + rs2.val * 2 ^ 10 + rs3.val * 2 ^ 5 := by
  have h0 := rd.isLt; have h1 := rs1.isLt; have h2 := rs2.isLt; have h3 := rs3.isLt
  have e : (op <<< 25 ||| rd.val <<< 20 ||| rs1.val <<< 15 ||| rs2.val <<< 10 ||| rs3.val <<< 5) =
      op * 2 ^ 25 + rd.val * 2 ^ 20 + rs1.val * 2 ^ 15 + rs2.val * 2 ^ 10 + rs3.val * 2 ^ 5 := by
    have a1 : op <<< 25 ||| rd.val <<< 20 = (op * 32 + rd.val) <<< 20 := by
      rw [← Nat.shiftLeft_add_eq_or_of_lt (by rw [Nat.shiftLeft_eq]; omega)]
      simp only [Nat.shiftLeft_eq]; omega
    have a2 : (op * 32 + rd.val) <<< 20 ||| rs1.val <<< 15 = ((op * 32 + rd.val) * 32 + rs1.val) <<< 15 := by
      rw [← Nat.shiftLeft_add_eq_or_of_lt (by rw [Nat.shiftLeft_eq]; omega)]
      simp only [Nat.shiftLeft_eq]; omega
    have a3 : ((op * 32 + rd.val) * 32 + rs1.val) <<< 15 ||| rs2.val <<< 10 =
        (((op * 32 + rd.val) * 32 + rs1.val) * 32 + rs2.val) <<< 10 := by
      rw [← Nat.shiftLeft_add_eq_or_of_lt (by rw [Nat.shiftLeft_eq]; omega)]
      simp only [Nat.shiftLeft_eq]; omega
    have a4 : (((op * 32 + rd.val) * 32 + rs1.val) * 32 + rs2.val) <<< 10 ||| rs3.val <<< 5 =
        ((((op * 32 + rd.val) * 32 + rs1.val) * 32 + rs2.val) * 32 + rs3.val) <<< 5 := by
      rw [← Nat.shiftLeft_add_eq_or_of_lt (by rw [Nat.shiftLeft_eq]; omega)]
      simp only [Nat.shiftLeft_eq]; omega
    rw [a1, a2, a3, a4]
    simp only [Nat.shiftLeft_eq]; omega
  rw [wordR, BitVec.toNat_ofNat, e]
  omega

theorem wordI_toNat (op : Nat) (rd : Reg) (imm : BitVec 20) (h : op < 128) :
    (wordI op rd imm).toNat = op * 2 ^ 25 + rd.val * 2 ^ 20 + imm.toNat := by
  have h0 := rd.isLt; have h1 := imm.isLt
  have e : (op <<< 25 ||| rd.val <<< 20 ||| imm.toNat) = op * 2 ^ 25 + rd.val * 2 ^ 20 + imm.toNat := by
    have a1 : op <<< 25 ||| rd.val <<< 20 = (op * 32 + rd.val) <<< 20 := by
      rw [← Nat.shiftLeft_add_eq_or_of_lt (by rw [Nat.shiftLeft_eq]; omega)]
      simp only [Nat.shiftLeft_eq]; omega
    have a2 : (op * 32 + rd.val) <<< 20 ||| imm.toNat = (op * 32 + rd.val) <<< 20 + imm.toNat := by
      rw [← Nat.shiftLeft_add_eq_or_of_lt h1]
    rw [a1, a2]
    simp only [Nat.shiftLeft_eq]; omega
  rw [wordI, BitVec.toNat_ofNat, e]
  omega

theorem bits_def (w : CmdWord) (hi lo : Nat) : bits w hi lo = w.toNat / 2 ^ lo % 2 ^ (hi - lo + 1) := rfl

/-- The number of a register read back from its 5 bits. -/
theorem regAt_val (w : CmdWord) (lo : Nat) : (regAt w lo).val = w.toNat / 2 ^ lo % 32 := by
  simp [regAt, bits, Fin.ofNat]

end Sys2Proof
end

