-- ==== Sys2Proof/Laws/Fx.lean ====
section
/-!
SUPPORT. Raw values as integers, and the loops' bounds: no loop is cut short by the bound its definition carries (spec R365, log 10).
The power series' bound is a statement of its own (R165).
-/

namespace Sys2Proof.Machine

/-- A raw value lies in [-2^63, 2^63) (R10). -/
theorem toInt_bounds (w : Word) : -9223372036854775808 ≤ w.toInt ∧ w.toInt < 9223372036854775808 := by
  have h1 := BitVec.le_toInt w
  have h2 := BitVec.toInt_lt (x := w)
  norm_num at h1 h2
  exact ⟨h1, h2⟩

theorem toInt_s64 (v : Int) : (s64 v).toInt = v.bmod 18446744073709551616 := by
  simp [s64, BitVec.toInt_ofInt]

/-- Narrowing an integer in range keeps it. -/
theorem toInt_s64_of_range (v : Int) (h1 : -9223372036854775808 ≤ v) (h2 : v < 9223372036854775808) : (s64 v).toInt = v := by
  rw [toInt_s64, Int.bmod_eq_of_le] <;> omega

@[simp] theorem s64_toInt (w : Word) : s64 w.toInt = w := by simp [s64]

theorem s64_add (x y : Word) : s64 (x.toInt + y.toInt) = x + y := by
  simp [s64, BitVec.ofInt_add]

theorem s64_sub (x y : Word) : s64 (x.toInt - y.toInt) = x - y := by
  apply BitVec.eq_of_toInt_eq
  rw [toInt_s64, BitVec.toInt_sub]

/-- The sign bit says whether the raw value is negative. -/
theorem sb_iff (w : Word) : sb w = true ↔ w.toInt < 0 := by
  rw [sb, BitVec.msb_eq_toInt, decide_eq_true_eq]

theorem sb_false_iff (w : Word) : sb w = false ↔ 0 ≤ w.toInt := by
  rw [sb, BitVec.msb_eq_toInt, decide_eq_false_iff_not, Int.not_lt]

/-- A raw value is its integer part and its fraction bits. -/
theorem toInt_split (w : Word) : w.toInt = asr w.toInt 32 * 4294967296 + fracBits w := by
  have h : (fracBits w : Int) = w.toInt % 4294967296 := by
    unfold fracBits
    rw [BitVec.toInt_eq_toNat_cond]
    split <;> push_cast <;> omega
  rw [h]
  simp only [asr]
  omega

theorem fracBits_lt (w : Word) : fracBits w < 4294967296 := by
  unfold fracBits; exact Nat.mod_lt _ (by decide)

/-- The sum of the four partial products of R103 is the product, truncated toward minus infinity (R104 item 1). -/
theorem partials_sum (x y : Word) :
    asr (Fx.lolo x y) 32 + Fx.lohi x y + Fx.hilo x y + Fx.hihi x y * 2 ^ 32 = x.toInt * y.toInt / 2 ^ 32 := by
  have hx := toInt_split x
  have hy := toInt_split y
  simp only [Fx.lolo, Fx.lohi, Fx.hilo, Fx.hihi]
  generalize (fracBits x : Int) = a at *
  generalize (fracBits y : Int) = b at *
  generalize asr x.toInt 32 = c at *
  generalize asr y.toInt 32 = d at *
  rw [hx, hy]
  have e : (c * 4294967296 + a) * (d * 4294967296 + b) = a * b + (a * d + c * b + c * d * 2 ^ 32) * 2 ^ 32 := by ring
  rw [e, Int.add_mul_ediv_right _ _ (by decide)]
  simp only [asr]
  ring

namespace Fx

/-- The nibble loop of R105 ends by its own condition. -/
theorem stripNibbles_ends (n d bp : Nat) (h : bp ≤ 4 * n + 3) :
    ¬ ((stripNibbles n d bp).1 % 16 = 0 ∧ 4 ≤ (stripNibbles n d bp).2) := by
  induction n generalizing d bp with
  | zero => simp only [stripNibbles]; omega
  | succ n ih =>
    simp only [stripNibbles]
    split
    · exact ih _ _ (by omega)
    · assumption

/-- What the nibble loop of R105 leaves: the divisor without k trailing zero nibbles, the bit position down by 4 for each. -/
theorem stripNibbles_exact (n d bp : Nat) :
    ∃ k, d = (stripNibbles n d bp).1 * 16 ^ k ∧ bp = (stripNibbles n d bp).2 + 4 * k := by
  induction n generalizing d bp with
  | zero => exact ⟨0, by simp [stripNibbles]⟩
  | succ n ih =>
    simp only [stripNibbles]
    split
    · next h =>
      obtain ⟨k, h1, h2⟩ := ih (d / 16) (bp - 4)
      refine ⟨k + 1, ?_, by omega⟩
      have : d = d / 16 * 16 := by omega
      rw [pow_succ, ← mul_assoc, ← h1]
      exact this
    · exact ⟨0, by simp⟩

/-- The digit loop of R105 ends by its own condition: more rounds change nothing. -/
theorem divDigits_ends (n m rem d q : Nat) (bp : Int) (h : bp < n) :
    divDigits (n + m) rem d q bp = divDigits n rem d q bp := by
  induction n generalizing rem q bp with
  | zero =>
    cases m with
    | zero => rfl
    | succ m =>
      simp only [divDigits]
      rw [if_neg (by push_cast at h; omega)]
  | succ n ih =>
    rw [Nat.add_right_comm]
    simp only [divDigits]
    split
    · split
      · rfl
      · exact ih _ _ _ (by push_cast at h; omega)
    · rfl

theorem shiftRight2_lt (n : Nat) (bit : Word) (h : bit.toNat < 4 ^ (n + 1)) : (bit >>> 2).toNat < 4 ^ n := by
  rw [BitVec.toNat_ushiftRight, Nat.shiftRight_eq_div_pow]
  rw [pow_succ] at h
  omega

/-- The start loop of R160 ends by its own condition. -/
theorem sqrtStart_ends (n : Nat) (num bit : Word) (h : bit.toNat < 4 ^ n) : ¬ num < sqrtStart n num bit := by
  induction n generalizing bit with
  | zero =>
    simp only [sqrtStart, BitVec.lt_def]
    omega
  | succ n ih =>
    simp only [sqrtStart]
    split
    · exact ih _ (shiftRight2_lt n bit h)
    · assumption

/-- The digit loop of R160 ends by its own condition: more rounds change nothing. -/
theorem sqrtDigits_ends (n m : Nat) (bit : Word) (r : SqrtRegs) (h : bit.toNat < 4 ^ n) :
    sqrtDigits (n + m) bit r = sqrtDigits n bit r := by
  induction n generalizing bit r with
  | zero =>
    have hb : bit = 0#64 := BitVec.eq_of_toNat_eq (by simpa using h)
    cases m with
    | zero => rfl
    | succ m => simp only [sqrtDigits, hb, if_true]
  | succ n ih =>
    rw [Nat.add_right_comm]
    simp only [sqrtDigits]
    split
    · rfl
    · split <;> exact ih _ _ (shiftRight2_lt n bit h)

theorem oneV_toInt : oneV.toInt = 4294967296 := by decide

/-- The first normalising loop of R162 ends by its own condition. -/
theorem logUp_ends (n : Nat) (l : LogRegs) (h : 4294967296 ≤ l.r * 2 ^ n) : 4294967296 ≤ (logUp n l).r := by
  induction n generalizing l with
  | zero => simpa [logUp] using h
  | succ n ih =>
    simp only [logUp, oneV_toInt]
    split
    · exact ih _ (by rw [pow_succ] at h; simpa only [mul_assoc, mul_comm (2 : Int)] using h)
    · omega

/-- The second normalising loop of R162 ends by its own condition. -/
theorem logDown_ends (n : Nat) (l : LogRegs) (h : l.r < 8589934592 * 2 ^ n) : (logDown n l).r < 8589934592 := by
  induction n generalizing l with
  | zero => simpa [logDown] using h
  | succ n ih =>
    simp only [logDown, oneV_toInt]
    split
    · refine ih _ ?_
      simp only [asr]
      rw [pow_succ] at h
      generalize (2 : Int) ^ n = p at *
      omega
    · omega

end Fx

end Sys2Proof.Machine
end

