-- ==== Sys2Proof/Laws/State.lean ====
section
/-!
SUPPORT. One lemma per field per update of State, so that no proof unfolds a record update.
-/

namespace Sys2Proof.Machine

@[simp] theorem State.setReg_f (s : State) (r : Reg) (v : Word) : (s.setReg r v).f = s.f.set r.val v := rfl
@[simp] theorem State.setReg_halt (s : State) (r : Reg) (v : Word) : (s.setReg r v).halt = s.halt := rfl
@[simp] theorem State.setReg_cause (s : State) (r : Reg) (v : Word) : (s.setReg r v).cause = s.cause := rfl
@[simp] theorem State.setReg_lost (s : State) (r : Reg) (v : Word) : (s.setReg r v).lost = s.lost := rfl
@[simp] theorem State.setReg_fcmd (s : State) (r : Reg) (v : Word) : (s.setReg r v).fcmd = s.fcmd := rfl
@[simp] theorem State.setReg_inReset (s : State) (r : Reg) (v : Word) : (s.setReg r v).inReset = s.inReset := rfl
@[simp] theorem State.setReg_host (s : State) (r : Reg) (v : Word) : (s.setReg r v).host = s.host := rfl
@[simp] theorem State.setReg_busOut (s : State) (r : Reg) (v : Word) : (s.setReg r v).busOut = s.busOut := rfl

@[simp] theorem State.faultEntry_f (s : State) (c : Cause) (w : CmdWord) : (s.faultEntry c w).f = s.f := rfl
@[simp] theorem State.faultEntry_halt (s : State) (c : Cause) (w : CmdWord) : (s.faultEntry c w).halt = true := rfl
@[simp] theorem State.faultEntry_cause (s : State) (c : Cause) (w : CmdWord) : (s.faultEntry c w).cause = some c := rfl
@[simp] theorem State.faultEntry_lost (s : State) (c : Cause) (w : CmdWord) : (s.faultEntry c w).lost = s.lost := rfl
@[simp] theorem State.faultEntry_fcmd (s : State) (c : Cause) (w : CmdWord) : (s.faultEntry c w).fcmd = w.setWidth 64 := rfl
@[simp] theorem State.faultEntry_inReset (s : State) (c : Cause) (w : CmdWord) : (s.faultEntry c w).inReset = s.inReset := rfl
@[simp] theorem State.faultEntry_host (s : State) (c : Cause) (w : CmdWord) : (s.faultEntry c w).host = s.host := rfl
@[simp] theorem State.faultEntry_busOut (s : State) (c : Cause) (w : CmdWord) : (s.faultEntry c w).busOut = s.busOut := rfl

@[simp] theorem State.resume_f (s : State) : s.resume.f = s.f := rfl
@[simp] theorem State.resume_halt (s : State) : s.resume.halt = false := rfl
@[simp] theorem State.resume_cause (s : State) : s.resume.cause = none := rfl
@[simp] theorem State.resume_lost (s : State) : s.resume.lost = s.lost := rfl
@[simp] theorem State.resume_fcmd (s : State) : s.resume.fcmd = 0#64 := rfl
@[simp] theorem State.resume_inReset (s : State) : s.resume.inReset = s.inReset := rfl
@[simp] theorem State.resume_host (s : State) : s.resume.host = s.host := rfl
@[simp] theorem State.resume_busOut (s : State) : s.resume.busOut = s.busOut := rfl

@[simp] theorem State.discard_f (s : State) : s.discard.f = s.f := rfl
@[simp] theorem State.discard_halt (s : State) : s.discard.halt = s.halt := rfl
@[simp] theorem State.discard_cause (s : State) : s.discard.cause = s.cause := rfl
@[simp] theorem State.discard_lost (s : State) : s.discard.lost = true := rfl
@[simp] theorem State.discard_fcmd (s : State) : s.discard.fcmd = s.fcmd := rfl
@[simp] theorem State.discard_inReset (s : State) : s.discard.inReset = s.inReset := rfl
@[simp] theorem State.discard_host (s : State) : s.discard.host = s.host := rfl
@[simp] theorem State.discard_busOut (s : State) : s.discard.busOut = s.busOut := rfl

@[simp] theorem State.resetTo_f (s : State) (b : Bool) : (s.resetTo b).f = Vector.replicate 32 0#64 := rfl
@[simp] theorem State.resetTo_halt (s : State) (b : Bool) : (s.resetTo b).halt = false := rfl
@[simp] theorem State.resetTo_cause (s : State) (b : Bool) : (s.resetTo b).cause = none := rfl
@[simp] theorem State.resetTo_lost (s : State) (b : Bool) : (s.resetTo b).lost = false := rfl
@[simp] theorem State.resetTo_fcmd (s : State) (b : Bool) : (s.resetTo b).fcmd = 0#64 := rfl
@[simp] theorem State.resetTo_inReset (s : State) (b : Bool) : (s.resetTo b).inReset = b := rfl
@[simp] theorem State.resetTo_host (s : State) (b : Bool) : (s.resetTo b).host = s.host := rfl
@[simp] theorem State.resetTo_busOut (s : State) (b : Bool) : (s.resetTo b).busOut = none := rfl

-- A write to a group is a run of register writes.

@[simp] theorem State.writeGroup_halt (s : State) (r : Reg) (vs : List Word) : (s.writeGroup r vs).halt = s.halt := by
  induction vs generalizing s r with
  | nil => rfl
  | cons v vs ih => simp [State.writeGroup, ih]

@[simp] theorem State.writeGroup_cause (s : State) (r : Reg) (vs : List Word) : (s.writeGroup r vs).cause = s.cause := by
  induction vs generalizing s r with
  | nil => rfl
  | cons v vs ih => simp [State.writeGroup, ih]

@[simp] theorem State.writeGroup_lost (s : State) (r : Reg) (vs : List Word) : (s.writeGroup r vs).lost = s.lost := by
  induction vs generalizing s r with
  | nil => rfl
  | cons v vs ih => simp [State.writeGroup, ih]

@[simp] theorem State.writeGroup_fcmd (s : State) (r : Reg) (vs : List Word) : (s.writeGroup r vs).fcmd = s.fcmd := by
  induction vs generalizing s r with
  | nil => rfl
  | cons v vs ih => simp [State.writeGroup, ih]

@[simp] theorem State.writeGroup_inReset (s : State) (r : Reg) (vs : List Word) : (s.writeGroup r vs).inReset = s.inReset := by
  induction vs generalizing s r with
  | nil => rfl
  | cons v vs ih => simp [State.writeGroup, ih]

@[simp] theorem State.writeGroup_host (s : State) (r : Reg) (vs : List Word) : (s.writeGroup r vs).host = s.host := by
  induction vs generalizing s r with
  | nil => rfl
  | cons v vs ih => simp [State.writeGroup, ih]

@[simp] theorem State.writeGroup_busOut (s : State) (r : Reg) (vs : List Word) : (s.writeGroup r vs).busOut = s.busOut := by
  induction vs generalizing s r with
  | nil => rfl
  | cons v vs ih => simp [State.writeGroup, ih]

@[simp] theorem State.writeGroup_nil (s : State) (r : Reg) : s.writeGroup r [] = s := rfl

@[simp] theorem State.writeGroup_cons (s : State) (r : Reg) (v : Word) (vs : List Word) :
    s.writeGroup r (v :: vs) = (s.setReg r v).writeGroup (r + 1) vs := rfl

-- A host write to FSR (R37).

@[simp] theorem State.writeFsr_f (s : State) (v : Word) : (s.writeFsr v).f = s.f := by
  unfold State.writeFsr; split <;> split <;> rfl

@[simp] theorem State.writeFsr_halt (s : State) (v : Word) : (s.writeFsr v).halt = (if v.getLsbD 0 then false else s.halt) := by
  unfold State.writeFsr; split <;> split <;> rfl

@[simp] theorem State.writeFsr_cause (s : State) (v : Word) : (s.writeFsr v).cause = (if v.getLsbD 0 then none else s.cause) := by
  unfold State.writeFsr; split <;> split <;> rfl

@[simp] theorem State.writeFsr_lost (s : State) (v : Word) : (s.writeFsr v).lost = (if v.getLsbD 4 then false else s.lost) := by
  unfold State.writeFsr; split <;> split <;> rfl

@[simp] theorem State.writeFsr_fcmd (s : State) (v : Word) : (s.writeFsr v).fcmd = (if v.getLsbD 0 then 0#64 else s.fcmd) := by
  unfold State.writeFsr; split <;> split <;> rfl

@[simp] theorem State.writeFsr_inReset (s : State) (v : Word) : (s.writeFsr v).inReset = s.inReset := by
  unfold State.writeFsr; split <;> split <;> rfl

@[simp] theorem State.writeFsr_host (s : State) (v : Word) : (s.writeFsr v).host = s.host := by
  unfold State.writeFsr; split <;> split <;> rfl

@[simp] theorem State.writeFsr_busOut (s : State) (v : Word) : (s.writeFsr v).busOut = s.busOut := by
  unfold State.writeFsr; split <;> split <;> rfl

-- Reading one register.

theorem State.reg_setReg (s : State) (r q : Reg) (v : Word) :
    (s.setReg r v).reg q = if q = r then v else s.reg q := by
  simp only [State.reg, State.setReg, Vector.getElem_set, Fin.ext_iff, eq_comm]

@[simp] theorem State.reg_setReg_same (s : State) (r : Reg) (v : Word) : (s.setReg r v).reg r = v := by
  simp [State.reg_setReg]

theorem State.reg_setReg_other (s : State) (r q : Reg) (v : Word) (h : q ≠ r) : (s.setReg r v).reg q = s.reg q := by
  simp [State.reg_setReg, h]

@[simp] theorem State.reg_faultEntry (s : State) (c : Cause) (w : CmdWord) (q : Reg) : (s.faultEntry c w).reg q = s.reg q := rfl

@[simp] theorem State.reg_resume (s : State) (q : Reg) : s.resume.reg q = s.reg q := rfl

@[simp] theorem State.reg_discard (s : State) (q : Reg) : s.discard.reg q = s.reg q := rfl

@[simp] theorem State.reg_writeFsr (s : State) (v : Word) (q : Reg) : (s.writeFsr v).reg q = s.reg q := by
  simp [State.reg]

@[simp] theorem State.reg_reset (q : Reg) : State.reset.reg q = 0#64 := by
  simp [State.reg, State.reset]

/-- Everything a group write does to the registers: the values land on consecutive registers from the base up, the rest is kept. -/
theorem State.reg_writeGroup (s : State) (r q : Reg) (vs : List Word) (h : r.val + vs.length ≤ 32) :
    (s.writeGroup r vs).reg q = if r.val ≤ q.val then (vs[q.val - r.val]?).getD (s.reg q) else s.reg q := by
  induction vs generalizing s r with
  | nil => simp
  | cons v vs ih =>
    simp only [List.length_cons] at h
    by_cases hr : r.val = 31
    · have hvs : vs = [] := List.eq_nil_of_length_eq_zero (by omega)
      subst hvs
      simp only [State.writeGroup_cons, State.writeGroup_nil, State.reg_setReg, Fin.ext_iff]
      by_cases hq : q.val = r.val
      · simp [hq]
      · have : ¬ r.val ≤ q.val := by omega
        simp [hq, this]
    · have h1 : (r + 1).val = r.val + 1 := by
        have := r.isLt
        simp only [Fin.val_add]
        omega
      rw [State.writeGroup_cons, ih _ _ (by omega), h1, State.reg_setReg]
      simp only [Fin.ext_iff]
      rcases Nat.lt_trichotomy q.val r.val with hq | hq | hq
      · have a : ¬ r.val + 1 ≤ q.val := by omega
        have b : ¬ r.val ≤ q.val := by omega
        have c : ¬ q.val = r.val := by omega
        simp [a, b, c]
      · simp [hq]
      · obtain ⟨k, hk⟩ : ∃ k, q.val - r.val = k + 1 := ⟨q.val - r.val - 1, by omega⟩
        have a : r.val + 1 ≤ q.val := by omega
        have b : r.val ≤ q.val := by omega
        have c : ¬ q.val = r.val := by omega
        have d : q.val - (r.val + 1) = k := by omega
        simp [a, b, c, d, hk]

/-- A group write leaves a register outside the group alone. -/
theorem State.reg_writeGroup_outside (s : State) (r q : Reg) (vs : List Word) (h : r.val + vs.length ≤ 32)
    (hq : q.val < r.val ∨ r.val + vs.length ≤ q.val) : (s.writeGroup r vs).reg q = s.reg q := by
  rw [State.reg_writeGroup s r q vs h]
  split
  · rw [List.getElem?_eq_none (by omega), Option.getD_none]
  · rfl

end Sys2Proof.Machine
end

