-- ==== Sys2Proof/Laws/Ops.lean ====
section
/-!
SUPPORT. How a command ends, said once: `complete`, and through it `exec`, for every command.
-/

namespace Sys2Proof.Machine

/-- Everything `complete` can do. -/
theorem complete_cases (i : Instr) (rd : Reg) (r : Except Cause (List Word)) (s : State) :
    (i.wellFormed = true ∧ ∃ vs, r = .ok vs ∧ complete i rd r s = .next (s.writeGroup rd vs)) ∨
    (i.wellFormed = true ∧ ∃ c, r = .error c ∧ complete i rd r s = .next (s.faultEntry c (encode i))) ∨
    (i.wellFormed = false ∧ complete i rd r s = .next (s.faultEntry .illegalCommand (encode i))) := by
  unfold complete
  cases hw : i.wellFormed with
  | false => right; right; simp
  | true =>
    cases r with
    | ok vs => left; simp
    | error c => right; left; simp

theorem complete_ok (i : Instr) (rd : Reg) (vs : List Word) (s : State) (h : i.wellFormed = true) :
    complete i rd (.ok vs) s = .next (s.writeGroup rd vs) := by simp [complete, h]

theorem complete_error (i : Instr) (rd : Reg) (c : Cause) (s : State) (h : i.wellFormed = true) :
    complete i rd (.error c) s = .next (s.faultEntry c (encode i)) := by simp [complete, h]

theorem complete_illegal (i : Instr) (rd : Reg) (r : Except Cause (List Word)) (s : State) (h : i.wellFormed = false) :
    complete i rd r s = .next (s.faultEntry .illegalCommand (encode i)) := by simp [complete, h]

@[simp] theorem completeS_ok (i : Instr) (rd : Reg) (v : Word) (s : State) (h : i.wellFormed = true) :
    completeS i rd (.ok v) s = .next (s.setReg rd v) := by
  simp [completeS, complete, h, Except.map]

@[simp] theorem completeS_error (i : Instr) (rd : Reg) (c : Cause) (s : State) (h : i.wellFormed = true) :
    completeS i rd (.error c) s = .next (s.faultEntry c (encode i)) := by
  simp [completeS, complete, h, Except.map]

@[simp] theorem completeV_ok (i : Instr) (rd : Reg) (v : Vec3) (s : State) (h : i.wellFormed = true) :
    completeV i rd (.ok v) s = .next (s.writeGroup rd v.toList) := by
  simp [completeV, complete, h, Except.map]

@[simp] theorem completeV_error (i : Instr) (rd : Reg) (c : Cause) (s : State) (h : i.wellFormed = true) :
    completeV i rd (.error c) s = .next (s.faultEntry c (encode i)) := by
  simp [completeV, complete, h, Except.map]

@[simp] theorem completeQ_ok (i : Instr) (rd : Reg) (v : Quat) (s : State) (h : i.wellFormed = true) :
    completeQ i rd (.ok v) s = .next (s.writeGroup rd v.toList) := by
  simp [completeQ, complete, h, Except.map]

@[simp] theorem completeQ_error (i : Instr) (rd : Reg) (c : Cause) (s : State) (h : i.wellFormed = true) :
    completeQ i rd (.error c) s = .next (s.faultEntry c (encode i)) := by
  simp [completeQ, complete, h, Except.map]

/-- A computed destination has as many values as its kind has registers. -/
theorem map_length {α : Type} (g : α → List Word) (n : Nat) (hg : ∀ a, (g a).length = n) (r : Except Cause α) :
    ∀ vs, r.map g = .ok vs → vs.length = n := by
  intro vs h
  cases r with
  | error c => simp [Except.map] at h
  | ok a => simp only [Except.map, Except.ok.injEq] at h; rw [← h, hg]

/-- Every command ends by `complete`, at its own destination and with as many values as its destination has registers. -/
theorem exec_complete (i : Instr) (s : State) :
    ∃ r, exec i s = complete i (destBase i) r s ∧ ∀ vs, r = .ok vs → vs.length = destCount i := by
  cases i <;> simp only [exec,
      execAdd, execSub, execMul, execDiv, execMod, execNeg, execFastadd, execFastsub, execFastmul,
      execFastmod, execAbs, execSign, execFloor, execCeil, execRound, execTrunc, execSqrt, execLog2, execLn,
      execPow2, execPow, execMin, execMax, execClamp, execClamp01, execCmpeq, execCmplt, execCmple, execMov,
      execLi, execLdc, execFromint, execToint, execFromf64, execTof64, execFromf32, execTof32, execVadd,
      execVsub, execVneg, execVscale, execVdivs, execVdot, execVsqrmag, execVmag, execVnorm, execVcross,
      execVproj, execVprojp, execVdist, execVlerp, execVlerpu, execVmin, execVmax, execVeq, execVldc,
      execQmul, execQrot, execQnorm, execQdot, execQinv, execQeq, execQid, completeS, completeV, completeQ] <;>
    exact ⟨_, rfl, by apply map_length; intro _; rfl⟩

/-- A legal command's destination group does not pass f31 (R33). -/
theorem dest_fits (i : Instr) (h : i.wellFormed = true) : (destBase i).val + destCount i ≤ 32 := by
  cases i <;> simp only [destBase, destCount, Instr.wellFormed, vecBase, quatBase, Bool.and_eq_true, decide_eq_true_eq] at h ⊢ <;> omega

/-- Everything `exec` can do, for every command: write the destination, take a fault, or take the illegal-command fault. -/
theorem exec_cases (i : Instr) (s : State) :
    (i.wellFormed = true ∧ ∃ vs, vs.length = destCount i ∧ exec i s = .next (s.writeGroup (destBase i) vs)) ∨
    (i.wellFormed = true ∧ ∃ c, exec i s = .next (s.faultEntry c (encode i))) ∨
    (i.wellFormed = false ∧ exec i s = .next (s.faultEntry .illegalCommand (encode i))) := by
  obtain ⟨r, he, hl⟩ := exec_complete i s
  rw [he]
  rcases complete_cases i (destBase i) r s with ⟨hw, vs, hr, h⟩ | ⟨hw, c, _, h⟩ | ⟨hw, h⟩
  · exact .inl ⟨hw, vs, hl vs hr, h⟩
  · exact .inr (.inl ⟨hw, c, h⟩)
  · exact .inr (.inr ⟨hw, h⟩)

/-- No command stops the machine. -/
theorem exec_next (i : Instr) (s : State) : ∃ t, exec i s = .next t := by
  rcases exec_cases i s with ⟨_, _, _, h⟩ | ⟨_, _, h⟩ | ⟨_, h⟩ <;> exact ⟨_, h⟩

end Sys2Proof.Machine
end

