-- ==== Sys2Proof/Laws/PerInstr.lean ====
section
/-!
SUPPORT. Statements made per instruction. OpcodeField: bits 31:25 of every command's encoding are the opcode of its row (spec R85).
-/

namespace Sys2Proof.Laws.OpcodeField

/-- The opcode of a command's row (R85). -/
def opcode : Instr → Nat
  | .add _ _ _ => 0x01
  | .sub _ _ _ => 0x02
  | .mul _ _ _ => 0x03
  | .div _ _ _ => 0x04
  | .mod _ _ _ => 0x05
  | .neg _ _ => 0x06
  | .fastadd _ _ _ => 0x07
  | .fastsub _ _ _ => 0x08
  | .fastmul _ _ _ => 0x09
  | .fastmod _ _ _ => 0x0A
  | .abs _ _ => 0x10
  | .sign _ _ => 0x11
  | .floor _ _ => 0x12
  | .ceil _ _ => 0x13
  | .round _ _ => 0x14
  | .trunc _ _ => 0x15
  | .sqrt _ _ => 0x18
  | .log2 _ _ => 0x19
  | .ln _ _ => 0x1A
  | .pow2 _ _ => 0x1B
  | .pow _ _ _ => 0x1C
  | .min _ _ _ => 0x20
  | .max _ _ _ => 0x21
  | .clamp _ _ _ _ => 0x22
  | .clamp01 _ _ => 0x23
  | .cmpeq _ _ _ => 0x24
  | .cmplt _ _ _ => 0x25
  | .cmple _ _ _ => 0x26
  | .mov _ _ => 0x28
  | .li _ _ => 0x29
  | .ldc _ _ => 0x2A
  | .fromint _ _ => 0x2B
  | .toint _ _ => 0x2C
  | .fromf64 _ _ => 0x2D
  | .tof64 _ _ => 0x2E
  | .fromf32 _ _ => 0x2F
  | .tof32 _ _ => 0x30
  | .vadd _ _ _ => 0x38
  | .vsub _ _ _ => 0x39
  | .vneg _ _ => 0x3A
  | .vscale _ _ _ => 0x3B
  | .vdivs _ _ _ => 0x3C
  | .vdot _ _ _ => 0x3D
  | .vsqrmag _ _ => 0x3E
  | .vmag _ _ => 0x3F
  | .vnorm _ _ => 0x40
  | .vcross _ _ _ => 0x41
  | .vproj _ _ _ => 0x42
  | .vprojp _ _ _ => 0x43
  | .vdist _ _ _ => 0x44
  | .vlerp _ _ _ _ => 0x45
  | .vlerpu _ _ _ _ => 0x46
  | .vmin _ _ _ => 0x47
  | .vmax _ _ _ => 0x48
  | .veq _ _ _ => 0x49
  | .vldc _ _ => 0x4A
  | .qmul _ _ _ => 0x50
  | .qrot _ _ _ => 0x51
  | .qnorm _ _ => 0x52
  | .qdot _ _ _ => 0x53
  | .qinv _ _ => 0x54
  | .qeq _ _ _ => 0x55
  | .qid _ => 0x56

def Statement (i : Instr) : Prop := bits (encode i) 31 25 = opcode i

theorem ofWordR (op : Nat) (rd rs1 rs2 rs3 : Reg) (h : op < 128) : bits (wordR op rd rs1 rs2 rs3) 31 25 = op := by
  have h0 := rd.isLt; have h1 := rs1.isLt; have h2 := rs2.isLt; have h3 := rs3.isLt
  rw [bits_def, wordR_toNat op rd rs1 rs2 rs3 h]
  omega

theorem ofWordI (op : Nat) (rd : Reg) (imm : BitVec 20) (h : op < 128) : bits (wordI op rd imm) 31 25 = op := by
  have h0 := rd.isLt; have h1 := imm.isLt
  rw [bits_def, wordI_toNat op rd imm h]
  omega

theorem add (rd rs1 rs2 : Reg) : Statement (.add rd rs1 rs2) := ofWordR _ _ _ _ _ (by decide)
theorem sub (rd rs1 rs2 : Reg) : Statement (.sub rd rs1 rs2) := ofWordR _ _ _ _ _ (by decide)
theorem mul (rd rs1 rs2 : Reg) : Statement (.mul rd rs1 rs2) := ofWordR _ _ _ _ _ (by decide)
theorem div (rd rs1 rs2 : Reg) : Statement (.div rd rs1 rs2) := ofWordR _ _ _ _ _ (by decide)
theorem mod (rd rs1 rs2 : Reg) : Statement (.mod rd rs1 rs2) := ofWordR _ _ _ _ _ (by decide)
theorem neg (rd rs1 : Reg) : Statement (.neg rd rs1) := ofWordR _ _ _ _ _ (by decide)
theorem fastadd (rd rs1 rs2 : Reg) : Statement (.fastadd rd rs1 rs2) := ofWordR _ _ _ _ _ (by decide)
theorem fastsub (rd rs1 rs2 : Reg) : Statement (.fastsub rd rs1 rs2) := ofWordR _ _ _ _ _ (by decide)
theorem fastmul (rd rs1 rs2 : Reg) : Statement (.fastmul rd rs1 rs2) := ofWordR _ _ _ _ _ (by decide)
theorem fastmod (rd rs1 rs2 : Reg) : Statement (.fastmod rd rs1 rs2) := ofWordR _ _ _ _ _ (by decide)
theorem abs (rd rs1 : Reg) : Statement (.abs rd rs1) := ofWordR _ _ _ _ _ (by decide)
theorem sign (rd rs1 : Reg) : Statement (.sign rd rs1) := ofWordR _ _ _ _ _ (by decide)
theorem floor (rd rs1 : Reg) : Statement (.floor rd rs1) := ofWordR _ _ _ _ _ (by decide)
theorem ceil (rd rs1 : Reg) : Statement (.ceil rd rs1) := ofWordR _ _ _ _ _ (by decide)
theorem round (rd rs1 : Reg) : Statement (.round rd rs1) := ofWordR _ _ _ _ _ (by decide)
theorem trunc (rd rs1 : Reg) : Statement (.trunc rd rs1) := ofWordR _ _ _ _ _ (by decide)
theorem sqrt (rd rs1 : Reg) : Statement (.sqrt rd rs1) := ofWordR _ _ _ _ _ (by decide)
theorem log2 (rd rs1 : Reg) : Statement (.log2 rd rs1) := ofWordR _ _ _ _ _ (by decide)
theorem ln (rd rs1 : Reg) : Statement (.ln rd rs1) := ofWordR _ _ _ _ _ (by decide)
theorem pow2 (rd rs1 : Reg) : Statement (.pow2 rd rs1) := ofWordR _ _ _ _ _ (by decide)
theorem pow (rd rs1 rs2 : Reg) : Statement (.pow rd rs1 rs2) := ofWordR _ _ _ _ _ (by decide)
theorem min (rd rs1 rs2 : Reg) : Statement (.min rd rs1 rs2) := ofWordR _ _ _ _ _ (by decide)
theorem max (rd rs1 rs2 : Reg) : Statement (.max rd rs1 rs2) := ofWordR _ _ _ _ _ (by decide)
theorem clamp (rd rs1 rs2 rs3 : Reg) : Statement (.clamp rd rs1 rs2 rs3) := ofWordR _ _ _ _ _ (by decide)
theorem clamp01 (rd rs1 : Reg) : Statement (.clamp01 rd rs1) := ofWordR _ _ _ _ _ (by decide)
theorem cmpeq (rd rs1 rs2 : Reg) : Statement (.cmpeq rd rs1 rs2) := ofWordR _ _ _ _ _ (by decide)
theorem cmplt (rd rs1 rs2 : Reg) : Statement (.cmplt rd rs1 rs2) := ofWordR _ _ _ _ _ (by decide)
theorem cmple (rd rs1 rs2 : Reg) : Statement (.cmple rd rs1 rs2) := ofWordR _ _ _ _ _ (by decide)
theorem mov (rd rs1 : Reg) : Statement (.mov rd rs1) := ofWordR _ _ _ _ _ (by decide)
theorem li (rd : Reg) (imm : BitVec 20) : Statement (.li rd imm) := ofWordI _ _ _ (by decide)
theorem ldc (rd : Reg) (k : BitVec 20) : Statement (.ldc rd k) := ofWordI _ _ _ (by decide)
theorem fromint (rd rs1 : Reg) : Statement (.fromint rd rs1) := ofWordR _ _ _ _ _ (by decide)
theorem toint (rd rs1 : Reg) : Statement (.toint rd rs1) := ofWordR _ _ _ _ _ (by decide)
theorem fromf64 (rd rs1 : Reg) : Statement (.fromf64 rd rs1) := ofWordR _ _ _ _ _ (by decide)
theorem tof64 (rd rs1 : Reg) : Statement (.tof64 rd rs1) := ofWordR _ _ _ _ _ (by decide)
theorem fromf32 (rd rs1 : Reg) : Statement (.fromf32 rd rs1) := ofWordR _ _ _ _ _ (by decide)
theorem tof32 (rd rs1 : Reg) : Statement (.tof32 rd rs1) := ofWordR _ _ _ _ _ (by decide)
theorem vadd (rd rs1 rs2 : Reg) : Statement (.vadd rd rs1 rs2) := ofWordR _ _ _ _ _ (by decide)
theorem vsub (rd rs1 rs2 : Reg) : Statement (.vsub rd rs1 rs2) := ofWordR _ _ _ _ _ (by decide)
theorem vneg (rd rs1 : Reg) : Statement (.vneg rd rs1) := ofWordR _ _ _ _ _ (by decide)
theorem vscale (rd rs1 rs2 : Reg) : Statement (.vscale rd rs1 rs2) := ofWordR _ _ _ _ _ (by decide)
theorem vdivs (rd rs1 rs2 : Reg) : Statement (.vdivs rd rs1 rs2) := ofWordR _ _ _ _ _ (by decide)
theorem vdot (rd rs1 rs2 : Reg) : Statement (.vdot rd rs1 rs2) := ofWordR _ _ _ _ _ (by decide)
theorem vsqrmag (rd rs1 : Reg) : Statement (.vsqrmag rd rs1) := ofWordR _ _ _ _ _ (by decide)
theorem vmag (rd rs1 : Reg) : Statement (.vmag rd rs1) := ofWordR _ _ _ _ _ (by decide)
theorem vnorm (rd rs1 : Reg) : Statement (.vnorm rd rs1) := ofWordR _ _ _ _ _ (by decide)
theorem vcross (rd rs1 rs2 : Reg) : Statement (.vcross rd rs1 rs2) := ofWordR _ _ _ _ _ (by decide)
theorem vproj (rd rs1 rs2 : Reg) : Statement (.vproj rd rs1 rs2) := ofWordR _ _ _ _ _ (by decide)
theorem vprojp (rd rs1 rs2 : Reg) : Statement (.vprojp rd rs1 rs2) := ofWordR _ _ _ _ _ (by decide)
theorem vdist (rd rs1 rs2 : Reg) : Statement (.vdist rd rs1 rs2) := ofWordR _ _ _ _ _ (by decide)
theorem vlerp (rd rs1 rs2 rs3 : Reg) : Statement (.vlerp rd rs1 rs2 rs3) := ofWordR _ _ _ _ _ (by decide)
theorem vlerpu (rd rs1 rs2 rs3 : Reg) : Statement (.vlerpu rd rs1 rs2 rs3) := ofWordR _ _ _ _ _ (by decide)
theorem vmin (rd rs1 rs2 : Reg) : Statement (.vmin rd rs1 rs2) := ofWordR _ _ _ _ _ (by decide)
theorem vmax (rd rs1 rs2 : Reg) : Statement (.vmax rd rs1 rs2) := ofWordR _ _ _ _ _ (by decide)
theorem veq (rd rs1 rs2 : Reg) : Statement (.veq rd rs1 rs2) := ofWordR _ _ _ _ _ (by decide)
theorem vldc (rd : Reg) (k : BitVec 20) : Statement (.vldc rd k) := ofWordI _ _ _ (by decide)
theorem qmul (rd rs1 rs2 : Reg) : Statement (.qmul rd rs1 rs2) := ofWordR _ _ _ _ _ (by decide)
theorem qrot (rd rs1 rs2 : Reg) : Statement (.qrot rd rs1 rs2) := ofWordR _ _ _ _ _ (by decide)
theorem qnorm (rd rs1 : Reg) : Statement (.qnorm rd rs1) := ofWordR _ _ _ _ _ (by decide)
theorem qdot (rd rs1 rs2 : Reg) : Statement (.qdot rd rs1 rs2) := ofWordR _ _ _ _ _ (by decide)
theorem qinv (rd rs1 : Reg) : Statement (.qinv rd rs1) := ofWordR _ _ _ _ _ (by decide)
theorem qeq (rd rs1 rs2 : Reg) : Statement (.qeq rd rs1 rs2) := ofWordR _ _ _ _ _ (by decide)
theorem qid (rd : Reg) : Statement (.qid rd) := ofWordR _ _ _ _ _ (by decide)

end Sys2Proof.Laws.OpcodeField
end

