-- ==== Sys2Proof/Laws/Port.lean ====
section
/-!
SUPPORT. The host port and the step, said once: every event the outside world has, and what serving it answers.
-/

namespace Sys2Proof.Machine

/-- A legal access (R62). -/
theorem accessRefusal_none (offset : Nat) : accessRefusal 64 offset = none ↔ offset % 8 = 0 ∧ offset < 0x120 := by
  unfold accessRefusal windowBytes
  simp only [ne_eq, not_true_eq_false, if_false]
  split
  · simp_all
  · split <;> simp_all

/-- An accepted access. -/
theorem serveAccess_accepted (offset : Nat) (s : State) (o : Host.Outcome State Fault Refusal)
    (hr : s.inReset = false) (ha : offset % 8 = 0) (hw : offset < 0x120) : serveAccess 64 offset s o = o := by
  simp [serveAccess, hr, (accessRefusal_none offset).mpr ⟨ha, hw⟩]

/-- Everything `serveAccess` can do. -/
theorem serveAccess_cases (width offset : Nat) (s : State) (o : Host.Outcome State Fault Refusal) :
    (s.inReset = false ∧ accessRefusal width offset = none ∧ serveAccess width offset s o = o) ∨
    ∃ r, serveAccess width offset s o = .refused r := by
  unfold serveAccess
  cases s.inReset with
  | true => right; exact ⟨_, rfl⟩
  | false =>
    cases h : accessRefusal width offset with
    | none => left; simp
    | some r => right; exact ⟨r, rfl⟩

/-- Everything a CMD write can do: be discarded, be illegal, or run one legal command. -/
theorem issueCommand_cases (w : CmdWord) (s : State) :
    (s.halt = true ∧ issueCommand w s = .next s.discard) ∨
    (s.halt = false ∧ decode w = none ∧ issueCommand w s = .next (s.faultEntry .illegalCommand w)) ∨
    (s.halt = false ∧ ∃ i, decode w = some i ∧ issueCommand w s = exec i s) := by
  unfold issueCommand
  cases s.halt with
  | true => left; simp
  | false =>
    cases h : decode w with
    | none => right; left; simp
    | some i => right; right; simp

/-- Everything a write at an accepted offset can do. -/
theorem hostWrite_cases (offset : Nat) (v : Word) (s : State) :
    hostWrite offset v s = .next (s.setReg (Fin.ofNat 32 (offset / 8)) v) ∨
    hostWrite offset v s = .next (s.writeFsr v) ∨
    hostWrite offset v s = issueCommand (v.setWidth 32) s ∨
    hostWrite offset v s = .next s := by
  unfold hostWrite
  split
  · exact .inl rfl
  · split
    · exact .inr (.inl rfl)
    · split
      · exact .inr (.inr (.inl rfl))
      · exact .inr (.inr (.inr rfl))

theorem step_idle (s : State) (h : s.host = []) : step s = .next s := by
  unfold step; rw [h]

theorem step_serve (s : State) (e : HostEvent) (es : List HostEvent) (h : s.host = e :: es) :
    step s = serve e { s with host := es } := by
  unfold step; rw [h]

/-- Everything a step that answers a next state did. -/
theorem step_cases (s t : State) (h : step s = .next t) :
    (s.host = [] ∧ t = s) ∨
    ∃ e es, s.host = e :: es ∧ serve e { s with host := es } = .next t := by
  cases hh : s.host with
  | nil => left; rw [step_idle s hh] at h; cases h; exact ⟨rfl, rfl⟩
  | cons e es => right; exact ⟨e, es, rfl, by rw [← step_serve s e es hh]; exact h⟩

end Sys2Proof.Machine
end

