-- ==== Sys2Proof/Tests/Slice0.lean ====
section
/-!
SUPPORT. The model's own tests: the smoke test of WellFormed, decoding of words written out from the spec's encoding, one step on a small
state per command, and for every obligation with hypotheses a concrete state that meets them. Expected values are those of
spec/95_test_vectors.md (L2) and of the examples in the family files, not the model's own answers.
-/

namespace Sys2Proof.Tests

open Sys2Proof.Machine Sys2Proof.Claims

/-- Right after reset, with these values in the registers from f1 up. -/
def start (vs : List Word) : State := State.reset.writeGroup 1 vs

/-- One step on the command word `w` from `start vs`. -/
def after (w : Nat) (vs : List Word) : Option State :=
  match step ((start vs).withFetchWord 32 w) with
  | .next t => some t
  | _ => none

/-- The registers from f20 up that a command which left the FXU Running wrote. -/
def result (n w : Nat) (vs : List Word) : Option (List Word) :=
  (after w vs).bind fun t => if t.halt then none else some ((List.range n).map fun k => t.reg (Fin.ofNat 32 (20 + k)))

/-- Whether the command faulted with this cause, left every register alone and recorded its word. -/
def faults (c : Cause) (w : Nat) (vs : List Word) : Bool :=
  (after w vs).any fun t => t.halt && t.cause == some c && t.f == (start vs).f && t.fcmd == BitVec.ofNat 64 w

/-- `s` with these accesses as what the host does next. -/
def given (s : State) (es : List HostEvent) : State :=
  match s with
  | ⟨f, halt, cause, lost, fcmd, inReset, _, busOut⟩ => ⟨f, halt, cause, lost, fcmd, inReset, es, busOut⟩

/-- Halted by a division by zero. -/
def halted : State := State.reset.faultEntry .divideByZero 0x08308800#32

-- WellFormed: an ill-formed term for each check (R33, R86 items 4 and 5)

theorem test_vector_base_refused : (Instr.vadd 30 0 0).wellFormed = false ∧ (Instr.vdot 0 30 0).wellFormed = false ∧
    (Instr.qrot 0 0 31).wellFormed = false ∧ (Instr.vldc 30 2#20).wellFormed = false := by decide

theorem test_quaternion_base_refused : (Instr.qmul 29 0 0).wellFormed = false ∧ (Instr.qdot 0 0 29).wellFormed = false ∧
    (Instr.qid 29).wellFormed = false := by decide

theorem test_constant_index_refused : (Instr.ldc 6 7#20).wellFormed = false ∧ (Instr.vldc 8 8#20).wellFormed = false := by decide

theorem test_boundaries_accepted : (Instr.vadd 29 29 29).wellFormed = true ∧ (Instr.qmul 28 28 28).wellFormed = true ∧
    (Instr.ldc 31 6#20).wellFormed = true ∧ (Instr.vldc 29 7#20).wellFormed = true := by decide

-- Decoding: every constructor, from words the spec writes out (95_test_vectors.md L2; R90; R86)

theorem test_decode_scalar_arithmetic :
    decode 0x03408800#32 = some (.add 20 1 2) ∧
    decode 0x05408800#32 = some (.sub 20 1 2) ∧
    decode 0x07408800#32 = some (.mul 20 1 2) ∧
    decode 0x09408800#32 = some (.div 20 1 2) ∧
    decode 0x0B408800#32 = some (.mod 20 1 2) ∧
    decode 0x0D408000#32 = some (.neg 20 1) ∧
    decode 0x0F408800#32 = some (.fastadd 20 1 2) ∧
    decode 0x11408800#32 = some (.fastsub 20 1 2) ∧
    decode 0x13408800#32 = some (.fastmul 20 1 2) ∧
    decode 0x15408800#32 = some (.fastmod 20 1 2) := by decide

theorem test_decode_rounding_sign :
    decode 0x21408000#32 = some (.abs 20 1) ∧
    decode 0x23408000#32 = some (.sign 20 1) ∧
    decode 0x25408000#32 = some (.floor 20 1) ∧
    decode 0x27408000#32 = some (.ceil 20 1) ∧
    decode 0x29408000#32 = some (.round 20 1) ∧
    decode 0x2B408000#32 = some (.trunc 20 1) := by decide

theorem test_decode_sqrt_log_pow :
    decode 0x31408000#32 = some (.sqrt 20 1) ∧
    decode 0x33408000#32 = some (.log2 20 1) ∧
    decode 0x35408000#32 = some (.ln 20 1) ∧
    decode 0x37408000#32 = some (.pow2 20 1) ∧
    decode 0x39408800#32 = some (.pow 20 1 2) := by decide

theorem test_decode_compare_select :
    decode 0x41408800#32 = some (.min 20 1 2) ∧
    decode 0x43408800#32 = some (.max 20 1 2) ∧
    decode 0x45408860#32 = some (.clamp 20 1 2 3) ∧
    decode 0x47408000#32 = some (.clamp01 20 1) ∧
    decode 0x49408800#32 = some (.cmpeq 20 1 2) ∧
    decode 0x4B408800#32 = some (.cmplt 20 1 2) ∧
    decode 0x4D408800#32 = some (.cmple 20 1 2) := by decide

theorem test_decode_move_convert :
    decode 0x51408000#32 = some (.mov 20 1) ∧
    decode 0x57408000#32 = some (.fromint 20 1) ∧
    decode 0x59408000#32 = some (.toint 20 1) ∧
    decode 0x5B408000#32 = some (.fromf64 20 1) ∧
    decode 0x5D408000#32 = some (.tof64 20 1) ∧
    decode 0x5F408000#32 = some (.fromf32 20 1) ∧
    decode 0x61408000#32 = some (.tof32 20 1) := by decide

theorem test_decode_vector :
    decode 0x71409000#32 = some (.vadd 20 1 4) ∧
    decode 0x73409000#32 = some (.vsub 20 1 4) ∧
    decode 0x75408000#32 = some (.vneg 20 1) ∧
    decode 0x77409000#32 = some (.vscale 20 1 4) ∧
    decode 0x79409000#32 = some (.vdivs 20 1 4) ∧
    decode 0x7B409000#32 = some (.vdot 20 1 4) ∧
    decode 0x7D408000#32 = some (.vsqrmag 20 1) ∧
    decode 0x7F408000#32 = some (.vmag 20 1) ∧
    decode 0x81408000#32 = some (.vnorm 20 1) ∧
    decode 0x83409000#32 = some (.vcross 20 1 4) ∧
    decode 0x85409000#32 = some (.vproj 20 1 4) ∧
    decode 0x87409000#32 = some (.vprojp 20 1 4) ∧
    decode 0x89409000#32 = some (.vdist 20 1 4) ∧
    decode 0x8B4090E0#32 = some (.vlerp 20 1 4 7) ∧
    decode 0x8D4090E0#32 = some (.vlerpu 20 1 4 7) ∧
    decode 0x8F409000#32 = some (.vmin 20 1 4) ∧
    decode 0x91409000#32 = some (.vmax 20 1 4) ∧
    decode 0x93409000#32 = some (.veq 20 1 4) := by decide

theorem test_decode_quaternion :
    decode 0xA1409400#32 = some (.qmul 20 1 5) ∧
    decode 0xA3409400#32 = some (.qrot 20 1 5) ∧
    decode 0xA5408000#32 = some (.qnorm 20 1) ∧
    decode 0xA7409400#32 = some (.qdot 20 1 5) ∧
    decode 0xA9408000#32 = some (.qinv 20 1) ∧
    decode 0xAB409400#32 = some (.qeq 20 1 5) := by decide

theorem test_decode_immediates : decode 0x525FFFF9#32 = some (.li 5 0xFFFF9#20) ∧ decode 0x52180000#32 = some (.li 1 0x80000#20) ∧
    decode 0x54600002#32 = some (.ldc 6 2#20) ∧ decode 0x94800007#32 = some (.vldc 8 7#20) ∧ decode 0xAD800000#32 = some (.qid 24) := by
  decide

theorem test_decode_illegal : decode 0x00000000#32 = none ∧ decode 0x16000000#32 = none ∧ decode 0x02110C01#32 = none ∧
    decode 0x0C110400#32 = none ∧ decode 0x54600007#32 = none ∧ decode 0x95E00002#32 = none ∧ decode 0xADD00000#32 = none := by
  decide

/-- The worked examples of R90. -/
theorem test_encode_examples : encode (.add 3 1 2) = 0x02308800#32 ∧ encode (.li 5 (-7)) = 0x525FFFF9#32 := by decide

/-- The examples of R88 and R89. -/
theorem test_assemble : Asm.assemble ("add F3, f1, f2 ; sum".toList) = some (.add 3 1 2) ∧
    Asm.assemble ("LI f5, -7".toList) = some (.li 5 (-7)) ∧ Asm.assemble ("VLDC f8, UP".toList) = some (.vldc 8 2#20) ∧
    Asm.assemble ("LDONE f4".toList) = some (.ldc 4 1#20) := by decide

-- One step per command (95_test_vectors.md L2)

theorem test_add : result 1 0x03408800 [0x7FFFFFFFFFFFFFFF#64, 0x0000000000000001#64] =
    some [0x7FFFFFFFFFFFFFFF#64] := by decide

theorem test_sub : result 1 0x05408800 [0x0000000000000000#64, 0x8000000000000000#64] =
    some [0x7FFFFFFFFFFFFFFF#64] := by decide

theorem test_mul : result 1 0x07408800 [0x80000000D1FCADEF#64, 0xFFFFFFFEFFFFFFFF#64] =
    some [0x7FFFFFFFFFFFFFFF#64] := by decide

theorem test_div : result 1 0x09408800 [0xFFFFFFFFFFFFFFFF#64, 0x0000000200000000#64] =
    some [0xFFFFFFFFFFFFFFFF#64] := by decide

theorem test_div_fault : faults .divideByZero 0x09408800 [0x0000000700000000#64, 0x0000000000000000#64] = true := by decide

theorem test_mod : result 1 0x0B408800 [0xFFFFFFF900000000#64, 0x0000000300000000#64] =
    some [0xFFFFFFFF00000000#64] := by decide

theorem test_mod_fault : faults .divideByZero 0x0B408800 [0x0000000100000000#64, 0x0000000000000000#64] = true := by decide

theorem test_neg : result 1 0x0D408000 [0x8000000000000000#64] =
    some [0x7FFFFFFFFFFFFFFF#64] := by decide

theorem test_fastadd : result 1 0x0F408800 [0x7FFFFFFFFFFFFFFF#64, 0x0000000000000001#64] =
    some [0x8000000000000000#64] := by decide

theorem test_fastsub : result 1 0x11408800 [0x8000000000000000#64, 0x0000000000000001#64] =
    some [0x7FFFFFFFFFFFFFFF#64] := by decide

theorem test_fastmul : result 1 0x13408800 [0xFFFFFFFF00000000#64, 0x8000000000000000#64] =
    some [0x8000000000000000#64] := by decide

theorem test_fastmod : result 1 0x15408800 [0xFFFFFFF900000000#64, 0x0000000300000000#64] =
    some [0xFFFFFFFF00000000#64] := by decide

theorem test_fastmod_fault : faults .divideByZero 0x15408800 [0x0000000100000000#64, 0x0000000000000000#64] = true := by decide

theorem test_abs : result 1 0x21408000 [0x8000000000000000#64] =
    some [0x7FFFFFFFFFFFFFFF#64] := by decide

theorem test_sign : result 1 0x23408000 [0xFFFFFFFFFFFFFFFB#64] =
    some [0xFFFFFFFF00000000#64] := by decide

theorem test_floor : result 1 0x25408000 [0xFFFFFFFD80000000#64] =
    some [0xFFFFFFFD00000000#64] := by decide

theorem test_ceil : result 1 0x27408000 [0x0000000000000001#64] =
    some [0x0000000100000000#64] := by decide

theorem test_round : result 1 0x29408000 [0xFFFFFFFD80000000#64] =
    some [0xFFFFFFFE00000000#64] := by decide

theorem test_trunc : result 1 0x2B408000 [0xFFFFFFFE00000000#64] =
    some [0xFFFFFFFF00000000#64] := by decide

theorem test_sqrt : result 1 0x31408000 [0x0000000200000000#64] =
    some [0x000000016A09E668#64] := by decide

theorem test_sqrt_fault : faults .domainError 0x31408000 [0xFFFFFFFFFFFFFFFF#64] = true := by decide

theorem test_log2 : result 1 0x33408000 [0x0000000000000001#64] =
    some [0xFFFFFFE000000000#64] := by decide

theorem test_log2_fault : faults .domainError 0x33408000 [0x0000000000000000#64] = true := by decide

theorem test_ln : result 1 0x35408000 [0x0000000000000001#64] =
    some [0xFFFFFFE9D1BD0120#64] := by decide

theorem test_ln_fault : faults .domainError 0x35408000 [0x0000000000000000#64] = true := by decide

theorem test_pow2 : result 1 0x37408000 [0xFFFFFFE080000000#64] =
    some [0x0000000000000002#64] := by decide

theorem test_pow : result 1 0x39408800 [0x0000000A00000000#64, 0x0000000200000000#64] =
    some [0x00000063FFFFFF80#64] := by decide

theorem test_pow_fault : faults .domainError 0x39408800 [0xFFFFFFFE00000000#64, 0x0000000100000000#64] = true := by decide

theorem test_min : result 1 0x41408800 [0x8000000000000000#64, 0x7FFFFFFFFFFFFFFF#64] =
    some [0x8000000000000000#64] := by decide

theorem test_max : result 1 0x43408800 [0xFFFFFFFF00000000#64, 0xFFFFFFFE00000000#64] =
    some [0xFFFFFFFF00000000#64] := by decide

theorem test_clamp : result 1 0x45408860 [0x0000000200000000#64, 0x0000000300000000#64, 0x0000000100000000#64] =
    some [0x0000000300000000#64] := by decide

theorem test_clamp01 : result 1 0x47408000 [0xFFFFFFFF80000000#64] =
    some [0x0000000000000000#64] := by decide

theorem test_cmpeq : result 1 0x49408800 [0x0000000100000000#64, 0x0000000200000000#64] =
    some [0x0000000000000000#64] := by decide

theorem test_cmplt : result 1 0x4B408800 [0x8000000000000000#64, 0x7FFFFFFFFFFFFFFF#64] =
    some [0x0000000100000000#64] := by decide

theorem test_cmple : result 1 0x4D408800 [0x0000000100000000#64, 0x0000000100000000#64] =
    some [0x0000000100000000#64] := by decide

theorem test_mov : result 1 0x51408000 [0x123456789ABCDEF0#64] =
    some [0x123456789ABCDEF0#64] := by decide

theorem test_fromint : result 1 0x57408000 [0x0000000100000003#64] =
    some [0x0000000300000000#64] := by decide

theorem test_toint : result 1 0x59408000 [0xFFFFFFFD80000000#64] =
    some [0xFFFFFFFFFFFFFFFD#64] := by decide

theorem test_fromf64 : result 1 0x5B408000 [0xBFB999999999999A#64] =
    some [0xFFFFFFFFE6666667#64] := by decide

theorem test_tof64 : result 1 0x5D408000 [0x7FFFFFFFFFFFFFFF#64] =
    some [0x41E0000000000000#64] := by decide

theorem test_fromf32 : result 1 0x5F408000 [0xFFFFFFFF3FC00000#64] =
    some [0x0000000180000000#64] := by decide

theorem test_tof32 : result 1 0x61408000 [0x000000016A09E667#64] =
    some [0x000000003FB504F3#64] := by decide

theorem test_vadd : result 3 0x71409000 [0x7FFFFFFFFFFFFFFF#64, 0x0000000000000000#64, 0x0000000000000000#64, 0x0000000100000000#64, 0x0000000000000000#64, 0x0000000000000000#64] =
    some [0x7FFFFFFFFFFFFFFF#64, 0x0000000000000000#64, 0x0000000000000000#64] := by decide

theorem test_vsub : result 3 0x73409000 [0x0000000100000000#64, 0x0000000200000000#64, 0x0000000300000000#64, 0x0000000400000000#64, 0x0000000500000000#64, 0x0000000600000000#64] =
    some [0xFFFFFFFD00000000#64, 0xFFFFFFFD00000000#64, 0xFFFFFFFD00000000#64] := by decide

theorem test_vneg : result 3 0x75408000 [0x0000000100000000#64, 0x8000000000000000#64, 0x0000000000000000#64] =
    some [0xFFFFFFFF00000000#64, 0x7FFFFFFFFFFFFFFF#64, 0x0000000000000000#64] := by decide

theorem test_vscale : result 3 0x77409000 [0x0000000100000000#64, 0x0000000200000000#64, 0x0000000300000000#64, 0x0000000080000000#64] =
    some [0x0000000080000000#64, 0x0000000100000000#64, 0x0000000180000000#64] := by decide

theorem test_vdivs : result 3 0x79409000 [0x0000000100000000#64, 0x0000000200000000#64, 0x0000000300000000#64, 0x0000000200000000#64] =
    some [0x0000000080000000#64, 0x0000000100000000#64, 0x0000000180000000#64] := by decide

theorem test_vdivs_fault : faults .divideByZero 0x79409000 [0x0000000000000000#64, 0x0000000000000000#64, 0x0000000000000000#64, 0x0000000000000000#64] = true := by decide

theorem test_vdot : result 1 0x7B409000 [0x7FFFFFFFFFFFFFFF#64, 0x7FFFFFFFFFFFFFFF#64, 0x8000000000000000#64, 0x0000000100000000#64, 0x0000000100000000#64, 0x0000000100000000#64] =
    some [0xFFFFFFFFFFFFFFFF#64] := by decide

theorem test_vsqrmag : result 1 0x7D408000 [0x0000000300000000#64, 0x0000000400000000#64, 0x0000000000000000#64] =
    some [0x0000001900000000#64] := by decide

theorem test_vmag : result 1 0x7F408000 [0x7FFFFFFFFFFFFFFF#64, 0x7FFFFFFFFFFFFFFF#64, 0x7FFFFFFFFFFFFFFF#64] =
    some [0x0000B504F333F9DE#64] := by decide

theorem test_vnorm : result 3 0x81408000 [0x0000000300000000#64, 0x0000000400000000#64, 0x0000000000000000#64] =
    some [0x000000009999999A#64, 0x00000000CCCCCCCD#64, 0x0000000000000000#64] := by decide

theorem test_vcross : result 3 0x83409000 [0x0000007B4CCCCCCC#64, 0x0000001700000000#64, 0xFFFFFFF400000000#64, 0xFFFFFFF400000000#64, 0xFFFFFFE8E147AE15#64, 0xFFFFFF84CCCCCCCD#64] =
    some [0xFFFFF3D8F5C28F67#64, 0x00003BE68F5C287B#64, 0xFFFFF5F14DD2F1FC#64] := by decide

theorem test_vproj : result 3 0x85409000 [0x0000000300000000#64, 0x0000000400000000#64, 0x0000000000000000#64, 0x0000000200000000#64, 0x0000000000000000#64, 0x0000000000000000#64] =
    some [0x0000000300000000#64, 0x0000000000000000#64, 0x0000000000000000#64] := by decide

theorem test_vproj_fault : faults .divideByZero 0x85409000 [0x0000000100000000#64, 0x0000000100000000#64, 0x0000000100000000#64, 0x0000000000000000#64, 0x0000000000000000#64, 0x0000000000000000#64] = true := by decide

theorem test_vprojp : result 3 0x87409000 [0x0000000300000000#64, 0x0000000400000000#64, 0x0000000500000000#64, 0x0000000000000000#64, 0x0000000000000000#64, 0x0000000100000000#64] =
    some [0x0000000300000000#64, 0x0000000400000000#64, 0x0000000000000000#64] := by decide

theorem test_vprojp_fault : faults .divideByZero 0x87409000 [0x0000000100000000#64, 0x0000000100000000#64, 0x0000000100000000#64, 0x0000000000000000#64, 0x0000000000000000#64, 0x0000000000000000#64] = true := by decide

theorem test_vdist : result 1 0x89409000 [0x0000000100000000#64, 0x0000000100000000#64, 0x0000000100000000#64, 0x0000000400000000#64, 0x0000000500000000#64, 0x0000000100000000#64] =
    some [0x0000000500000000#64] := by decide

theorem test_vlerp : result 3 0x8B4090E0 [0x0000000000000000#64, 0x0000000000000000#64, 0x0000000000000000#64, 0x0000000A00000000#64, 0x0000001400000000#64, 0xFFFFFFF600000000#64, 0x0000000200000000#64] =
    some [0x0000000A00000000#64, 0x0000001400000000#64, 0xFFFFFFF600000000#64] := by decide

theorem test_vlerpu : result 3 0x8D4090E0 [0x0000000000000000#64, 0x0000000000000000#64, 0x0000000000000000#64, 0x0000000A00000000#64, 0x0000001400000000#64, 0xFFFFFFF600000000#64, 0xFFFFFFFF00000000#64] =
    some [0xFFFFFFF600000000#64, 0xFFFFFFEC00000000#64, 0x0000000A00000000#64] := by decide

theorem test_vmin : result 3 0x8F409000 [0x0000000100000000#64, 0x0000000500000000#64, 0xFFFFFFFF00000000#64, 0x0000000200000000#64, 0x0000000300000000#64, 0xFFFFFFFE00000000#64] =
    some [0x0000000100000000#64, 0x0000000300000000#64, 0xFFFFFFFE00000000#64] := by decide

theorem test_vmax : result 3 0x91409000 [0x0000000100000000#64, 0x0000000500000000#64, 0xFFFFFFFF00000000#64, 0x0000000200000000#64, 0x0000000300000000#64, 0xFFFFFFFE00000000#64] =
    some [0x0000000200000000#64, 0x0000000500000000#64, 0xFFFFFFFF00000000#64] := by decide

theorem test_veq : result 1 0x93409000 [0x0000000100000000#64, 0x0000000000000000#64, 0x0000000000000000#64, 0x0000000000000000#64, 0x0000000100000000#64, 0x0000000000000000#64] =
    some [0x0000000100000000#64] := by decide

theorem test_qmul : result 4 0xA1409400 [0x0000000000000000#64, 0x0000000100000000#64, 0x0000000000000000#64, 0x0000000000000000#64, 0x0000000100000000#64, 0x0000000000000000#64, 0x0000000000000000#64, 0x0000000000000000#64] =
    some [0x0000000000000000#64, 0x0000000000000000#64, 0xFFFFFFFF00000000#64, 0x0000000000000000#64] := by decide

theorem test_qrot : result 3 0xA3409400 [0x0000000000000000#64, 0x0000000000000000#64, 0x00000000B504F333#64, 0x00000000B504F333#64, 0x0000000100000000#64, 0x0000000000000000#64, 0x0000000000000000#64] =
    some [0x0000000000000003#64, 0x00000000FFFFFFFD#64, 0x0000000000000000#64] := by decide

theorem test_qnorm : result 4 0xA5408000 [0x0000000100000000#64, 0x0000000200000000#64, 0x0000000300000000#64, 0x0000000400000000#64] =
    some [0x000000002EBD2E8D#64, 0x000000005D7A5D1A#64, 0x000000008C378BA8#64, 0x00000000BAF4BA35#64] := by decide

theorem test_qdot : result 1 0xA7409400 [0x0000000100000000#64, 0x0000000200000000#64, 0x0000000300000000#64, 0x0000000400000000#64, 0x0000000500000000#64, 0x0000000600000000#64, 0x0000000700000000#64, 0x0000000800000000#64] =
    some [0x0000004600000000#64] := by decide

theorem test_qinv : result 4 0xA9408000 [0x8000000000000000#64, 0x0000000000000000#64, 0x0000000000000000#64, 0x8000000000000000#64] =
    some [0x7FFFFFFFFFFFFFFF#64, 0x0000000000000000#64, 0x0000000000000000#64, 0x8000000000000000#64] := by decide

theorem test_qeq : result 1 0xAB409400 [0x0000000000000000#64, 0x0000000000000000#64, 0x00000000B504F333#64, 0x00000000B504F333#64, 0x0000000000000000#64, 0x0000000000000000#64, 0x00000000B504F333#64, 0x00000000B504F333#64] =
    some [0x0000000000000000#64] := by decide

theorem test_li : (after 0x52180000 []).map (·.reg 1) = some 0xFFF8000000000000#64 := by decide

theorem test_ldc : (after 0x54600004 []).map (·.reg 6) = some 0x00000000B17217F7#64 := by decide

theorem test_vldc : (after 0x94800007 []).map (fun t => (t.reg 8, t.reg 9, t.reg 10)) = some (0#64, 0#64, 0xFFFFFFFF00000000#64) := by
  decide

theorem test_qid : (after 0xAD800000 []).map (fun t => (t.reg 26, t.reg 27, t.reg 28)) = some (0#64, 0x0000000100000000#64, 0#64) := by
  decide

theorem test_illegal_group : faults .illegalCommand 0x95E00002 [] = true := by decide

theorem test_illegal_zero_word : faults .illegalCommand 0x00000000 [] = true := by decide

/-- Sources are read before the destination is written (R34): ADD f1, f1, f1. -/
theorem test_overlap : (after 0x02108400 [5#64]).map (·.reg 1) = some 10#64 := by decide

/-- FSR of a halted FXU that lost a command reads 0x13 (program P3, access 5). -/
theorem test_fsr_after_lost_command : halted.discard.fsr = 0x13#64 := by decide

-- Witnesses: for every obligation with hypotheses, a concrete state that meets them, clause by clause

theorem witness_DecodeOfEncode : (Instr.qrot 29 28 29).wellFormed = true ∧ (Instr.li 31 0xFFFFF#20).wellFormed = true := by decide

theorem witness_EncodeOfDecode : decode 0x8B4090E0#32 = some (.vlerp 20 1 4 7) := by decide

theorem witness_IllegalWordsRaiseIllegalCommand : (127 < 128 ∧ State.reset.halt = false) ∧ IllegalWord 0x02110C01#32 ∧
    decode 0x02308800#32 = some (.add 3 1 2) := ⟨by decide, Or.inl (by decide), by decide⟩

theorem witness_StepRunsDecodedCommand :
    (given State.reset [.write 64 0x118 0xFFFFFFFF02308800#64]).host = [.write 64 0x118 0xFFFFFFFF02308800#64] ∧
    (given State.reset [.write 64 0x118 0xFFFFFFFF02308800#64]).inReset = false ∧
    (given State.reset [.write 64 0x118 0xFFFFFFFF02308800#64]).halt = false ∧
    decode (BitVec.setWidth 32 0xFFFFFFFF02308800#64) = some (.add 3 1 2) ∧ State.reset.host = [] := by decide

theorem witness_ResetInputFromEveryState :
    (given halted [.resetAssert]).host = [.resetAssert] ∧ (given halted [.resetRelease]).host = [.resetRelease] ∧
    (given (halted.resetTo true) [.read 64 0]).inReset = true ∧ (given (halted.resetTo true) [.read 64 0]).host = [.read 64 0] ∧
    (given (halted.resetTo true) [.write 64 0x118 0]).inReset = true ∧
    (given (halted.resetTo true) [.write 64 0x118 0]).host = [.write 64 0x118 0] := by decide

theorem witness_OnlyLegalAccessesAreServed :
    State.reset.inReset = false ∧ (given State.reset [.read 32 0]).host = [.read 32 0] ∧
    (given State.reset [.read 64 0x11C]).host = [.read 64 0x11C] ∧ (given State.reset [.write 64 0x120 0]).host = [.write 64 0x120 0] ∧
    (given State.reset [.write 64 0x118 0]).host = [.write 64 0x118 0] ∧ (given State.reset [.read 64 0x118]).host = [.read 64 0x118] := by
  decide

theorem witness_HostReadsReturnTheMap : State.reset.inReset = false ∧
    (given State.reset [.read 64 0xF8]).host = [.read 64 0xF8] ∧ 0xF8 % 8 = 0 ∧ 0xF8 < 0x120 ∧ 0xF8 = 8 * (31 : Reg).val ∧
    (∀ off ∈ [0x100, 0x108, 0x110, 0x118], (given State.reset [.read 64 off]).host = [.read 64 off] ∧ off % 8 = 0 ∧ off < 0x120) := by
  decide

theorem witness_HostWritesFollowTheMap : State.reset.inReset = false ∧ 0xF8 = 8 * (31 : Reg).val ∧
    (∀ off ∈ [0xF8, 0x100, 0x108, 0x110], (given State.reset [.write 64 off 1]).host = [.write 64 off 1]) := by decide

theorem witness_GroupWriteAndRead : (28 : Reg).val + [1#64, 2#64, 3#64, 4#64].length ≤ 32 ∧ (29 : Reg).val + 2 < 32 ∧
    (28 : Reg).val + 3 < 32 := by decide

theorem witness_RawRoundTrip :
    (given State.reset [.write 64 (8 * (31 : Reg).val) 7, .read 64 (8 * (31 : Reg).val)]).inReset = false ∧
    (given State.reset [.write 64 (8 * (31 : Reg).val) 7, .read 64 (8 * (31 : Reg).val)]).host =
      [.write 64 (8 * (31 : Reg).val) 7, .read 64 (8 * (31 : Reg).val)] := by decide

theorem witness_BytesAreLittleEndian : 0x118 % 8 = 0 ∧ 7 < 8 ∧ 0x118 + 7 < 0x120 := by decide

theorem witness_HaltedDiscardsCommands : halted.halt = true ∧ halted.inReset = false ∧
    (∀ e ∈ [.write 64 0x118 0, .read 64 0x118, .write 64 (8 * (31 : Reg).val) 1, .write 64 0x100 0x11], (given halted [e]).host = [e]) ∧
    0x118 % 8 = 0 ∧ 0x118 < 0x120 := by decide

theorem witness_ResumeIsTheOnlyWayOut :
    ((given halted [.write 64 0x100 1]).inReset = false ∧ (given halted [.write 64 0x100 1]).host = [.write 64 0x100 1] ∧
      BitVec.getLsbD 1#64 0 = true) ∧
    (∃ t, step (given halted [.write 64 0x100 1]) = .next t ∧ (given halted [.write 64 0x100 1]).halt = true ∧ t.halt = false) ∧
    (∃ t, step (given halted.discard [.write 64 0x100 0x10]) = .next t ∧ (given halted.discard [.write 64 0x100 0x10]).lost = true ∧
      t.lost = false) ∧
    ((given State.reset [.write 64 0x100 1]).StatusConsistent ∧ (given State.reset [.write 64 0x100 1]).halt = false ∧
      (given State.reset [.write 64 0x100 1]).inReset = false ∧ (given State.reset [.write 64 0x100 1]).host = [.write 64 0x100 1]) :=
  ⟨by decide, ⟨_, rfl, by decide⟩, ⟨_, rfl, by decide⟩, by decide⟩

theorem witness_FaultsNeverNest : ∃ t, step (given halted [.write 64 0x118 0x02308800#64]) = .next t ∧
    (given halted [.write 64 0x118 0x02308800#64]).halt = true ∧ t.halt = true ∧
    (given halted [.write 64 0x118 0x02308800#64]).host = .write 64 0x118 0x02308800#64 :: [] := ⟨_, rfl, by decide⟩

theorem witness_FaultsArePrecise : (∃ t, State.reset.halt = false ∧ exec (.div 3 1 2) State.reset = .next t ∧ t.halt = true) ∧
    State.reset.halt = false ∧ decode 0#32 = none := ⟨⟨_, rfl, rfl, by decide⟩, by decide⟩

theorem witness_FaultsExactlyAsListed :
    ((Instr.div 3 1 2).wellFormed = true ∧ Raises (.div 3 1 2) (start [5]) .divideByZero) ∧
    ((Instr.div 3 1 2).wellFormed = true ∧ ∀ c, ¬ Raises (.div 3 1 2) (start [5, 1]) c) ∧
    (Instr.vadd 30 0 0).wellFormed = false :=
  ⟨⟨by decide, rfl, by decide⟩, ⟨by decide, fun _ h => absurd h.2 (by decide)⟩, by decide⟩

theorem witness_IssuedWordsFaultAsListed :
    (State.reset.halt = false ∧ decode 0#32 = none) ∧
    ((start [5]).halt = false ∧ decode 0x08308800#32 = some (.div 3 1 2) ∧ Raises (.div 3 1 2) (start [5]) .divideByZero) ∧
    ((start [5, 1]).halt = false ∧ ∀ c, ¬ Raises (.div 3 1 2) (start [5, 1]) c) :=
  ⟨by decide, ⟨by decide, by decide, rfl, by decide⟩, ⟨by decide, fun _ h => absurd h.2 (by decide)⟩⟩

theorem witness_CommandsFrame : (∃ t, exec (.vadd 29 0 1) State.reset = .next t) ∧ ¬ IsDest (.vadd 29 0 1) 28 := ⟨⟨_, rfl⟩, by decide⟩

theorem witness_StepKeepsStatusConsistent : (given State.reset [.write 64 0x118 0x08308800#64]).StatusConsistent ∧
    ∃ t, step (given State.reset [.write 64 0x118 0x08308800#64]) = .next t := ⟨by decide, ⟨_, rfl⟩⟩

theorem witness_FastVariantsWrap :
    (-2 ^ 63 ≤ ((start [maxV, 0]).reg 1).toInt + ((start [maxV, 0]).reg 2).toInt ∧
      ((start [maxV, 0]).reg 1).toInt + ((start [maxV, 0]).reg 2).toInt < 2 ^ 63) ∧
    (-2 ^ 63 ≤ ((start [minV, 0]).reg 1).toInt - ((start [minV, 0]).reg 2).toInt ∧
      ((start [minV, 0]).reg 1).toInt - ((start [minV, 0]).reg 2).toInt < 2 ^ 63) ∧
    (FloorInRange ((start [minV, oneV]).reg 1) ((start [minV, oneV]).reg 2) ∧
      TopIsClear ((start [minV, oneV]).reg 1) ((start [minV, oneV]).reg 2)) := by decide

/-- Out of range both ways; in range with `top` -1 and 0; and R104 item 4's operands, in range with another `top`. -/
theorem witness_MulIsFloorOrBound :
    ¬ FloorInRange ((start [maxV, maxV]).reg 1) ((start [maxV, maxV]).reg 2) ∧
    ¬ FloorInRange ((start [maxV, minV]).reg 1) ((start [maxV, minV]).reg 2) ∧
    (FloorInRange ((start [minV, oneV]).reg 1) ((start [minV, oneV]).reg 2) ∧
      TopIsClear ((start [minV, oneV]).reg 1) ((start [minV, oneV]).reg 2)) ∧
    (FloorInRange ((start [maxV, oneV]).reg 1) ((start [maxV, oneV]).reg 2) ∧
      TopIsClear ((start [maxV, oneV]).reg 1) ((start [maxV, oneV]).reg 2)) ∧
    (FloorInRange ((start [0x80000000D1FCADEF, 0xFFFFFFFEFFFFFFFF]).reg 1) ((start [0x80000000D1FCADEF, 0xFFFFFFFEFFFFFFFF]).reg 2) ∧
      ¬ TopIsClear ((start [0x80000000D1FCADEF, 0xFFFFFFFEFFFFFFFF]).reg 1)
        ((start [0x80000000D1FCADEF, 0xFFFFFFFEFFFFFFFF]).reg 2)) := by decide

theorem witness_DivIsItsClosedForm : (start [minV, 1]).reg 2 ≠ 0#64 ∧ (start [0, 0]).reg 2 = 0#64 := by decide

theorem witness_ModIsTruncatedRemainder : (start [minV, -1]).reg 2 ≠ 0#64 ∧ (start [1, 0]).reg 2 = 0#64 := by decide

theorem witness_FastModFollowsItsParameter :
    ((start [minV, 1]).reg 2 ≠ 0#64 ∧ ¬ ((start [minV, 1]).reg 1 = minV ∧ ((start [minV, 1]).reg 2).toInt = -1)) ∧
    ((start [minV, -1]).reg 1 = minV ∧ ((start [minV, -1]).reg 2).toInt = -1) ∧ (start [1, 0]).reg 2 = 0#64 := by decide

theorem witness_SqrtIsTheDigitLoopRoot : 0 ≤ ((start [0]).reg 1).toInt ∧ ((start [-1]).reg 1).toInt < 0 ∧
    ((start [0x3FFFFFFFFFFFFFFF#64]).reg 1).toInt < 2 ^ 62 ∧ ¬ ((start [0x790000014244B001#64]).reg 1).toInt < 2 ^ 62 := by decide

theorem witness_Log2RangeAndPowersOfTwo : 0 < ((start [1]).reg 1).toInt ∧ ((start [1]).reg 1).toInt = 2 ^ 0 ∧
    ((start [0]).reg 1).toInt ≤ 0 := by decide

theorem witness_LnIsLog2TimesLn2 : 0 < ((start [1]).reg 1).toInt ∧ ((start [0]).reg 1).toInt ≤ 0 := by decide

theorem witness_Pow2Saturates : (start [0]).reg 1 = 0#64 ∧ 31 * 2 ^ 32 ≤ ((start [0x0000001F00000000#64]).reg 1).toInt ∧
    ((start [0xFFFFFFE000000000#64]).reg 1).toInt ≤ -32 * 2 ^ 32 ∧ -32 * 2 ^ 32 < ((start [0xFFFFFFE000000001#64]).reg 1).toInt ∧
    ((start [0xFFFFFFE000000001#64]).reg 1).toInt ≤ -31 * 2 ^ 32 := by decide

theorem witness_Pow2SeriesIsBounded : (0x00000000FFFFFFFF#64 : Word).toNat < 2 ^ 32 ∧
    (0 < ((start [0x0000001EFFFFFFFF#64]).reg 1).toInt ∧ ((start [0x0000001EFFFFFFFF#64]).reg 1).toInt < 31 * 2 ^ 32) ∧
    (-31 * 2 ^ 32 < ((start [0xFFFFFFE100000001#64]).reg 1).toInt ∧ ((start [0xFFFFFFE100000001#64]).reg 1).toInt < 0) := by decide

theorem witness_PowSpecialCases : ((start [oneV, 5]).reg 1 = oneV ∧ (start [0, 0]).reg 2 = 0#64) ∧
    ((start [0, 1]).reg 1 = 0#64 ∧ 0 < ((start [0, 1]).reg 2).toInt) ∧
    ((start [0, -1]).reg 1 = 0#64 ∧ ((start [0, -1]).reg 2).toInt < 0) ∧
    (((start [-1, 1]).reg 1).toInt < 0 ∧ (start [-1, 1]).reg 2 ≠ 0#64) ∧
    (0 < ((start [1, 1]).reg 1).toInt ∧ (start [1, 1]).reg 1 ≠ oneV ∧ (start [1, 1]).reg 2 ≠ 0#64) := by decide

theorem witness_SelectionsFollowTheOrder : ((start [0, 1, 1]).reg 2).toInt ≤ ((start [0, 1, 1]).reg 3).toInt ∧
    ((start [0, 1, 0]).reg 3).toInt < ((start [0, 1, 0]).reg 2).toInt := by decide

theorem witness_FloatsTruncateToFixed :
    ¬ FloatOutOfRange 11 52 ((start [0xC1E0000000000000#64]).reg 1).toNat ∧ FloatOutOfRange 11 52 ((start [0x41E0000000000000#64]).reg 1).toNat ∧
    ¬ FloatOutOfRange 8 23 (((start [0x00000000CF000000#64]).reg 1).toNat % 2 ^ 32) ∧
    FloatOutOfRange 8 23 (((start [0x000000004F000000#64]).reg 1).toNat % 2 ^ 32) := by
  have h : ∀ v : Word, (start [v]).reg 1 = v := fun v => by simp [start]
  simp only [h]
  refine ⟨?_, ?_, ?_, ?_⟩ <;> norm_num [FloatOutOfRange, BinaryFinite, truncQ, binaryValue]

theorem witness_FloatRoundTripOn53Bits : ((start [0x7FFFFFFFFFFFFC00#64]).reg 1).toInt = (2 ^ 53 - 1) * 2 ^ 10 ∧
    Int.natAbs (2 ^ 53 - 1) < 2 ^ 53 := by decide

theorem witness_VectorComponentwise : vecBase 29 = true ∧ vecBase 0 = true := by decide

theorem witness_VectorDividedByScalar : vecBase 29 = true ∧ (start [1]).reg 1 ≠ 0#64 ∧ (start [0]).reg 1 = 0#64 := by decide

theorem witness_VectorProductsAndEquality : vecBase 29 = true ∧ vecBase 0 = true := by decide

theorem witness_VectorSelfLaws : vecBase 29 = true ∧ vecBase 0 = true := by decide

theorem witness_MagnitudeAndDistance : vecBase 29 = true ∧ vecBase 0 = true ∧
    (Fx.vsqrmag ((start [oneV]).vec 1)).toInt < 2 ^ 62 := by decide

theorem witness_NormalizeNeverFaults : vecBase 29 = true ∧ quatBase 28 = true ∧ Fx.vmag (State.reset.vec 1) = .ok 0#64 ∧
    Fx.vmag ((start [oneV]).vec 1) = .ok oneV ∧ oneV ≠ 0#64 ∧
    Fx.sqrt (Fx.qdot (State.reset.quat 1) (State.reset.quat 1)) = .ok 0#64 ∧
    Fx.sqrt (Fx.qdot ((start [oneV]).quat 1) ((start [oneV]).quat 1)) = .ok oneV := ⟨by decide, by decide, rfl, rfl, by decide, rfl, rfl⟩

theorem witness_Projections : vecBase 29 = true ∧ Fx.vdot ((start [oneV]).vec 1) ((start [oneV]).vec 1) ≠ 0#64 ∧
    Fx.vdot ((start [1]).vec 1) ((start [1]).vec 1) = 0#64 := by decide

theorem witness_Interpolation : vecBase 29 = true ∧ ((start [0]).reg 1).toInt ≤ 0 ∧ 0 ≤ ((start [oneV]).reg 1).toInt ∧
    ((start [oneV]).reg 1).toInt ≤ 2 ^ 32 ∧ 2 ^ 32 ≤ ((start [oneV]).reg 1).toInt := by decide

theorem witness_GroupConstants : vecBase 28 = true ∧ quatBase 28 = true ∧ vecBase 29 = true := by decide

theorem witness_HamiltonProduct : quatBase 28 = true ∧ (start [0, 0, 0, oneV]).quat 1 = ⟨0#64, 0#64, 0#64, oneV⟩ := by decide

theorem witness_Rotation : vecBase 29 = true ∧ quatBase 28 = true ∧ (start [0, 0, 0, oneV]).quat 1 = ⟨0#64, 0#64, 0#64, oneV⟩ := by decide

theorem witness_QuaternionDotInverseEquality : quatBase 28 = true ∧ quatBase 0 = true := by decide


end Sys2Proof.Tests
end

