-- ==== Sys2Proof/Proofs/State.lean ====
section
/-!
PROOFS. The state (spec/10_state.md): register and group writes, the status registers, the frame of every command, and the agreement of
FSR with FCMD that every step keeps.
-/

namespace Sys2Proof.Machine

-- Registers and groups (R30 to R34)

theorem State.setReg_frame (s : State) (r : Reg) (v : Word) : { s.setReg r v with f := s.f } = s := rfl

theorem State.writeGroup_frame (s : State) (r : Reg) (vs : List Word) : { s.writeGroup r vs with f := s.f } = s := by simp

/-- `State.reg_writeGroup` with one test for the whole group. -/
theorem State.reg_writeGroup_getD (s : State) (r q : Reg) (vs : List Word) (h : r.val + vs.length ≤ 32) :
    (s.writeGroup r vs).reg q =
      if r.val ≤ q.val ∧ q.val < r.val + vs.length then vs.getD (q.val - r.val) 0 else s.reg q := by
  split
  next hq =>
    have hk : q.val - r.val < vs.length := by omega
    rw [State.reg_writeGroup s r q vs h, if_pos hq.1, List.getElem?_eq_getElem hk, List.getD_eq_getElem _ _ hk, Option.getD_some]
  next hq => exact State.reg_writeGroup_outside s r q vs h (by omega)

/-- Inside a group that does not pass f31 the register numbers do not wrap. -/
theorem reg_add_of_lt (r k : Reg) (h : r.val + k.val < 32) : r + k = ⟨r.val + k.val, h⟩ :=
  Fin.ext (Fin.val_add_eq_of_add_lt h)

theorem State.vec_of_lt (s : State) (r : Reg) (h : r.val + 2 < 32) :
    s.vec r = ⟨s.reg r, s.reg ⟨r.val + 1, by omega⟩, s.reg ⟨r.val + 2, h⟩⟩ := by
  rw [State.vec, reg_add_of_lt r 1 (by omega), reg_add_of_lt r 2 h]
  rfl

theorem State.quat_of_lt (s : State) (r : Reg) (h : r.val + 3 < 32) :
    s.quat r = ⟨s.reg r, s.reg ⟨r.val + 1, by omega⟩, s.reg ⟨r.val + 2, by omega⟩, s.reg ⟨r.val + 3, h⟩⟩ := by
  rw [State.quat, reg_add_of_lt r 1 (by omega), reg_add_of_lt r 2 (by omega), reg_add_of_lt r 3 h]
  rfl

/-- Settles O12: the field rules of `State.setReg`. -/
theorem registerWriteAndRead : Obligations.RegisterWriteAndRead := fun s r v =>
  ⟨fun q => s.reg_setReg r q v, s.setReg_frame r v⟩

/-- Settles O13: a group write by `State.reg_writeGroup`, a group read because no register number wraps. -/
theorem groupWriteAndRead : Obligations.GroupWriteAndRead :=
  ⟨fun s r vs h => ⟨fun q => s.reg_writeGroup_getD r q vs h, s.writeGroup_frame r vs⟩, State.vec_of_lt, State.quat_of_lt⟩

-- The status registers (R37, R38, R321, R328)

/-- FSR bit by bit (R37). -/
theorem State.getLsbD_fsr (s : State) (i : Nat) : s.fsr.getLsbD i =
    if i = 0 then s.halt else if i < 4 then (causeField s.cause).getLsbD (i - 1) else decide (i = 4) && s.lost := by
  change (0#59 ++ BitVec.ofBool s.lost ++ causeField s.cause ++ BitVec.ofBool s.halt).getLsbD i = _
  simp only [BitVec.getLsbD_append, BitVec.getLsbD_ofBool, BitVec.getLsbD_zero]
  rcases i with _ | _ | _ | _ | _ | i <;> simp

theorem State.fsr_halt (s : State) : s.fsr.getLsbD 0 = s.halt := s.getLsbD_fsr 0

theorem State.fsr_lost (s : State) : s.fsr.getLsbD 4 = s.lost := (s.getLsbD_fsr 4).trans (by simp)

theorem State.fsr_cause (s : State) : s.fsr.extractLsb' 1 3 = causeField s.cause := by
  refine BitVec.eq_of_getLsbD_eq fun i hi => ?_
  have h4 : 1 + i < 4 := by omega
  simp [State.getLsbD_fsr, h4, hi]

theorem State.fsr_reserved (s : State) : s.fsr.extractLsb' 5 59 = 0#59 := by
  refine BitVec.eq_of_getLsbD_eq fun i hi => ?_
  have h4 : ¬ 5 + i < 4 := by omega
  have h5 : 5 + i ≠ 4 := by omega
  simp [BitVec.getLsbD_extractLsb', State.getLsbD_fsr, h4, h5]

theorem causeField_le (c : Option Cause) : (causeField c).toNat ≤ 4 := by
  rcases c with _ | _ | _ | _ | _ <;> decide

/-- Settles O16: FSR field by field, the rest by evaluation. -/
theorem statusRegistersLayout : Obligations.StatusRegistersLayout := by
  refine ⟨fun s => ⟨s.fsr_halt, s.fsr_cause, s.fsr_lost, s.fsr_reserved, causeField_le s.cause, s.fsr_halt.symm⟩, ?_⟩
  decide

/-- Settles O7: the register values by `State.reg_reset`, the rest by evaluation. -/
theorem resetStateValues : Obligations.ResetStateValues := by
  refine ⟨State.reg_reset, ?_⟩
  decide

-- Commands (R34 to R36, R40, R65, R335)

/-- A command that ends either wrote its own destination group, which does not pass f31, or took fault entry with its own word. -/
theorem exec_next_cases {i : Instr} {s t : State} (h : exec i s = .next t) :
    (∃ vs, vs.length = destCount i ∧ (destBase i).val + destCount i ≤ 32 ∧ t = s.writeGroup (destBase i) vs) ∨
    ∃ c, t = s.faultEntry c (encode i) := by
  rcases exec_cases i s with ⟨hw, vs, hl, he⟩ | ⟨_, c, he⟩ | ⟨_, he⟩ <;> rw [he] at h <;> cases h
  · exact .inl ⟨vs, hl, dest_fits i hw, rfl⟩
  · exact .inr ⟨c, rfl⟩
  · exact .inr ⟨.illegalCommand, rfl⟩

/-- Settles O23: a command wrote its destination group or took fault entry, and both have their frame. -/
theorem commandsFrame : Obligations.CommandsFrame := by
  intro i s t h
  rcases exec_next_cases h with ⟨vs, hl, hfit, rfl⟩ | ⟨c, rfl⟩
  · have houtside (q : Reg) (hq : ¬ IsDest i q) : (s.writeGroup (destBase i) vs).reg q = s.reg q :=
      s.reg_writeGroup_outside _ q vs (by omega) (by omega)
    exact ⟨houtside, by simp⟩
  · simp

theorem hostWrite_cmd (v : Word) (s : State) : hostWrite 0x118 v s = issueCommand (v.setWidth 32) s := rfl

theorem issueCommand_of_decode {w : CmdWord} {s : State} {i : Instr} (hr : s.halt = false) (hd : decode w = some i) :
    issueCommand w s = exec i s := by
  simp [issueCommand, hr, hd]

theorem step_cmdWrite {s : State} {v : Word} {es : List HostEvent} (hh : s.host = .write 64 0x118 v :: es)
    (hr : s.inReset = false) : step s = issueCommand (v.setWidth 32) { s with host := es, busOut := none } := by
  rw [step_serve s _ es hh]
  exact serveAccess_accepted 0x118 { s with host := es } _ hr (by decide) (by decide)

/-- Settles O6: the CMD write is accepted, and a decoded word is executed while Running. -/
theorem stepRunsDecodedCommand : Obligations.StepRunsDecodedCommand := by
  refine ⟨fun s v es => step_cmdWrite, fun s v es i hh hr hrun hd => ?_, step_idle⟩
  rw [step_cmdWrite hh hr]
  exact issueCommand_of_decode hrun hd

-- FSR and FCMD agree (R37, R39)

/-- Agreement is about HALT, CAUSE and FCMD alone. -/
theorem State.StatusConsistent.congr {s t : State} (h : s.StatusConsistent) (hhalt : t.halt = s.halt) (hcause : t.cause = s.cause)
    (hfcmd : t.fcmd = s.fcmd) : t.StatusConsistent := by
  rw [State.StatusConsistent, hhalt, hcause, hfcmd]
  exact h

/-- Whatever was recorded before, cleared HALT, CAUSE and FCMD agree. -/
theorem State.statusConsistent_of_cleared {t : State} (hhalt : t.halt = false) (hcause : t.cause = none) (hfcmd : t.fcmd = 0#64) :
    t.StatusConsistent := by
  simp [State.StatusConsistent, hhalt, hcause, hfcmd]

theorem State.faultEntry_statusConsistent (s : State) (c : Cause) (w : CmdWord) : (s.faultEntry c w).StatusConsistent := by
  refine ⟨by simp, by simp, ?_⟩
  rw [State.faultEntry_fcmd, BitVec.toNat_setWidth_of_le (by decide)]
  exact w.isLt

theorem State.StatusConsistent.writeFsr {s : State} (h : s.StatusConsistent) (v : Word) : (s.writeFsr v).StatusConsistent := by
  cases hv : v[0] with
  | true => exact statusConsistent_of_cleared (by simp [hv]) (by simp [hv]) (by simp [hv])
  | false => exact h.congr (by simp [hv]) (by simp [hv]) (by simp [hv])

theorem exec_keeps_statusConsistent {i : Instr} {s t : State} (hs : s.StatusConsistent) (h : exec i s = .next t) :
    t.StatusConsistent := by
  rcases exec_next_cases h with ⟨vs, _, _, rfl⟩ | ⟨c, rfl⟩
  · exact hs.congr (by simp) (by simp) (by simp)
  · exact s.faultEntry_statusConsistent c _

theorem issueCommand_keeps_statusConsistent {w : CmdWord} {s t : State} (hs : s.StatusConsistent)
    (h : issueCommand w s = .next t) : t.StatusConsistent := by
  rcases issueCommand_cases w s with ⟨_, he⟩ | ⟨_, _, he⟩ | ⟨_, i, _, he⟩ <;> rw [he] at h
  · cases h; exact hs
  · cases h; exact s.faultEntry_statusConsistent _ w
  · exact exec_keeps_statusConsistent hs h

theorem hostWrite_keeps_statusConsistent {offset : Nat} {v : Word} {s t : State} (hs : s.StatusConsistent)
    (h : hostWrite offset v s = .next t) : t.StatusConsistent := by
  rcases hostWrite_cases offset v s with he | he | he | he <;> rw [he] at h
  · cases h; exact hs
  · cases h; exact hs.writeFsr v
  · exact issueCommand_keeps_statusConsistent hs h
  · cases h; exact hs

/-- An access that is served did what it does when accepted. -/
theorem serveAccess_next {width offset : Nat} {s t : State} {o : Host.Outcome State Fault Refusal}
    (h : serveAccess width offset s o = .next t) : o = .next t := by
  rcases serveAccess_cases width offset s o with ⟨_, _, he⟩ | ⟨r, he⟩ <;> rw [he] at h
  · exact h
  · cases h

theorem serve_keeps_statusConsistent {e : HostEvent} {s t : State} (hs : s.StatusConsistent) (h : serve e s = .next t) :
    t.StatusConsistent := by
  cases e with
  | read width offset => cases serveAccess_next h; exact hs
  | write width offset v =>
    have hs' : { s with busOut := none }.StatusConsistent := hs
    exact hostWrite_keeps_statusConsistent hs' (serveAccess_next h)
  | resetAssert => cases h; exact State.statusConsistent_of_cleared rfl rfl rfl
  | resetRelease => cases h; exact hs

/-- Settles O24: every status field is clear. -/
theorem statusConsistentAtReset : Obligations.StatusConsistentAtReset := State.statusConsistent_of_cleared rfl rfl rfl

/-- Settles O25: an idle step changes nothing, and serving any event keeps the agreement. -/
theorem stepKeepsStatusConsistent : Obligations.StepKeepsStatusConsistent := by
  intro s t hs h
  rcases step_cases s t h with ⟨_, rfl⟩ | ⟨e, es, _, he⟩
  · exact hs
  · have hs' : { s with host := es }.StatusConsistent := hs
    exact serve_keeps_statusConsistent hs' he

end Sys2Proof.Machine
end

