-- ==== Sys2Proof/Proofs/Memory.lean ====
section
/-!
PROOFS. The host port (spec/20_memory.md): which accesses are served, what each offset reads and writes, and the little-endian byte
view and persisted form.
-/

namespace Sys2Proof.Machine

-- The map, offset by offset (R61)

theorem regOffset_lt (q : Reg) : 8 * q.val < fsrOffset := by
  unfold fsrOffset
  omega

theorem reg_ofNat_offset (q : Reg) : Fin.ofNat 32 (8 * q.val / 8) = q := by
  rw [Nat.mul_div_cancel_left q.val (by decide), Fin.ofNat_val_eq_self]

@[simp] theorem State.hostRead_reg (s : State) (q : Reg) : s.hostRead (8 * q.val) = s.reg q := by
  rw [State.hostRead, if_pos (regOffset_lt q), reg_ofNat_offset]

@[simp] theorem State.hostRead_fsr (s : State) : s.hostRead 0x100 = s.fsr := rfl

@[simp] theorem State.hostRead_fcmd (s : State) : s.hostRead 0x108 = s.fcmd := rfl

@[simp] theorem State.hostRead_fxid (s : State) : s.hostRead 0x110 = 0x0000000007204020#64 := rfl

@[simp] theorem State.hostRead_cmd (s : State) : s.hostRead 0x118 = 0#64 := rfl

@[simp] theorem hostWrite_reg (q : Reg) (v : Word) (s : State) : hostWrite (8 * q.val) v s = .next (s.setReg q v) := by
  rw [hostWrite, if_pos (regOffset_lt q), reg_ofNat_offset]

@[simp] theorem hostWrite_fsr (v : Word) (s : State) : hostWrite 0x100 v s = .next (s.writeFsr v) := rfl

@[simp] theorem hostWrite_fcmd (v : Word) (s : State) : hostWrite 0x108 v s = .next s := rfl

@[simp] theorem hostWrite_fxid (v : Word) (s : State) : hostWrite 0x110 v s = .next s := rfl

/-- The write-1-to-clear of R37 as one record update. -/
theorem State.writeFsr_eq (s : State) (v : Word) : s.writeFsr v = { s with
    halt := if v.getLsbD 0 then false else s.halt
    cause := if v.getLsbD 0 then none else s.cause
    fcmd := if v.getLsbD 0 then 0#64 else s.fcmd
    lost := if v.getLsbD 4 then false else s.lost } := by
  unfold State.writeFsr
  cases v.getLsbD 0 <;> cases v.getLsbD 4 <;> rfl

-- Which accesses are served (R62)

theorem accessRefusal_eq_none_iff (width offset : Nat) :
    accessRefusal width offset = none ↔ width = 64 ∧ offset % 8 = 0 ∧ offset < 0x120 := by
  by_cases hw : width = 64
  · subst hw
    simp [accessRefusal_none]
  · simp [accessRefusal, hw]

theorem serveAccess_refused {width offset : Nat} (h : width ≠ 64 ∨ offset % 8 ≠ 0 ∨ 0x120 ≤ offset) (s : State)
    (o : Host.Outcome State Fault Refusal) : ∃ r, serveAccess width offset s o = .refused r := by
  rcases serveAccess_cases width offset s o with ⟨_, hnone, _⟩ | hrefused
  · rw [accessRefusal_eq_none_iff] at hnone
    omega
  · exact hrefused

theorem issueCommand_next (w : CmdWord) (s : State) : ∃ t, issueCommand w s = .next t := by
  rcases issueCommand_cases w s with ⟨_, he⟩ | ⟨_, _, he⟩ | ⟨_, i, _, he⟩
  · exact ⟨_, he⟩
  · exact ⟨_, he⟩
  · rw [he]
    exact exec_next i s

theorem hostWrite_next (offset : Nat) (v : Word) (s : State) : ∃ t, hostWrite offset v s = .next t := by
  rcases hostWrite_cases offset v s with he | he | he | he
  · exact ⟨_, he⟩
  · exact ⟨_, he⟩
  · rw [he]
    exact issueCommand_next _ s
  · exact ⟨_, he⟩

theorem step_read {s : State} {es : List HostEvent} {off : Nat} (hr : s.inReset = false) (hh : s.host = .read 64 off :: es)
    (ha : off % 8 = 0) (hw : off < 0x120) : step s = .next { s with host := es, busOut := some (s.hostRead off) } := by
  rw [step_serve s _ es hh]
  exact serveAccess_accepted off { s with host := es } _ hr ha hw

theorem step_write {s : State} {es : List HostEvent} {off : Nat} {v : Word} (hr : s.inReset = false)
    (hh : s.host = .write 64 off v :: es) (ha : off % 8 = 0) (hw : off < 0x120) :
    step s = hostWrite off v { s with host := es, busOut := none } := by
  rw [step_serve s _ es hh]
  exact serveAccess_accepted off { s with host := es } _ hr ha hw

/-- A register's offset is a legal one, so its write is always served (R61, R62). -/
theorem step_regWrite {s : State} {es : List HostEvent} {q : Reg} {v : Word} (hr : s.inReset = false)
    (hh : s.host = .write 64 (8 * q.val) v :: es) : step s = .next ({ s with host := es, busOut := none }.setReg q v) := by
  rw [step_write hr hh (by omega) (by omega), hostWrite_reg]

theorem step_regRead {s : State} {es : List HostEvent} {q : Reg} (hr : s.inReset = false)
    (hh : s.host = .read 64 (8 * q.val) :: es) : step s = .next { s with host := es, busOut := some (s.reg q) } := by
  rw [step_read hr hh (by omega) (by omega), State.hostRead_reg]

/-- Settles O9: `accessRefusal` refuses exactly the illegal accesses, and no accepted one stops the machine. -/
theorem onlyLegalAccessesAreServed : Obligations.OnlyLegalAccessesAreServed := by
  refine ⟨fun s es w off hr hh => ⟨fun hbad => ?_, ?_⟩, fun s es w off v hr hh => ⟨fun hbad => ?_, ?_⟩⟩
  · rw [step_serve s _ es hh]
    exact serveAccess_refused hbad _ _
  · rintro ⟨rfl, ha, hw⟩
    exact ⟨_, step_read hr hh ha hw⟩
  · rw [step_serve s _ es hh]
    exact serveAccess_refused hbad _ _
  · rintro ⟨rfl, ha, hw⟩
    rw [step_write hr hh ha hw]
    exact hostWrite_next off v _

/-- Settles O10: the read is served, and `State.hostRead` answers offset by offset. -/
theorem hostReadsReturnTheMap : Obligations.HostReadsReturnTheMap := by
  intro s es off hr hh ha hw
  refine ⟨s.hostRead off, step_read hr hh ha hw, ?_, ?_, ?_, ?_, ?_⟩
  · rintro q rfl
    exact s.hostRead_reg q
  · rintro rfl
    exact s.hostRead_fsr
  · rintro rfl
    exact s.hostRead_fcmd
  · rintro rfl
    exact s.hostRead_fxid
  · rintro rfl
    exact s.hostRead_cmd

/-- Settles O11: the write is served, and `hostWrite` does offset by offset what the map says. -/
theorem hostWritesFollowTheMap : Obligations.HostWritesFollowTheMap := by
  intro s es off v hr hh
  refine ⟨?_, ?_, ?_⟩
  · rintro q rfl
    exact step_regWrite hr hh
  · rintro rfl
    rw [step_write hr hh (by decide) (by decide), hostWrite_fsr, State.writeFsr_eq]
  · rintro (rfl | rfl)
    · rw [step_write hr hh (by decide) (by decide), hostWrite_fcmd]
    · rw [step_write hr hh (by decide) (by decide), hostWrite_fxid]

/-- Settles O14: the write step sets the register and leaves the read next, which returns what the register holds. -/
theorem rawRoundTrip : Obligations.RawRoundTrip := by
  intro s es q v hr hh
  have hreg := State.reg_setReg_same { s with host := .read 64 (8 * q.val) :: es, busOut := none } q v
  exact ⟨_, _, step_regWrite hr hh, hreg, step_regRead hr rfl, congrArg some hreg, hreg⟩

-- Bytes (R63)

theorem State.portByte_add (s : State) {a k : Nat} (ha : a % 8 = 0) (hk : k < 8) (hw : a + k < 0x120) :
    s.portByte (a + k) = some (byteOf (s.hostRead a) k) := by
  have hbase : (a + k) / 8 * 8 = a := by omega
  have hbyte : (a + k) % 8 = k := by omega
  rw [State.portByte, windowBytes, if_pos hw, hbase, hbyte]

theorem getLsbD_byteOf (v : Word) (k j : Nat) (hj : j < 8) : (byteOf v k).getLsbD j = v.getLsbD (8 * k + j) := by
  simp [byteOf, hj]

@[simp] theorem length_persist (v : Word) : (persist v).length = 8 := by simp [persist]

theorem getElem?_persist (v : Word) {k : Nat} (hk : k < 8) : (persist v)[k]? = some (byteOf v k) := by simp [persist, hk]

/-- Bit `i` of the value a byte list gives is bit `i % 8` of its byte `i / 8`. -/
theorem getLsbD_unpersist (bs : List Byte) (i : Nat) (hi : i < 64) :
    (unpersist bs).getLsbD i = (bs[i / 8]?.getD 0#8).getLsbD (i % 8) := by
  induction bs generalizing i with
  | nil => simp [unpersist]
  | cons b bs ih =>
    rw [unpersist, BitVec.getLsbD_or, BitVec.getLsbD_setWidth, BitVec.getLsbD_shiftLeft]
    by_cases h8 : i < 8
    · simp [h8, hi, Nat.div_eq_of_lt h8, Nat.mod_eq_of_lt h8]
    · have hdiv : i / 8 = (i - 8) / 8 + 1 := by omega
      have hmod : (i - 8) % 8 = i % 8 := by omega
      rw [ih (i - 8) (by omega), hdiv, List.getElem?_cons_succ, hmod, BitVec.getLsbD_of_ge b i (by omega)]
      simp [h8, hi]

theorem unpersist_persist (v : Word) : unpersist (persist v) = v := by
  refine BitVec.eq_of_getLsbD_eq fun i hi => ?_
  have hbyte : i / 8 < 8 := by omega
  have hbit : i % 8 < 8 := by omega
  rw [getLsbD_unpersist _ i hi, getElem?_persist v hbyte, Option.getD_some, getLsbD_byteOf v _ _ hbit, Nat.div_add_mod]

/-- Settles O15: the byte view by `State.portByte_add`, the persisted form byte by byte and back by `unpersist_persist`. -/
theorem bytesAreLittleEndian : Obligations.BytesAreLittleEndian :=
  ⟨fun s _ _ => s.portByte_add, fun v => ⟨length_persist v, unpersist_persist v, fun _ => getElem?_persist v⟩⟩

end Sys2Proof.Machine
end

