-- ==== Sys2Proof/Proofs/Encoding.lean ====
section
/-!
PROOFS. Command words (spec/30_encoding.md). The decoder is a lookup in the opcode map R85 followed by the field check of the row it
finds; that a row encodes an instruction as a word is one relation, `Row.Encodes`, to which decoder, encoder and well-formedness are
each compared once. Last, the pseudo-instructions.
-/

namespace Sys2Proof.Machine

-- What an undecoded word does, and the commands that pseudo-instructions expand to (R86, R89, R322)

theorem issueCommand_of_decode_none {w : CmdWord} {s : State} (hr : s.halt = false) (hd : decode w = none) :
    issueCommand w s = .next (s.faultEntry .illegalCommand w) := by
  simp [issueCommand, hr, hd]

theorem exec_mov (rd rs1 : Reg) (s : State) : exec (.mov rd rs1) s = .next (s.setReg rd (s.reg rs1)) :=
  completeS_ok (.mov rd rs1) rd _ s rfl

theorem exec_ldc (rd : Reg) {k : BitVec 20} (hk : k.toNat ≤ 6) (s : State) :
    exec (.ldc rd k) s = .next (s.setReg rd (Fx.sconst Config.logConstants k.toNat)) :=
  completeS_ok (.ldc rd k) rd _ s (decide_eq_true hk)

theorem exec_mul (rd rs1 rs2 : Reg) (s : State) : exec (.mul rd rs1 rs2) s = .next (s.setReg rd (Fx.mul (s.reg rs1) (s.reg rs2))) :=
  completeS_ok (.mul rd rs1 rs2) rd _ s rfl

theorem State.setReg_reg_self (s : State) (r : Reg) : s.setReg r (s.reg r) = s := by
  simp [State.setReg, State.reg]

end Sys2Proof.Machine

namespace Sys2Proof.Claims

open Sys2Proof.Machine

-- The fields of a word, and the word of its fields (R81, R82, R90)

theorem field_eq (w : CmdWord) (lo len : Nat) : field w lo len = w.toNat / 2 ^ lo % 2 ^ len := by
  simp [field, Nat.shiftRight_eq_div_pow]

theorem field_lt (w : CmdWord) (lo len : Nat) : field w lo len < 2 ^ len := (w.extractLsb' lo len).isLt

theorem bits_eq_field (w : CmdWord) (lo k : Nat) : bits w (lo + k) lo = field w lo (k + 1) := by
  rw [field_eq, bits_def, Nat.add_sub_cancel_left]

theorem regAt_eq_regField (w : CmdWord) (lo : Nat) : regAt w lo = regField w lo := by
  rw [regAt, regField, bits_eq_field]

@[simp] theorem val_regField (w : CmdWord) (lo : Nat) : (regField w lo).val = field w lo 5 :=
  Nat.mod_eq_of_lt (field_lt w lo 5)

@[simp] theorem toNat_immField (w : CmdWord) : (BitVec.ofNat 20 (field w 0 20)).toNat = field w 0 20 :=
  Nat.mod_eq_of_lt (field_lt w 0 20)

theorem fields_wordR {op : Nat} (h : op < 128) (d a b c : Reg) :
    field (wordR op d a b c) 25 7 = op ∧ regField (wordR op d a b c) 20 = d ∧ regField (wordR op d a b c) 15 = a ∧
      regField (wordR op d a b c) 10 = b ∧ regField (wordR op d a b c) 5 = c ∧ field (wordR op d a b c) 0 5 = 0 := by
  simp only [Fin.ext_iff, val_regField, field_eq, wordR_toNat op d a b c h]
  omega

theorem fields_wordI {op : Nat} (h : op < 128) (d : Reg) (k : BitVec 20) :
    field (wordI op d k) 25 7 = op ∧ regField (wordI op d k) 20 = d ∧ field (wordI op d k) 0 20 = k.toNat := by
  simp only [Fin.ext_iff, val_regField, field_eq, wordI_toNat op d k h]
  omega

theorem wordR_fields {w : CmdWord} (hz : field w 0 5 = 0) :
    wordR (field w 25 7) (regField w 20) (regField w 15) (regField w 10) (regField w 5) = w := by
  refine BitVec.eq_of_toNat_eq ?_
  rw [wordR_toNat _ _ _ _ _ (field_lt w 25 7)]
  simp only [val_regField, field_eq] at hz ⊢
  omega

theorem wordI_fields (w : CmdWord) : wordI (field w 25 7) (regField w 20) (BitVec.ofNat 20 (field w 0 20)) = w := by
  refine BitVec.eq_of_toNat_eq ?_
  rw [wordI_toNat _ _ _ (field_lt w 25 7), toNat_immField]
  simp only [val_regField, field_eq]
  omega

-- Operand kinds (R83, R86)

@[simp] theorem legal_S (n : Nat) : Kind.S.legal n = true := rfl

@[simp] theorem legal_V (r : Reg) : Kind.V.legal r.val = vecBase r := rfl

@[simp] theorem legal_Q (r : Reg) : Kind.Q.legal r.val = quatBase r := rfl

@[simp] theorem legal_unused (r : Reg) : Kind.unused.legal r.val = true ↔ r = 0 := beq_iff_eq.trans Fin.val_eq_zero_iff

@[simp] theorem legal_unused_zero : Kind.unused.legal 0 = true := rfl

theorem badField_iff (k : Kind) (n : Nat) : BadField k n ↔ k.legal n = false := by
  cases k <;> simp [BadField, Kind.legal]

-- The decoder is the opcode map (R85, R87)

/-- R87's field check of a row. -/
def Row.legal (w : CmdWord) : Row → Bool
  | .R kd ka kb kc _ => field w 0 5 == 0 && kd.legal (regField w 20) && ka.legal (regField w 15) && kb.legal (regField w 10) &&
      kc.legal (regField w 5)
  | .I kd maxImm _ => kd.legal (regField w 20) && field w 0 20 ≤ maxImm

/-- What the decoder answers at a row's opcode. -/
def Row.decode (w : CmdWord) (row : Row) : Option Instr :=
  match row with
  | .R kd ka kb kc _ => formR w kd ka kb kc (row.instr w)
  | .I kd maxImm _ => formI w kd maxImm (row.instr w)

theorem Row.decode_eq (w : CmdWord) (row : Row) : row.decode w = if row.legal w then some (row.instr w) else none := by
  cases row with
  | R => simp [Row.decode, formR, Row.legal, bits_eq_field w 0 4, bits_eq_field w 20 4, bits_eq_field w 15 4,
      bits_eq_field w 10 4, bits_eq_field w 5 4, and_assoc]
  | I => simp [Row.decode, formI, Row.legal, bits_eq_field w 20 4, bits_eq_field w 0 19]

/-- Opcode by opcode, the decoder's arm is the map's row. -/
theorem decode_eq_lookup (w : CmdWord) : decode w = (opcodeMap.lookup (field w 25 7)).bind (Row.decode w) := by
  have hop : field w 25 7 < 128 := field_lt w 25 7
  simp only [decode, regAt_eq_regField, bits_eq_field w 25 6, bits_eq_field w 0 19]
  generalize field w 25 7 = op at hop ⊢
  interval_cases op <;> exact rfl

theorem decode_eq_some_iff {w : CmdWord} {i : Instr} : decode w = some i ↔
    ∃ row, opcodeMap.lookup (field w 25 7) = some row ∧ row.legal w = true ∧ row.instr w = i := by
  simp only [decode_eq_lookup, Row.decode_eq, Option.bind_eq_some_iff, Option.ite_none_right_eq_some, Option.some.injEq]

-- Rows as relations between words and instructions

/-- The word is the row's encoding of the instruction under opcode `op`: the operands are legal for their kinds and stand in their
fields (R81 to R84, R90). -/
inductive Row.Encodes (op : Nat) : Row → CmdWord → Instr → Prop
  | R {kd ka kb kc make} {d a b c : Reg} (hd : kd.legal d) (ha : ka.legal a) (hb : kb.legal b) (hc : kc.legal c) :
      Encodes op (.R kd ka kb kc make) (wordR op d a b c) (make d a b c)
  | I {kd maxImm make} {d : Reg} {k : BitVec 20} (hd : kd.legal d) (hk : k.toNat ≤ maxImm) :
      Encodes op (.I kd maxImm make) (wordI op d k) (make d k)

theorem Row.encodes_of_legal {row : Row} {w : CmdWord} (h : row.legal w = true) : row.Encodes (field w 25 7) w (row.instr w) := by
  cases row with
  | R kd ka kb kc make =>
    simp only [Row.legal, Bool.and_eq_true, beq_iff_eq] at h
    obtain ⟨⟨⟨⟨hz, hd⟩, ha⟩, hb⟩, hc⟩ := h
    have henc := Row.Encodes.R (op := field w 25 7) (make := make) hd ha hb hc
    rwa [wordR_fields hz] at henc
  | I kd maxImm make =>
    simp only [Row.legal, Bool.and_eq_true, decide_eq_true_eq] at h
    obtain ⟨hd, hk⟩ := h
    have henc := Row.Encodes.I (op := field w 25 7) (make := make) hd ((toNat_immField w).trans_le hk)
    rwa [wordI_fields] at henc

theorem Row.Encodes.legal {op : Nat} {row : Row} {w : CmdWord} {i : Instr} (hop : op < 128) (h : row.Encodes op w i) :
    field w 25 7 = op ∧ row.legal w = true ∧ row.instr w = i := by
  cases h with
  | @R _ _ _ _ _ d a b c hd ha hb hc =>
    obtain ⟨eop, ed, ea, eb, ec, ez⟩ := fields_wordR hop d a b c
    simp [Row.legal, Row.instr, eop, ed, ea, eb, ec, ez, hd, ha, hb, hc]
  | @I _ _ _ d k hd hk =>
    obtain ⟨eop, ed, ek⟩ := fields_wordI hop d k
    simp [Row.legal, Row.instr, eop, ed, ek, hd, hk]

/-- The row agrees with well-formedness and with the encoder. -/
def Row.Sound (op : Nat) (row : Row) : Prop := ∀ w i, row.Encodes op w i → i.wellFormed = true ∧ encode i = w

theorem Row.sound_R_iff {op : Nat} {kd ka kb kc : Kind} {make} : (Row.R kd ka kb kc make).Sound op ↔
    ∀ d a b c : Reg, kd.legal d → ka.legal a → kb.legal b → kc.legal c →
      (make d a b c).wellFormed = true ∧ encode (make d a b c) = wordR op d a b c :=
  ⟨fun h _ _ _ _ hd ha hb hc => h _ _ (.R hd ha hb hc), fun h _ _ hr => by cases hr; apply h <;> assumption⟩

theorem Row.sound_I_iff {op : Nat} {kd : Kind} {maxImm : Nat} {make} : (Row.I kd maxImm make).Sound op ↔
    ∀ (d : Reg) (k : BitVec 20), kd.legal d → k.toNat ≤ maxImm → (make d k).wellFormed = true ∧ encode (make d k) = wordI op d k :=
  ⟨fun h _ _ hd hk => h _ _ (.I hd hk), fun h _ _ hr => by cases hr; apply h <;> assumption⟩

/-- Row by row: legal fields make a well-formed instruction, and an unused field is the 0 that the encoder puts there. -/
theorem opcodeMap_sound : ∀ p ∈ opcodeMap, p.1 < 128 ∧ p.2.Sound p.1 := by
  simp +contextual [opcodeMap, scalarRows, roundingRows, logPowRows, compareRows, moveRows, vectorRows, quaternionRows,
    Row.sound_R_iff, Row.sound_I_iff, encode, Instr.wellFormed]

theorem lookup_sound {op : Nat} {row : Row} (h : opcodeMap.lookup op = some row) : op < 128 ∧ row.Sound op := by
  obtain ⟨_, _, hmap, _⟩ := List.lookup_eq_some_iff.mp h
  exact opcodeMap_sound (op, row) (by simp [hmap])

/-- Instruction by instruction: a well-formed one is encoded by the row of its opcode. -/
theorem exists_row_encodes {i : Instr} (h : i.wellFormed = true) :
    ∃ op row, opcodeMap.lookup op = some row ∧ row.Encodes op (encode i) i := by
  refine ⟨Laws.OpcodeField.opcode i, ?_⟩
  cases i
  case li rd imm => exact ⟨_, rfl, .I rfl (Nat.le_of_lt_succ imm.isLt)⟩
  case ldc rd k => exact ⟨_, rfl, .I rfl (of_decide_eq_true h)⟩
  case vldc rd k =>
    simp only [Instr.wellFormed, Bool.and_eq_true, decide_eq_true_eq] at h
    exact ⟨_, rfl, .I h.1 h.2⟩
  all_goals
    simp only [Instr.wellFormed, Bool.and_eq_true] at h
    exact ⟨_, rfl, .R (by simp [h]) (by simp [h]) (by simp [h]) (by simp)⟩

-- Round trips

/-- Settles O1: a row of the map encodes the instruction, and decoding finds that row and its operands again. -/
theorem decodeOfEncode : Obligations.DecodeOfEncode := by
  intro i hwf
  obtain ⟨op, row, hrow, henc⟩ := exists_row_encodes hwf
  obtain ⟨hop, hlegal, hinstr⟩ := henc.legal (lookup_sound hrow).1
  exact decode_eq_some_iff.mpr ⟨row, by rw [hop, hrow], hlegal, hinstr⟩

/-- Settles O2: the row that decodes the word encodes it, and every row of the map is sound. -/
theorem encodeOfDecode : Obligations.EncodeOfDecode := by
  intro w i h
  obtain ⟨row, hrow, hlegal, rfl⟩ := decode_eq_some_iff.mp h
  exact (lookup_sound hrow).2 w _ (Row.encodes_of_legal hlegal)

-- Illegal words (R86, R322)

theorem lookup_eq_none_iff_unassigned (op : Nat) (h : op < 128) : opcodeMap.lookup op = none ↔ Unassigned op := by
  rw [← Option.isNone_iff_eq_none, Unassigned]
  revert op
  decide

/-- R86's conditions are those under which no row is found or the row's field check fails. -/
theorem decode_eq_none_iff_illegalWord (w : CmdWord) : decode w = none ↔ IllegalWord w := by
  rw [decode_eq_lookup, IllegalWord]
  rcases opcodeMap.lookup (field w 25 7) with _ | _ | _
  · simp
  · simp [Row.decode_eq, Row.legal, badField_iff, imp_iff_not_or, or_assoc]
  · simp [Row.decode_eq, Row.legal, badField_iff, imp_iff_not_or]

/-- Settles O3: the five conditions by `decode_eq_none_iff_illegalWord`, one word per instruction by O2, the own row by the lookup. -/
theorem illegalWordsRaiseIllegalCommand : Obligations.IllegalWordsRaiseIllegalCommand := by
  refine ⟨lookup_eq_none_iff_unassigned, decode_eq_none_iff_illegalWord, fun s w hr hw => ?_, fun v w i hv hw => ?_,
    fun w i h => ?_⟩
  · exact issueCommand_of_decode_none hr ((decode_eq_none_iff_illegalWord w).mpr hw)
  · exact (encodeOfDecode v i hv).2.symm.trans (encodeOfDecode w i hw).2
  · obtain ⟨row, hrow, _, hinstr⟩ := decode_eq_some_iff.mp h
    exact ⟨row, hrow, hinstr.symm⟩

/-- Settles O4: closed words, by evaluation. -/
theorem specWordsDecode : Obligations.SpecWordsDecode := by
  unfold Obligations.SpecWordsDecode
  decide

-- Pseudo-instructions (R88, R89)

/-- Settles O5: the lines assemble by evaluation, and each expansion is one register write; NOP's writes f0 back to itself. -/
theorem pseudoInstructionsExpand : Obligations.PseudoInstructionsExpand := by
  refine ⟨by decide, by decide, by decide, by decide, fun s => ?_, fun s d => exec_ldc d (by decide) s,
    fun s d => exec_ldc d (by decide) s, fun s d a => exec_mul d a a s⟩
  rw [exec_mov, State.setReg_reg_self]

end Sys2Proof.Claims
end

