-- ==== Sys2Proof/Proofs/ScalarArith.lean ====
section
/-!
PROOFS. Scalar arithmetic (spec/41_scalar_arith.md): addition, subtraction and negation clamp, multiplication is the truncated product
or the bound of its sign, the digit loop of division is its closed form, and the remainders. Each command's function first gets its
value as integer arithmetic; the statements then follow from those values.
-/

namespace Sys2Proof.Machine

-- How the commands of this family end (R34, R35)

theorem exec_add (rd rs1 rs2 : Reg) (s : State) : exec (.add rd rs1 rs2) s = .next (s.setReg rd (Fx.add (s.reg rs1) (s.reg rs2))) :=
  completeS_ok (.add rd rs1 rs2) rd _ s rfl

theorem exec_sub (rd rs1 rs2 : Reg) (s : State) : exec (.sub rd rs1 rs2) s = .next (s.setReg rd (Fx.sub (s.reg rs1) (s.reg rs2))) :=
  completeS_ok (.sub rd rs1 rs2) rd _ s rfl

theorem exec_neg (rd rs1 : Reg) (s : State) : exec (.neg rd rs1) s = .next (s.setReg rd (Fx.neg (s.reg rs1))) :=
  completeS_ok (.neg rd rs1) rd _ s rfl

theorem exec_fastadd (rd rs1 rs2 : Reg) (s : State) :
    exec (.fastadd rd rs1 rs2) s = .next (s.setReg rd (Fx.fastadd (s.reg rs1) (s.reg rs2))) :=
  completeS_ok (.fastadd rd rs1 rs2) rd _ s rfl

theorem exec_fastsub (rd rs1 rs2 : Reg) (s : State) :
    exec (.fastsub rd rs1 rs2) s = .next (s.setReg rd (Fx.fastsub (s.reg rs1) (s.reg rs2))) :=
  completeS_ok (.fastsub rd rs1 rs2) rd _ s rfl

theorem exec_fastmul (rd rs1 rs2 : Reg) (s : State) :
    exec (.fastmul rd rs1 rs2) s = .next (s.setReg rd (Fx.fastmul (s.reg rs1) (s.reg rs2))) :=
  completeS_ok (.fastmul rd rs1 rs2) rd _ s rfl

theorem exec_div (rd rs1 rs2 : Reg) (s : State) :
    exec (.div rd rs1 rs2) s = completeS (.div rd rs1 rs2) rd (Fx.div (s.reg rs1) (s.reg rs2)) s := rfl

theorem exec_mod (rd rs1 rs2 : Reg) (s : State) :
    exec (.mod rd rs1 rs2) s = completeS (.mod rd rs1 rs2) rd (Fx.mod (s.reg rs1) (s.reg rs2)) s := rfl

theorem exec_fastmod (rd rs1 rs2 : Reg) (s : State) :
    exec (.fastmod rd rs1 rs2) s = completeS (.fastmod rd rs1 rs2) rd (Fx.fastmod (s.reg rs1) (s.reg rs2)) s := rfl

-- Narrowing and sign bits (R10, R11)

theorem s64_add_s64 (u v : Int) : s64 u + s64 v = s64 (u + v) := (BitVec.ofInt_add u v).symm

/-- Narrowing wraps once for a value less than 2^64 too large. -/
theorem toInt_s64_above (v : Int) (h1 : 9223372036854775808 ≤ v) (h2 : v < 27670116110564327424) :
    (s64 v).toInt = v - 18446744073709551616 := by
  rw [toInt_s64, Int.bmod_def]
  omega

/-- Narrowing wraps once for a value less than 2^64 too small. -/
theorem toInt_s64_below (v : Int) (h1 : -27670116110564327424 ≤ v) (h2 : v < -9223372036854775808) :
    (s64 v).toInt = v + 18446744073709551616 := by
  rw [toInt_s64, Int.bmod_def]
  omega

/-- The sign of a narrowed value is its bit 63. -/
theorem toInt_s64_neg_iff (v : Int) : (s64 v).toInt < 0 ↔ 9223372036854775808 ≤ v % 18446744073709551616 := by
  rw [toInt_s64, Int.bmod_def]
  omega

theorem toInt_ne_zero {w : Word} (h : w ≠ 0#64) : w.toInt ≠ 0 := fun hw => h (BitVec.eq_of_toInt_eq hw)

theorem sb_eq_iff (x y : Word) : sb x = sb y ↔ (x.toInt < 0 ↔ y.toInt < 0) := by
  rw [Bool.eq_iff_iff, sb_iff, sb_iff]

theorem u64_of_lt {v : Nat} (h : v < 2 ^ 64) : u64 v = v := Nat.mod_eq_of_lt h

-- The fast variants (R108 to R110)

theorem Fx.fastadd_eq (x y : Word) : Fx.fastadd x y = x + y := s64_add x y

theorem Fx.fastsub_eq (x y : Word) : Fx.fastsub x y = x - y := s64_sub x y

theorem Fx.fastmul_eq (x y : Word) : Fx.fastmul x y = s64 (x.toInt * y.toInt / 2 ^ 32) := congrArg s64 (partials_sum x y)

-- The carries of MUL (R103)

theorem Fx.accSum_eq (a b : Word) : Fx.accSum a b = a + b := s64_add a b

/-- R103's carry into bit 63 is the carry out of the low 63 bits. -/
theorem Fx.accCarry_s64 (u v : Int) :
    Fx.accCarry (s64 u) (s64 v) = decide (9223372036854775808 ≤ u % 9223372036854775808 + v % 9223372036854775808) := by
  have hodd : ∀ p q r : Bool, (p ^^ q ^^ r) = true ↔ (p = true ↔ (q = true ↔ r = true)) := by decide
  rw [Fx.accCarry, Fx.accSum_eq, s64_add_s64, Bool.eq_iff_iff, hodd, decide_eq_true_eq]
  simp only [sb_iff, toInt_s64_neg_iff]
  omega

/-- The `ov` of R103: a carry in one of the three additions. -/
def Fx.mulCarry (x y : Word) : Bool :=
  Fx.accCarry (s64 (asr (Fx.lolo x y) 32)) (s64 (Fx.lohi x y)) ||
  Fx.accCarry (s64 (asr (Fx.lolo x y) 32 + Fx.lohi x y)) (s64 (Fx.hilo x y)) ||
  Fx.accCarry (s64 (asr (Fx.lolo x y) 32 + Fx.lohi x y + Fx.hilo x y)) (s64 (Fx.hihi x y * 2 ^ 32))

/-- R103 with its sum replaced by the truncated product (R104 item 1): the exits in the order written. -/
theorem Fx.mul_exits (x y : Word) : Fx.mul x y =
    if sb x = sb y ∧ ((s64 (x.toInt * y.toInt / 2 ^ 32)).toInt < 0 ∨ Fx.mulCarry x y ∧ x.toInt > 0) then maxV
    else if ¬ sb x = sb y ∧ (s64 (x.toInt * y.toInt / 2 ^ 32)).toInt > 0 then minV
    else if asr (Fx.hihi x y) 32 ≠ 0 ∧ asr (Fx.hihi x y) 32 ≠ -1 then (if sb x = sb y then maxV else minV)
    else if ¬ sb x = sb y ∧ (s64 (x.toInt * y.toInt / 2 ^ 32)).toInt > x.toInt ⊓ y.toInt ∧
      x.toInt ⊓ y.toInt < -4294967296 ∧ x.toInt ⊔ y.toInt > 4294967296 then minV
    else s64 (x.toInt * y.toInt / 2 ^ 32) := by
  have hneg : (if x.toInt > y.toInt then y else x).toInt = x.toInt ⊓ y.toInt := by split <;> omega
  have hpos : (if x.toInt > y.toInt then x else y).toInt = x.toInt ⊔ y.toInt := by split <;> omega
  simp only [Fx.mul, Fx.accSum_eq, s64_add_s64, partials_sum, hneg, hpos, oneV_toInt, beq_iff_eq]
  rfl

/-- The cross products of R103, for an integer part that is not negative. -/
theorem fracBits_mul_bounds {c : Int} (w : Word) (h0 : 0 ≤ c) (h1 : c ≤ 2147483647) :
    0 ≤ (fracBits w : Int) * c ∧ (fracBits w : Int) * c < 9223372036854775808 := by
  have hw := fracBits_lt w
  refine ⟨by positivity, ?_⟩
  calc (fracBits w : Int) * c ≤ 4294967295 * 2147483647 := Int.mul_le_mul (by omega) h1 h0 (by decide)
    _ < _ := by decide

theorem Fx.lolo_bounds (x y : Word) : 0 ≤ asr (Fx.lolo x y) 32 ∧ asr (Fx.lolo x y) 32 < 4294967296 := by
  have hx := fracBits_lt x
  have hy := fracBits_lt y
  have hnonneg : 0 ≤ Fx.lolo x y := by rw [Fx.lolo]; positivity
  have hle : Fx.lolo x y ≤ 4294967295 * 4294967295 := Int.mul_le_mul (by omega) (by omega) (by omega) (by decide)
  rw [asr]
  omega

/-- Why R103 needs `ov`: for operands that are not negative a product of 2^64 or more can leave the sum positive, and then an addition
has carried. -/
theorem Fx.mul_overflow_iff {x y : Word} (hx : 0 ≤ x.toInt) (hy : 0 ≤ y.toInt) (htop : Fx.hihi x y < 4294967296) :
    ((s64 (x.toInt * y.toInt / 2 ^ 32)).toInt < 0 ∨ Fx.mulCarry x y) ↔ 9223372036854775808 ≤ x.toInt * y.toInt / 2 ^ 32 := by
  have hxb := toInt_bounds x
  have hyb := toInt_bounds y
  obtain ⟨hx0, hx1⟩ : 0 ≤ asr x.toInt 32 ∧ asr x.toInt 32 ≤ 2147483647 := by rw [asr]; omega
  obtain ⟨hy0, hy1⟩ : 0 ≤ asr y.toInt 32 ∧ asr y.toInt 32 ≤ 2147483647 := by rw [asr]; omega
  have hlolo := Fx.lolo_bounds x y
  have hlohi : 0 ≤ Fx.lohi x y ∧ Fx.lohi x y < 9223372036854775808 := fracBits_mul_bounds x hy0 hy1
  have hhilo : 0 ≤ Fx.hilo x y ∧ Fx.hilo x y < 9223372036854775808 := by
    rw [Fx.hilo, mul_comm]
    exact fracBits_mul_bounds y hx0 hx1
  have hhihi : 0 ≤ Fx.hihi x y := mul_nonneg hx0 hy0
  rw [← partials_sum, Fx.mulCarry]
  simp only [Fx.accCarry_s64, toInt_s64_neg_iff, Bool.or_eq_true, decide_eq_true_eq]
  omega

-- The truncated product's range (R104)

theorem floorProd_nonneg_of_sb_eq {x y : Word} (hs : sb x = sb y) : 0 ≤ x.toInt * y.toInt / 2 ^ 32 := by
  rw [sb_eq_iff] at hs
  refine Int.ediv_nonneg ?_ (by decide)
  rcases lt_or_ge x.toInt 0 with hx | hx
  · exact mul_nonneg_of_nonpos_of_nonpos hx.le (by omega)
  · exact mul_nonneg hx (by omega)

theorem floorProd_nonpos_of_sb_ne {x y : Word} (hs : sb x ≠ sb y) : x.toInt * y.toInt / 2 ^ 32 ≤ 0 := by
  rw [ne_eq, sb_eq_iff] at hs
  refine Int.ediv_le_of_le_mul (by decide) ?_
  rcases lt_or_ge x.toInt 0 with hx | hx
  · exact mul_nonpos_of_nonpos_of_nonneg hx.le (by omega)
  · exact mul_nonpos_of_nonneg_of_nonpos hx (by omega)

/-- Two negative factors: the product is at most that of the integer parts, which are the larger magnitudes. -/
theorem floorProd_le_of_neg {a b : Int} (ha : a < 0) (hb : b < 0) :
    a * b / 4294967296 ≤ a / 4294967296 * (b / 4294967296) * 4294967296 := by
  refine Int.ediv_le_of_le_mul (by decide) ?_
  calc a * b ≤ a / 4294967296 * 4294967296 * (b / 4294967296 * 4294967296) :=
        mul_le_mul_of_nonpos_of_nonpos (by omega) (by omega) (by omega) (by omega)
    _ = _ := by ring

/-- Opposite signs with `top` clear: the product is above the negative factor less 2^64. So the sum wraps at most once, and a wrapped sum
is above the negative factor. -/
theorem sub_lt_floorProd {n p : Int} (hn : n < 0) (htop : -4294967296 ≤ n / 4294967296 * (p / 4294967296)) :
    n - 18446744073709551616 < n * p / 4294967296 := by
  have hlow : n * 4294967296 - 4294967296 * (4294967296 * 4294967296) + 4294967296 ≤ n * p := by
    rcases le_total p 4294967296 with hp | hp
    · have := mul_le_mul_of_nonpos_left hp hn.le
      omega
    · have hwhole : n / 4294967296 * 4294967296 * (p - 4294967296) ≤ n * (p - 4294967296) :=
        mul_le_mul_of_nonneg_right (by omega) (by omega)
      have hfrac : n / 4294967296 * 4294967296 * (p / 4294967296 * 4294967296 - 1) ≤
          n / 4294967296 * 4294967296 * (p - 4294967296) := mul_le_mul_of_nonpos_left (by omega) (by omega)
      have hn' : n / 4294967296 ≤ -1 := by omega
      linarith
  omega

/-- A factor above ONE only makes a negative factor more negative. -/
theorem floorProd_le_left {n p : Int} (hn : n < 0) (hp : 4294967296 < p) : n * p / 4294967296 ≤ n :=
  Int.ediv_le_of_le_mul (by decide) (mul_le_mul_of_nonpos_left hp.le hn.le)

/-- A product below MINV has both factors beyond ONE, so R103's last test lets every such sum through to its comparison. -/
theorem factors_of_floorProd_lt {n p : Int} (hn : -9223372036854775808 ≤ n) (hn0 : n < 0) (hp0 : 0 ≤ p) (hp : p < 9223372036854775808)
    (h : n * p / 4294967296 < -9223372036854775808) : n < -4294967296 ∧ 4294967296 < p := by
  refine ⟨lt_of_not_ge fun hc => ?_, lt_of_not_ge fun hc => ?_⟩
  · have := mul_le_mul_of_nonneg_right hc hp0
    omega
  · have := mul_le_mul_of_nonpos_left hc hn0.le
    omega

-- The exits of MUL when `top` is clear (R103, R104)

theorem Fx.mul_same_exit_iff {x y : Word} (hs : sb x = sb y) (htop : Fx.hihi x y < 4294967296) :
    ((s64 (x.toInt * y.toInt / 2 ^ 32)).toInt < 0 ∨ Fx.mulCarry x y ∧ x.toInt > 0) ↔ 2 ^ 63 ≤ x.toInt * y.toInt / 2 ^ 32 := by
  have hF0 := floorProd_nonneg_of_sb_eq hs
  rw [sb_eq_iff] at hs
  rcases lt_trichotomy x.toInt 0 with hx | hx | hx
  · have hle : x.toInt * y.toInt / 4294967296 ≤ Fx.hihi x y * 4294967296 := floorProd_le_of_neg hx (hs.mp hx)
    rw [toInt_s64_neg_iff]
    omega
  · simp [hx, s64]
  · rw [gt_iff_lt, and_iff_left hx]
    exact Fx.mul_overflow_iff hx.le (by omega) htop

theorem Fx.mul_opposite_exit_iff {x y : Word} (hs : sb x ≠ sb y) (htop : -4294967296 ≤ Fx.hihi x y) :
    ((s64 (x.toInt * y.toInt / 2 ^ 32)).toInt > 0 ∨ (s64 (x.toInt * y.toInt / 2 ^ 32)).toInt > x.toInt ⊓ y.toInt ∧
      x.toInt ⊓ y.toInt < -4294967296 ∧ x.toInt ⊔ y.toInt > 4294967296) ↔ x.toInt * y.toInt / 2 ^ 32 < -2 ^ 63 := by
  have hxb := toInt_bounds x
  have hyb := toInt_bounds y
  have hF0 := floorProd_nonpos_of_sb_ne hs
  rw [ne_eq, sb_eq_iff] at hs
  have htop' : -4294967296 ≤ (x.toInt ⊓ y.toInt) / 4294967296 * ((x.toInt ⊔ y.toInt) / 4294967296) := by
    have h : -4294967296 ≤ x.toInt / 4294967296 * (y.toInt / 4294967296) := htop
    rcases le_total x.toInt y.toInt with hle | hle
    · rwa [inf_eq_left.mpr hle, sup_eq_right.mpr hle]
    · rwa [inf_eq_right.mpr hle, sup_eq_left.mpr hle, mul_comm]
  obtain ⟨hn, hn0, hp0, hp⟩ : -9223372036854775808 ≤ x.toInt ⊓ y.toInt ∧ x.toInt ⊓ y.toInt < 0 ∧
      0 ≤ x.toInt ⊔ y.toInt ∧ x.toInt ⊔ y.toInt < 9223372036854775808 := by omega
  rw [← min_mul_max x.toInt y.toInt] at hF0 ⊢
  generalize x.toInt ⊓ y.toInt = n at *
  generalize x.toInt ⊔ y.toInt = p at *
  have hlow := sub_lt_floorProd hn0 htop'
  by_cases hF : n * p / 2 ^ 32 < -2 ^ 63
  · have hfactors := factors_of_floorProd_lt hn hn0 hp0 hp hF
    rw [toInt_s64_below _ (by omega) (by omega)]
    omega
  · have hle : 4294967296 < p → n * p / 4294967296 ≤ n := floorProd_le_left hn0
    rw [toInt_s64_of_range _ (by omega) (by omega)]
    omega

-- The digit loop of DIV (R105)

theorem Fx.div_zero (x : Word) : Fx.div x 0#64 = .error .divideByZero := rfl

theorem Fx.div_of_digits_none {x y : Word} (hy : y ≠ 0#64)
    (h : Fx.divDigits 34 x.toInt.natAbs (Fx.stripNibbles 8 y.toInt.natAbs 33).1 0 (Fx.stripNibbles 8 y.toInt.natAbs 33).2 = none) :
    Fx.div x y = .ok (if sb x = sb y then maxV else minV) := by
  simp only [Fx.div, if_neg hy, h]

theorem Fx.div_of_digits_some {x y : Word} {q : Nat} (hy : y ≠ 0#64)
    (h : Fx.divDigits 34 x.toInt.natAbs (Fx.stripNibbles 8 y.toInt.natAbs 33).1 0 (Fx.stripNibbles 8 y.toInt.natAbs 33).2 = some q) :
    Fx.div x y = .ok (s64 (if sb x = sb y then u64 (q + 1) / 2 else -(u64 (q + 1) / 2))) := by
  simp only [Fx.div, if_neg hy, h, ne_eq, ite_not]

/-- Long division: the quotient of a scaled dividend, from the quotient and the remainder before scaling. -/
theorem mul_div_split (a m : Nat) {d : Nat} (hd : 0 < d) : a * m / d = a / d * m + a % d * m / d := by
  calc a * m / d = (d * (a / d * m) + a % d * m) / d := by rw [← mul_assoc, ← Nat.add_mul, Nat.div_add_mod]
    _ = _ := Nat.mul_add_div hd _ _

/-- One round: `sh` bits are shifted in and `b` remain, one of which the doubled remainder takes. No remainder wraps. -/
theorem Fx.divDigits_round (n q bp : Nat) {rem d : Nat} (hrem : rem ≠ 0) (hd : 0 < d) (hd' : d ≤ 2 ^ 63) :
    ∃ sh b, sh + b = bp ∧ Fx.divDigits (n + 1) rem d q bp =
      if 2 ^ (64 - b) ≤ rem * 2 ^ sh / d then none
      else Fx.divDigits n (2 * (rem * 2 ^ sh % d)) d (u64 (q + u64 (rem * 2 ^ sh / d * 2 ^ b))) ((b : Int) - 1) := by
  refine ⟨Fx.clz64 rem ⊓ bp, bp - Fx.clz64 rem ⊓ bp, by omega, ?_⟩
  have hlast := Nat.mod_lt (rem * 2 ^ (Fx.clz64 rem ⊓ bp)) hd
  rw [Fx.divDigits, if_pos ⟨hrem, Int.natCast_nonneg bp⟩]
  simp only [Int.toNat_natCast]
  rw [u64_of_lt (v := rem * 2 ^ (Fx.clz64 rem ⊓ bp) % d * 2) (by omega), mul_comm _ 2]

/-- From the second round on the remainder is below `2·d`: the loop appends the quotient's `bp` bits to `q` and never overflows. -/
theorem Fx.divDigits_reduced (n bp rem d q : Nat) (hn : bp ≤ n) (hd : 0 < d) (hd' : d ≤ 2 ^ 63) (hrem : rem < 2 * d)
    (hq : q + 2 ^ bp ≤ 2 ^ 64) : Fx.divDigits n rem d q ((bp : Int) - 1) = some (q + rem * 2 ^ bp / (2 * d)) := by
  induction n generalizing bp rem q with
  | zero =>
    obtain rfl : bp = 0 := by omega
    simp [Fx.divDigits, Nat.div_eq_of_lt hrem]
  | succ n ih =>
    rcases bp with _ | bp
    · simp [Fx.divDigits, Nat.div_eq_of_lt hrem]
    by_cases h0 : rem = 0
    · simp [Fx.divDigits, h0]
    obtain ⟨sh, b, rfl, hround⟩ := Fx.divDigits_round n q bp h0 hd hd'
    have hdigits : rem * 2 ^ sh / d < 2 ^ (sh + 1) := by
      rw [Nat.div_lt_iff_lt_mul hd]
      calc rem * 2 ^ sh < 2 * d * 2 ^ sh := Nat.mul_lt_mul_of_pos_right hrem (by positivity)
        _ = _ := by ring
    have hfit : rem * 2 ^ sh / d * 2 ^ b + 2 ^ b ≤ 2 ^ (sh + b + 1) := by
      calc _ = (rem * 2 ^ sh / d + 1) * 2 ^ b := by ring
        _ ≤ 2 ^ (sh + 1) * 2 ^ b := Nat.mul_le_mul_right _ hdigits
        _ = _ := by ring
    have hb : 0 < 2 ^ b := by positivity
    have hb64 : b ≤ 64 := (Nat.pow_le_pow_iff_right (a := 2) (by decide)).mp (by omega)
    have htest : ¬ 2 ^ (64 - b) ≤ rem * 2 ^ sh / d := fun h => by
      have := Nat.mul_le_mul_right (2 ^ b) h
      rw [pow_sub_mul_pow 2 hb64] at this
      omega
    have hlast := Nat.mod_lt (rem * 2 ^ sh) hd
    push_cast
    rw [add_sub_cancel_right, ← Nat.cast_add, hround, if_neg htest, u64_of_lt (v := _ * 2 ^ b) (by omega), u64_of_lt (by omega),
      ih b _ _ (by omega) (by omega) (by omega)]
    congr 1
    calc q + rem * 2 ^ sh / d * 2 ^ b + 2 * (rem * 2 ^ sh % d) * 2 ^ b / (2 * d)
        = q + (rem * 2 ^ sh / d * 2 ^ b + rem * 2 ^ sh % d * 2 ^ b / d) := by
          rw [mul_assoc 2, Nat.mul_div_mul_left _ _ (by decide), add_assoc]
      _ = q + 2 * (rem * 2 ^ sh * 2 ^ b) / (2 * d) := by
          rw [← mul_div_split _ _ hd, Nat.mul_div_mul_left _ _ (by decide)]
      _ = _ := by ring_nf

/-- The whole loop: the quotient, or the overflow exit when it passes 64 bits, which the first round alone can tell. -/
theorem Fx.divDigits_eq (n bp rem d : Nat) (hn : bp ≤ n) (hbp : bp ≤ 64) (hd : 0 < d) (hd' : d ≤ 2 ^ 63) :
    Fx.divDigits (n + 1) rem d 0 bp = if 2 ^ 64 ≤ rem * 2 ^ bp / d then none else some (rem * 2 ^ bp / d) := by
  by_cases h0 : rem = 0
  · simp [Fx.divDigits, h0]
  obtain ⟨sh, b, rfl, hround⟩ := Fx.divDigits_round n 0 bp h0 hd hd'
  have hquot : rem * 2 ^ (sh + b) / d = rem * 2 ^ sh / d * 2 ^ b + rem * 2 ^ sh % d * 2 ^ b / d := by
    rw [pow_add, ← mul_assoc, mul_div_split _ _ hd]
  have hdigits : rem * 2 ^ (sh + b) / d / 2 ^ b = rem * 2 ^ sh / d := by
    rw [Nat.div_div_eq_div_mul, pow_add, ← mul_assoc, Nat.mul_div_mul_right _ _ (by positivity)]
  have htest : 2 ^ (64 - b) ≤ rem * 2 ^ sh / d ↔ 2 ^ 64 ≤ rem * 2 ^ (sh + b) / d := by
    rw [← hdigits, Nat.le_div_iff_mul_le (by positivity), pow_sub_mul_pow 2 (by omega)]
  rw [hround]
  refine if_ctx_congr htest (fun _ => rfl) fun hlt => ?_
  have hfit : rem * 2 ^ sh / d * 2 ^ b + 2 ^ b ≤ 2 ^ 64 := by
    have := Nat.mul_le_mul_right (2 ^ b) (Nat.succ_le_of_lt (not_le.mp (mt htest.mp hlt)))
    rw [pow_sub_mul_pow 2 (by omega)] at this
    linarith
  have hb : 0 < 2 ^ b := by positivity
  have hlast := Nat.mod_lt (rem * 2 ^ sh) hd
  rw [u64_of_lt (v := _ * 2 ^ b) (by omega), u64_of_lt (by omega), Nat.zero_add,
    Fx.divDigits_reduced n b _ d _ (by omega) hd hd' (by omega) hfit, hquot, mul_assoc 2, Nat.mul_div_mul_left _ _ (by decide)]

/-- A nibble off the divisor and 4 off the bit position leave the quotient as it is. -/
theorem Fx.stripNibbles_quotient (n a bp : Nat) {d : Nat} (hd : 0 < d) :
    0 < (Fx.stripNibbles n d bp).1 ∧ (Fx.stripNibbles n d bp).1 ≤ d ∧ (Fx.stripNibbles n d bp).2 ≤ bp ∧
      a * 2 ^ (Fx.stripNibbles n d bp).2 / (Fx.stripNibbles n d bp).1 = a * 2 ^ bp / d := by
  obtain ⟨k, hdk, hbk⟩ := Fx.stripNibbles_exact n d bp
  generalize (Fx.stripNibbles n d bp).1 = d' at *
  generalize (Fx.stripNibbles n d bp).2 = bp' at *
  subst hdk hbk
  have h16 : 0 < 16 ^ k := by positivity
  refine ⟨Nat.pos_of_mul_pos_right hd, Nat.le_mul_of_pos_right _ h16, by omega, ?_⟩
  rw [pow_add, pow_mul 2 4 k, ← mul_assoc, show 2 ^ 4 = 16 from rfl, Nat.mul_div_mul_right _ _ h16]

/-- R105's digits are R106's `Q`. -/
theorem Fx.divDigits_strip (a : Nat) {d : Nat} (hd : 0 < d) (hd' : d ≤ 2 ^ 63) :
    Fx.divDigits 34 a (Fx.stripNibbles 8 d 33).1 0 (Fx.stripNibbles 8 d 33).2 =
      if 2 ^ 64 ≤ a * 2 ^ 33 / d then none else some (a * 2 ^ 33 / d) := by
  obtain ⟨hpos, hle, hbp, hquot⟩ := Fx.stripNibbles_quotient 8 a 33 hd
  rw [Fx.divDigits_eq 33 _ a _ hbp (by omega) hpos (by omega), hquot]

/-- Why R105's rounding `+ 1` never wraps: no quotient of raw magnitudes is 2^64 - 1. -/
theorem quotient_ne_max {a d : Nat} (ha : a ≤ 2 ^ 63) (hd : 0 < d) : a * 2 ^ 33 / d ≠ 2 ^ 64 - 1 := fun h => by
  obtain ⟨hle, hlt⟩ := (Nat.div_eq_iff hd).mp h
  omega

-- Remainders (R107, R111)

theorem natAbs_tmod_lt (a : Int) {b : Int} (hb : b ≠ 0) : (a.tmod b).natAbs < b.natAbs := by
  rw [Int.natAbs_tmod]
  exact Nat.mod_lt _ (Int.natAbs_pos.mpr hb)

theorem tmod_eq_zero_or_neg_iff (a b : Int) : a.tmod b = 0 ∨ (a.tmod b < 0 ↔ a < 0) := by
  rcases lt_or_ge a 0 with ha | ha
  · have hneg := Int.tmod_nonneg (a := -a) b (by omega)
    rw [Int.neg_tmod] at hneg
    omega
  · have hnonneg := Int.tmod_nonneg b ha
    omega

/-- A truncated remainder is a raw value when the divisor is. -/
theorem toInt_s64_tmod (a : Int) {y : Word} (hy : y ≠ 0#64) : (s64 (a.tmod y.toInt)).toInt = a.tmod y.toInt := by
  have hlt := natAbs_tmod_lt a (toInt_ne_zero hy)
  have hyb := toInt_bounds y
  exact toInt_s64_of_range _ (by omega) (by omega)

theorem Fx.mod_zero (x : Word) : Fx.mod x 0#64 = .error .divideByZero := rfl

/-- The special case `(MINV, -1)` gives the remainder's own value. -/
theorem Fx.mod_of_ne_zero (x : Word) {y : Word} (hy : y ≠ 0#64) : Fx.mod x y = .ok (s64 (x.toInt.tmod y.toInt)) := by
  rw [Fx.mod, if_neg hy, ite_eq_right_iff]
  rintro ⟨-, hy1⟩
  rw [hy1, Int.tmod_neg, Int.tmod_one]
  rfl

theorem Fx.fastmod_zero (x : Word) : Fx.fastmod x 0#64 = .error .divideByZero := rfl

theorem Fx.fastmod_of_not_overflow {x y : Word} (hy : y ≠ 0#64) (h : ¬ (x = minV ∧ y.toInt = -1)) :
    Fx.fastmod x y = .ok (s64 (x.toInt.tmod y.toInt)) := by
  rw [Fx.fastmod, if_neg hy, if_neg h]

theorem Fx.fastmod_minV_neg_one {y : Word} (hy : y.toInt = -1) :
    (∀ v, Config.fastmodMinNeg1 = some v → Fx.fastmod minV y = .ok v) ∧
    (Config.fastmodMinNeg1 = none → Fx.fastmod minV y = .error .fastModOverflow) := by
  have hy0 : y ≠ 0#64 := by rintro rfl; exact absurd hy (by decide)
  refine ⟨fun v hc => ?_, fun hc => ?_⟩ <;> rw [Fx.fastmod, if_neg hy0, if_pos ⟨rfl, hy⟩, hc]

end Sys2Proof.Machine

namespace Sys2Proof.Claims

open Sys2Proof.Machine

-- Clamping (R100 to R102)

theorem clampRaw_of_range {v : Int} (h1 : -2 ^ 63 ≤ v) (h2 : v < 2 ^ 63) : clampRaw v = s64 v := by
  rw [clampRaw, if_neg (by omega), if_neg (by omega), s64]

theorem clampRaw_of_lt {v : Int} (h : v < -2 ^ 63) : clampRaw v = minV := if_pos h

theorem clampRaw_of_ge {v : Int} (h : 2 ^ 63 ≤ v) : clampRaw v = maxV := by
  rw [clampRaw, if_neg (by omega), if_pos (by omega)]

/-- R100's overflow test fires exactly when the sum is out of range, and then `x > 0` tells on which side. -/
theorem fxAdd_eq_clampRaw (x y : Word) : Fx.add x y = clampRaw (x.toInt + y.toInt) := by
  have hx := toInt_bounds x
  have hy := toInt_bounds y
  simp only [Fx.add, ne_eq, sb_eq_iff]
  by_cases hlo : x.toInt + y.toInt < -2 ^ 63
  · rw [clampRaw_of_lt hlo, toInt_s64_below _ (by omega) (by omega), if_pos (by omega), if_neg (by omega)]
  by_cases hhi : 2 ^ 63 ≤ x.toInt + y.toInt
  · rw [clampRaw_of_ge hhi, toInt_s64_above _ (by omega) (by omega), if_pos (by omega), if_pos (by omega)]
  · rw [clampRaw_of_range (by omega) (by omega), toInt_s64_of_range _ (by omega) (by omega), if_neg (by omega)]

/-- R101's overflow test fires exactly when the difference is out of range, and then the sign of `x` tells on which side. -/
theorem fxSub_eq_clampRaw (x y : Word) : Fx.sub x y = clampRaw (x.toInt - y.toInt) := by
  have hx := toInt_bounds x
  have hy := toInt_bounds y
  simp only [Fx.sub, ne_eq, sb_eq_iff]
  by_cases hlo : x.toInt - y.toInt < -2 ^ 63
  · rw [clampRaw_of_lt hlo, toInt_s64_below _ (by omega) (by omega), if_pos (by omega), if_pos (by omega)]
  by_cases hhi : 2 ^ 63 ≤ x.toInt - y.toInt
  · rw [clampRaw_of_ge hhi, toInt_s64_above _ (by omega) (by omega), if_pos (by omega), if_neg (by omega)]
  · rw [clampRaw_of_range (by omega) (by omega), toInt_s64_of_range _ (by omega) (by omega), if_neg (by omega)]

theorem fxNeg_eq_clampRaw (x : Word) : Fx.neg x = clampRaw (-x.toInt) := by
  rw [Fx.neg, fxSub_eq_clampRaw, BitVec.toInt_zero, Int.zero_sub]

/-- Settles O26: the three functions are clamps. -/
theorem addSubNegSaturate : Obligations.AddSubNegSaturate := by
  intro s rd a b
  rw [exec_add, exec_sub, exec_neg, fxAdd_eq_clampRaw, fxSub_eq_clampRaw, fxNeg_eq_clampRaw]
  exact ⟨rfl, rfl, rfl⟩

-- Multiplication (R103, R104)

theorem signBound_of_sb_eq {x y : Word} (hs : sb x = sb y) : signBound x y = maxV := if_pos hs

theorem signBound_of_sb_ne {x y : Word} (hs : sb x ≠ sb y) : signBound x y = minV := if_neg hs

theorem toInt_s64_floorProd {x y : Word} (h : FloorInRange x y) :
    (s64 (x.toInt * y.toInt / 2 ^ 32)).toInt = x.toInt * y.toInt / 2 ^ 32 :=
  toInt_s64_of_range _ (by omega) (by omega)

theorem fxMul_of_not_topIsClear {x y : Word} (h : ¬ TopIsClear x y) : Fx.mul x y = signBound x y := by
  have htop : asr (Fx.hihi x y) 32 ≠ 0 ∧ asr (Fx.hihi x y) 32 ≠ -1 := not_or.mp h
  rw [Fx.mul_exits, if_pos htop]
  by_cases hs : sb x = sb y
  · simp [hs, signBound_of_sb_eq hs]
  · simp [hs, signBound_of_sb_ne hs]

/-- With `top` clear, R103's other tests together fire exactly when the truncated product is out of range. -/
theorem fxMul_of_topIsClear {x y : Word} (h : TopIsClear x y) :
    Fx.mul x y = if FloorInRange x y then s64 (x.toInt * y.toInt / 2 ^ 32) else signBound x y := by
  have hhihi : Fx.hihi x y / 2 ^ 32 = 0 ∨ Fx.hihi x y / 2 ^ 32 = -1 := h
  have htop : ¬ (asr (Fx.hihi x y) 32 ≠ 0 ∧ asr (Fx.hihi x y) 32 ≠ -1) := not_and_or.mpr (hhihi.imp not_not.mpr not_not.mpr)
  rw [Fx.mul_exits, if_neg htop, ← ite_not (FloorInRange x y)]
  by_cases hs : sb x = sb y
  · have hF := floorProd_nonneg_of_sb_eq hs
    have hexit := Fx.mul_same_exit_iff hs (by omega)
    simp only [hs, true_and, not_true_eq_false, false_and, if_false, signBound_of_sb_eq hs]
    exact if_congr (hexit.trans (by omega)) rfl rfl
  · have hF := floorProd_nonpos_of_sb_ne hs
    have hexit := Fx.mul_opposite_exit_iff hs (by omega)
    simp only [hs, not_false_eq_true, true_and, false_and, if_false, ← ite_or, signBound_of_sb_ne hs]
    exact if_congr (hexit.trans (by omega)) rfl rfl

/-- All of MUL (R103, R104 items 1 to 4). -/
theorem fxMul_eq (x y : Word) :
    Fx.mul x y = if FloorInRange x y ∧ TopIsClear x y then s64 (x.toInt * y.toInt / 2 ^ 32) else signBound x y := by
  by_cases h : TopIsClear x y
  · simp only [fxMul_of_topIsClear h, h, and_true]
  · simp only [fxMul_of_not_topIsClear h, h, and_false, if_false]

theorem fxMul_of_floorInRange {x y : Word} (hr : FloorInRange x y) (ht : TopIsClear x y) :
    Fx.mul x y = s64 (x.toInt * y.toInt / 2 ^ 32) := by
  rw [fxMul_eq, if_pos ⟨hr, ht⟩]

theorem fxMul_comm (x y : Word) : Fx.mul x y = Fx.mul y x := by
  simp only [fxMul_eq, FloorInRange, TopIsClear, signBound, mul_comm, eq_comm]

theorem fxMul_zero (x : Word) : Fx.mul x 0#64 = 0#64 := by
  rw [fxMul_of_floorInRange (by simp [FloorInRange]) (by simp [TopIsClear])]
  simp [s64]

theorem fxMul_oneV (x : Word) : Fx.mul x oneV = x := by
  have hx := toInt_bounds x
  have hfloor : x.toInt * oneV.toInt / 2 ^ 32 = x.toInt := Int.mul_ediv_cancel _ (by decide)
  have hhihi : x.toInt / 2 ^ 32 * (oneV.toInt / 2 ^ 32) = x.toInt / 2 ^ 32 := Int.mul_one _
  have hr : FloorInRange x oneV := by rw [FloorInRange, hfloor]; omega
  have ht : TopIsClear x oneV := by rw [TopIsClear, hhihi]; omega
  rw [fxMul_of_floorInRange hr ht, hfloor, s64_toInt]

theorem fxMul_self_nonneg (x : Word) : 0 ≤ (Fx.mul x x).toInt := by
  rw [fxMul_eq]
  split
  next h =>
    rw [toInt_s64_floorProd h.1]
    exact floorProd_nonneg_of_sb_eq rfl
  next =>
    rw [signBound_of_sb_eq rfl]
    decide

/-- Settles O27: the fast functions are the wrapped results, and where the checked ones do not saturate they narrow the same integer. -/
theorem fastVariantsWrap : Obligations.FastVariantsWrap := by
  intro s rd a b
  rw [exec_fastadd, exec_fastsub, exec_fastmul, exec_add, exec_sub, exec_mul, Fx.fastadd_eq, Fx.fastsub_eq, Fx.fastmul_eq,
    fxAdd_eq_clampRaw, fxSub_eq_clampRaw]
  refine ⟨rfl, rfl, rfl, fun ⟨h1, h2⟩ => ?_, fun ⟨h1, h2⟩ => ?_, fun hr ht => ?_⟩
  · rw [clampRaw_of_range h1 h2, s64_add]
  · rw [clampRaw_of_range h1 h2, s64_sub]
  · rw [fxMul_of_floorInRange hr ht, s64]

/-- Settles O28: each clause reads off one of the two cases of `fxMul_eq`. -/
theorem mulIsFloorOrBound : Obligations.MulIsFloorOrBound := by
  intro s rd a b
  refine ⟨_, exec_mul rd a b s, ?_⟩
  generalize s.reg a = x
  generalize s.reg b = y
  by_cases h : FloorInRange x y ∧ TopIsClear x y
  · have hv : (Fx.mul x y).toInt = x.toInt * y.toInt / 2 ^ 32 := by rw [fxMul_eq, if_pos h, toInt_s64_floorProd h.1]
    exact ⟨.inl hv, fun hr => absurd h.1 hr, fun _ _ => hv, fun ht => absurd h.2 ht⟩
  · have hv : Fx.mul x y = signBound x y := by rw [fxMul_eq, if_neg h]
    exact ⟨.inr hv, fun _ => hv, fun hr ht => absurd ⟨hr, ht⟩ h, fun _ => hv⟩

/-- Settles O29: `fxMul_eq` is symmetric, and it is evaluated at 0, at ONE and at equal operands. -/
theorem mulLaws : Obligations.MulLaws := by
  refine ⟨fun s rd a b => ?_, fxMul_zero, fxMul_oneV, fxMul_self_nonneg⟩
  rw [exec_mul, fxMul_comm]

-- Division (R105, R106)

theorem divClosed_of_large {x y : Word} (h : 2 ^ 64 ≤ x.toInt.natAbs * 2 ^ 33 / y.toInt.natAbs) :
    divClosed x y = if sb x = sb y then maxV else minV := if_pos h

theorem divClosed_of_small {x y : Word} (h : x.toInt.natAbs * 2 ^ 33 / y.toInt.natAbs < 2 ^ 64) :
    divClosed x y = s64 (if sb x = sb y then (((x.toInt.natAbs * 2 ^ 33 / y.toInt.natAbs + 1) / 2 : Nat) : Int)
      else -(((x.toInt.natAbs * 2 ^ 33 / y.toInt.natAbs + 1) / 2 : Nat) : Int)) := if_neg (not_le.mpr h)

theorem fxDiv_eq_divClosed (x : Word) {y : Word} (hy : y ≠ 0#64) : Fx.div x y = .ok (divClosed x y) := by
  have hxb := toInt_bounds x
  have hyb := toInt_bounds y
  have hy0 := toInt_ne_zero hy
  have hmax := quotient_ne_max (a := x.toInt.natAbs) (d := y.toInt.natAbs) (by omega) (by omega)
  have hdigits := Fx.divDigits_strip x.toInt.natAbs (d := y.toInt.natAbs) (by omega) (by omega)
  by_cases hbig : 2 ^ 64 ≤ x.toInt.natAbs * 2 ^ 33 / y.toInt.natAbs
  · rw [if_pos hbig] at hdigits
    rw [Fx.div_of_digits_none hy hdigits, divClosed_of_large hbig]
  · rw [if_neg hbig] at hdigits
    rw [Fx.div_of_digits_some hy hdigits, divClosed_of_small (not_le.mp hbig), u64_of_lt (by omega), Int.natCast_ediv]
    rfl

/-- Settles O30: the digit loop's value for a non-zero divisor, the fault for zero. -/
theorem divIsItsClosedForm : Obligations.DivIsItsClosedForm := by
  intro s rd a b
  rw [exec_div]
  refine ⟨fun hb => ?_, fun hb => ?_⟩
  · rw [fxDiv_eq_divClosed _ hb]
    exact completeS_ok _ rd _ s rfl
  · rw [hb, Fx.div_zero]
    exact completeS_error _ rd _ s rfl

-- Remainders (R107, R111)

/-- Settles O31: MOD narrows the truncated remainder, which is a raw value already. -/
theorem modIsTruncatedRemainder : Obligations.ModIsTruncatedRemainder := by
  intro s rd a b
  rw [exec_mod]
  refine ⟨fun hb => ?_, fun hb => ?_⟩
  · rw [Fx.mod_of_ne_zero _ hb]
    refine ⟨_, completeS_ok _ rd _ s rfl, ?_⟩
    rw [toInt_s64_tmod _ hb]
    exact ⟨rfl, natAbs_tmod_lt _ (toInt_ne_zero hb), tmod_eq_zero_or_neg_iff _ _⟩
  · rw [hb, Fx.mod_zero]
    exact completeS_error _ rd _ s rfl

/-- Settles O32: the same remainder as MOD but at `(MINV, -1)`, where both choices of the parameter are followed. -/
theorem fastModFollowsItsParameter : Obligations.FastModFollowsItsParameter := by
  intro s rd a b
  rw [exec_fastmod, exec_mod]
  refine ⟨fun hb hab => ?_, fun ha hb => ?_, fun hb => ?_⟩
  · rw [Fx.fastmod_of_not_overflow hb hab, Fx.mod_of_ne_zero _ hb]
    exact ⟨_, completeS_ok _ rd _ s rfl, completeS_ok _ rd _ s rfl, toInt_s64_tmod _ hb⟩
  · obtain ⟨hvalue, hfault⟩ := Fx.fastmod_minV_neg_one hb
    rw [ha]
    cases hc : Config.fastmodMinNeg1 with
    | none => rw [hfault hc]; exact completeS_error _ rd _ s rfl
    | some v => rw [hvalue v hc]; exact completeS_ok _ rd _ s rfl
  · rw [hb, Fx.fastmod_zero]
    exact completeS_error _ rd _ s rfl

end Sys2Proof.Claims
end

