-- ==== Sys2Proof/Proofs/RoundingSign.lean ====
section
/-!
PROOFS. Rounding and sign (spec/42_rounding_sign.md). FLOOR is the floor of the value and never saturates; CEIL, ROUND and TRUNC are the
floor or one integer above it, so that each comes down to which of the two it takes and whether the step up saturates.
-/

namespace Sys2Proof.Machine

-- How the commands of this family end (R34, R35)

theorem exec_abs (rd rs1 : Reg) (s : State) : exec (.abs rd rs1) s = .next (s.setReg rd (Fx.abs (s.reg rs1))) :=
  completeS_ok (.abs rd rs1) rd _ s rfl

theorem exec_sign (rd rs1 : Reg) (s : State) : exec (.sign rd rs1) s = .next (s.setReg rd (Fx.sign (s.reg rs1))) :=
  completeS_ok (.sign rd rs1) rd _ s rfl

theorem exec_floor (rd rs1 : Reg) (s : State) : exec (.floor rd rs1) s = .next (s.setReg rd (Fx.floor (s.reg rs1))) :=
  completeS_ok (.floor rd rs1) rd _ s rfl

theorem exec_ceil (rd rs1 : Reg) (s : State) : exec (.ceil rd rs1) s = .next (s.setReg rd (Fx.ceil (s.reg rs1))) :=
  completeS_ok (.ceil rd rs1) rd _ s rfl

theorem exec_round (rd rs1 : Reg) (s : State) : exec (.round rd rs1) s = .next (s.setReg rd (Fx.round (s.reg rs1))) :=
  completeS_ok (.round rd rs1) rd _ s rfl

theorem exec_trunc (rd rs1 : Reg) (s : State) : exec (.trunc rd rs1) s = .next (s.setReg rd (Fx.trunc (s.reg rs1))) :=
  completeS_ok (.trunc rd rs1) rd _ s rfl

-- The fraction and the floor of a raw value (R9, R142)

/-- The fraction bits are the remainder of floor division, on either side of zero. -/
theorem fracBits_eq_emod (w : Word) : (fracBits w : Int) = w.toInt % 2 ^ 32 := by
  have hsplit := toInt_split w
  have hlt := fracBits_lt w
  rw [asr] at hsplit
  omega

/-- R142's mask is all ones above the fraction. -/
theorem Fx.floor_eq_shifts (x : Word) : Fx.floor x = (x >>> 32) <<< 32 := by
  rw [BitVec.shiftLeft_ushiftRight]
  rfl

/-- R142's mask is floor division, since it clears the fraction bits and keeps the sign. -/
theorem Fx.toInt_floor (x : Word) : (Fx.floor x).toInt = x.toInt / 2 ^ 32 * 2 ^ 32 := by
  have hx := x.isLt
  have hfloor : (Fx.floor x).toNat = x.toNat / 2 ^ 32 * 2 ^ 32 := by
    rw [Fx.floor_eq_shifts, BitVec.toNat_shiftLeft, BitVec.toNat_ushiftRight, Nat.shiftRight_eq_div_pow, Nat.shiftLeft_eq]
    omega
  rw [BitVec.toInt_eq_toNat_cond, BitVec.toInt_eq_toNat_cond, hfloor]
  omega

/-- Bit 32 of the floor, which R144 tests at a tie, is the parity of the integer part. -/
theorem Fx.floor_bit32_false_iff (x : Word) : (Fx.floor x).getLsbD 32 = false ↔ x.toInt / 2 ^ 32 % 2 = 0 := by
  have hx := x.isLt
  have hbit : (Fx.floor x).getLsbD 32 = x.getLsbD 32 := by simp [Fx.floor_eq_shifts]
  rw [hbit, BitVec.getLsbD, Nat.testBit_eq_decide_div_mod_eq, decide_eq_false_iff_not, BitVec.toInt_eq_toNat_cond]
  omega

/-- R10's wrap of the complement, which R140 forms with an XOR. -/
theorem not_s64 (v : Int) : ~~~ s64 v = s64 (-v - 1) := by
  rw [BitVec.not_eq_neg_add, s64, s64, Int.sub_eq_add_neg, BitVec.ofInt_add, BitVec.ofInt_neg, BitVec.sub_eq_add_neg]
  rfl

-- Absolute value and sign (R140, R141)

theorem toInt_ne_of_ne_minV {x : Word} (h : x ≠ minV) : x.toInt ≠ -2 ^ 63 := fun hx => h (BitVec.eq_of_toInt_eq hx)

/-- R140's `m` is 0 or all ones, so that its sum and XOR leave `x` or complement `x - 1`. -/
theorem Fx.abs_of_ne_minV {x : Word} (h : x ≠ minV) : Fx.abs x = s64 |x.toInt| := by
  have hx := toInt_bounds x
  simp only [Fx.abs, if_neg h]
  obtain hneg | hpos := Int.lt_or_le x.toInt 0
  · have hm : asr x.toInt 63 = -1 := by rw [asr]; omega
    have hones : s64 (-1) = BitVec.allOnes 64 := rfl
    rw [hm, hones, BitVec.xor_allOnes, not_s64, abs_of_neg hneg]
    congr 1
    omega
  · have hm : asr x.toInt 63 = 0 := by rw [asr]; omega
    have hzero : s64 0 = 0#64 := rfl
    rw [hm, hzero, BitVec.xor_zero, Int.add_zero, abs_of_nonneg hpos]

theorem Fx.sign_eq (x : Word) : Fx.sign x = s64 (x.toInt.sign * 2 ^ 32) := by
  rw [Fx.sign]
  obtain hneg | hzero | hpos := lt_trichotomy x.toInt 0
  · rw [if_pos hneg, Int.sign_eq_neg_one_of_neg hneg]
    rfl
  · rw [hzero]
    rfl
  · rw [if_neg (by omega), if_pos hpos, Int.sign_eq_one_of_pos hpos]
    rfl

end Sys2Proof.Machine

namespace Sys2Proof.Claims

open Sys2Proof.Machine

theorem clampRaw_toInt (w : Word) : clampRaw w.toInt = w := by
  have hw := toInt_bounds w
  rw [clampRaw_of_range (by omega) (by omega), s64_toInt]

theorem fxAbs_eq_clampRaw (x : Word) : Fx.abs x = clampRaw |x.toInt| := by
  by_cases h : x = minV
  · rw [h]
    rfl
  · have hx := toInt_bounds x
    have hne := toInt_ne_of_ne_minV h
    have habs := abs_cases x.toInt
    rw [Fx.abs_of_ne_minV h, clampRaw_of_range (by omega) (by omega)]

/-- Settles O33: ABS clamps at MINV alone, where `|x|` has no raw value, and SIGN is the scalar of the sign. -/
theorem absAndSign : Obligations.AbsAndSign := by
  intro s rd a
  rw [exec_abs, exec_sign, fxAbs_eq_clampRaw, Fx.sign_eq]
  exact ⟨rfl, rfl⟩

-- The floor and the integer above it (R142 to R145)

theorem fxFloor_eq_clampRaw (x : Word) : Fx.floor x = clampRaw (x.toInt / 2 ^ 32 * 2 ^ 32) := by
  rw [← Fx.toInt_floor, clampRaw_toInt]

/-- The step up that CEIL, ROUND and TRUNC share. -/
theorem fxAdd_floor_oneV (x : Word) : Fx.add (Fx.floor x) oneV = clampRaw ((x.toInt / 2 ^ 32 + 1) * 2 ^ 32) := by
  rw [fxAdd_eq_clampRaw, Fx.toInt_floor, Fx.oneV_toInt]
  congr 1
  omega

theorem fxFloor_eq_s64 (x : Word) : Fx.floor x = s64 (x.toInt / 2 ^ 32 * 2 ^ 32) := by
  rw [← Fx.toInt_floor, s64_toInt]

/-- The ceiling is one above the floor exactly where the fraction bits are not 0. -/
theorem fxCeil_eq_clampRaw (x : Word) : Fx.ceil x = clampRaw (-(-x.toInt / 2 ^ 32) * 2 ^ 32) := by
  have hfrac := fracBits_eq_emod x
  rw [Fx.ceil]
  split
  next h =>
    have hup : -(-x.toInt / 2 ^ 32) = x.toInt / 2 ^ 32 + 1 := by omega
    rw [fxAdd_floor_oneV, hup]
  next h =>
    have hint : -(-x.toInt / 2 ^ 32) * 2 ^ 32 = x.toInt := by omega
    rw [hint, clampRaw_toInt]

/-- The step up from a negative operand's floor ends at 0 at most, so that it does not saturate. -/
theorem fxTrunc_eq_s64 (x : Word) : Fx.trunc x =
    s64 (if 0 ≤ x.toInt then x.toInt / 2 ^ 32 * 2 ^ 32 else (x.toInt / 2 ^ 32 + 1) * 2 ^ 32) := by
  have hx := toInt_bounds x
  rw [Fx.trunc]
  by_cases h : 0 ≤ x.toInt
  · rw [if_pos h, if_pos h, fxFloor_eq_s64]
  · rw [if_neg h, if_neg h, fxAdd_floor_oneV, clampRaw_of_range (by omega) (by omega)]

/-- Settles O34: FLOOR and TRUNC stay in range, and CEIL saturates with the step up from the floor. -/
theorem floorCeilTrunc : Obligations.FloorCeilTrunc := by
  intro s rd a
  rw [exec_floor, exec_ceil, exec_trunc, fxFloor_eq_s64, fxCeil_eq_clampRaw, fxTrunc_eq_s64]
  exact ⟨rfl, rfl, rfl⟩

/-- R144's tests of the fraction bits and of bit 32 are the closed form's tests of the remainder and of the parity, in the same order. -/
theorem fxRound_eq_clampRaw (x : Word) : Fx.round x = clampRaw (nearestEven x.toInt * 2 ^ 32) := by
  have hfrac := fracBits_eq_emod x
  have hbelow : fracBits x < 0x80000000 ↔ 2 * (x.toInt % 2 ^ 32) < 2 ^ 32 := by omega
  have habove : fracBits x > 0x80000000 ↔ 2 ^ 32 < 2 * (x.toInt % 2 ^ 32) := by omega
  simp only [Fx.round, nearestEven, hbelow, habove, Fx.floor_bit32_false_iff, fxAdd_floor_oneV]
  split_ifs
  · exact fxFloor_eq_clampRaw x
  · rfl
  · exact fxFloor_eq_clampRaw x
  · rfl

/-- Settles O35: ROUND takes the floor or the integer above it by the tests of the closed form. -/
theorem roundHalfToEven : Obligations.RoundHalfToEven := by
  intro s rd a
  rw [exec_round, fxRound_eq_clampRaw]

end Sys2Proof.Claims
end

