-- ==== Sys2Proof/Proofs/Words.lean ====
section
/-!
SUPPORT. What the proofs of square root, logarithm and power share: a command's end from the value of its function, and raw values that
are natural numbers.
-/

namespace Sys2Proof.Machine

-- How a command with one destination ends, from the value of its function (R34, R35)

theorem completeS_of_ok (i : Instr) (rd : Reg) {r : Except Cause Word} {v : Word} (s : State) (hw : i.wellFormed = true)
    (h : r = .ok v) : completeS i rd r s = .next (s.setReg rd v) := h ▸ completeS_ok i rd v s hw

theorem completeS_of_error (i : Instr) (rd : Reg) {r : Except Cause Word} {c : Cause} (s : State) (hw : i.wellFormed = true)
    (h : r = .error c) : completeS i rd r s = .next (s.faultEntry c (encode i)) := h ▸ completeS_error i rd c s hw

@[simp] theorem State.setReg_setReg (s : State) (r : Reg) (v w : Word) : (s.setReg r v).setReg r w = s.setReg r w := by
  simp [State.setReg]

-- Raw values that are not negative, and the raw values of natural numbers (R10)

theorem toInt_of_nonneg {x : Word} (h : 0 ≤ x.toInt) : x.toInt = x.toNat := by
  rw [BitVec.toInt_eq_toNat_cond] at h ⊢
  omega

theorem toNat_lt_of_nonneg {x : Word} (h : 0 ≤ x.toInt) : x.toNat < 2 ^ 63 := by
  have hx := toInt_bounds x
  rw [toInt_of_nonneg h] at hx
  omega

theorem ne_zero_of_toInt_ne {x : Word} (h : x.toInt ≠ 0) : x ≠ 0#64 := fun h0 => h (h0 ▸ BitVec.toInt_zero)

theorem toInt_ofNat_of_lt {n : Nat} (h : n < 2 ^ 63) : (BitVec.ofNat 64 n : Word).toInt = n := by
  rw [BitVec.toInt_eq_toNat_cond, BitVec.toNat_ofNat]
  omega

theorem s64_natCast (n : Nat) : s64 (n : Int) = BitVec.ofNat 64 n := BitVec.ofInt_natCast 64 n

theorem ofNat_ne_zero {n : Nat} (h0 : n ≠ 0) (h : n < 2 ^ 63) : (BitVec.ofNat 64 n : Word) ≠ 0#64 :=
  ne_zero_of_toInt_ne (by rw [toInt_ofNat_of_lt h]; omega)

/-- A shift by 32 that loses no bit. -/
theorem toNat_shiftLeft32 {w : Word} (h : w.toNat < 2 ^ 32) : (w <<< 32).toNat = w.toNat * 2 ^ 32 := by
  rw [BitVec.toNat_shiftLeft, Nat.shiftLeft_eq]
  omega

end Sys2Proof.Machine
end

