-- ==== Sys2Proof/Proofs/SquareRoot.lean ====
section
/-!
PROOFS. Square root (spec/43_sqrt_log_pow.md R160, R161). Both passes of the digit loop keep one invariant, `Fx.SqrtRegs.RootSoFar`; the
rescaling between them carries it over to a radicand 2^32 times as large, less 2^30 where log 20 says so; and the adjustment rounds the
root that the second pass leaves.
-/

namespace Sys2Proof.Machine

theorem exec_sqrt (rd rs1 : Reg) (s : State) : exec (.sqrt rd rs1) s = completeS (.sqrt rd rs1) rd (Fx.sqrt (s.reg rs1)) s := rfl

theorem Fx.sqrt_of_nonneg {x : Word} (h : 0 ≤ x.toInt) : Fx.sqrt x = .ok (Fx.sqrtUnsigned x) := if_neg (not_lt.mpr h)

theorem Fx.sqrt_of_neg {x : Word} (h : x.toInt < 0) : Fx.sqrt x = .error .domainError := if_pos h

/-- R160's registers before the digits of weight below `2^n`: the multiple `q` of `2^n` is the root of `N` found so far, `num` holds
what `q^2` leaves of `N`, and `res` has room for the digits to come. -/
structure Fx.SqrtRegs.RootSoFar (r : SqrtRegs) (N n q : Nat) : Prop where
  num : r.num.toNat + q * q = N
  res : r.res.toNat = q * 2 ^ n
  below : N < (q + 2 ^ n) * (q + 2 ^ n)
  room : 2 * (q * 2 ^ n) + 2 ^ n * 2 ^ n ≤ 2 ^ 65

/-- A root with no digit to come is the integer root. -/
theorem Fx.SqrtRegs.RootSoFar.root {r : SqrtRegs} {N q : Nat} (h : r.RootSoFar N 0 q) :
    r.num.toNat + q * q = N ∧ r.res.toNat = q ∧ N < (q + 1) * (q + 1) := by
  obtain ⟨hnum, hres, hbelow, -⟩ := h
  simp only [pow_zero, mul_one] at hres hbelow
  exact ⟨hnum, hres, hbelow⟩

/-- What the integer root leaves is at most twice the root. -/
theorem Fx.SqrtRegs.RootSoFar.rest_le {r : SqrtRegs} {N q : Nat} (h : r.RootSoFar N 0 q) : r.num.toNat ≤ 2 * q := by
  obtain ⟨hnum, -, hbelow⟩ := h.root
  have hsquare : (q + 1) * (q + 1) = q * q + 2 * q + 1 := by ring
  omega

/-- One digit: R160's test asks whether the square of `q + 2^n` fits in `N`. -/
theorem Fx.SqrtRegs.RootSoFar.digit {r : SqrtRegs} {bit : Word} {N n q : Nat} (h : r.RootSoFar N (n + 1) q)
    (hbit : bit.toNat = 2 ^ n * 2 ^ n) :
    (r.res + bit ≤ r.num → RootSoFar ⟨r.num - (r.res + bit), (r.res >>> 1) + bit⟩ N n (q + 2 ^ n)) ∧
    (¬ r.res + bit ≤ r.num → RootSoFar ⟨r.num, r.res >>> 1⟩ N n q) := by
  obtain ⟨hnum, hres, hbelow, hroom⟩ := h
  have hsquare : (q + 2 ^ n) * (q + 2 ^ n) = q * q + 2 * (q * 2 ^ n) + 2 ^ n * 2 ^ n := by ring
  have hnext : (q + 2 ^ n + 2 ^ n) * (q + 2 ^ n + 2 ^ n) = (q + 2 ^ (n + 1)) * (q + 2 ^ (n + 1)) := by ring
  have hres' : (q + 2 ^ n) * 2 ^ n = q * 2 ^ n + 2 ^ n * 2 ^ n := by ring
  have hdouble : q * 2 ^ (n + 1) = 2 * (q * 2 ^ n) := by ring
  have hdouble' : 2 ^ (n + 1) * 2 ^ (n + 1) = 4 * (2 ^ n * 2 ^ n) := by ring
  have hpos : 0 < 2 ^ n * 2 ^ n := by positivity
  have hhalf : (r.res >>> 1).toNat = q * 2 ^ n := by
    rw [BitVec.toNat_ushiftRight, Nat.shiftRight_eq_div_pow]
    omega
  have hsum : (r.res + bit).toNat = r.res.toNat + bit.toNat := BitVec.toNat_add_of_lt (by omega)
  rw [BitVec.le_def]
  refine ⟨fun hfits => ⟨?_, ?_, by omega, by omega⟩, fun hfits => ⟨hnum, hhalf, by omega, by omega⟩⟩
  · rw [BitVec.toNat_sub_of_le (by rwa [BitVec.le_def])]
    omega
  · rw [BitVec.toNat_add_of_lt (by omega)]
    omega

/-- The digit loop finds the integer root and leaves the remainder. -/
theorem Fx.sqrtDigits_root {n : Nat} {bit : Word} {r : SqrtRegs} {N q : Nat} (h : r.RootSoFar N n q) (hbit : bit.toNat = 4 ^ n / 4) :
    ∃ root, (sqrtDigits n bit r).RootSoFar N 0 root := by
  induction n generalizing bit r q with
  | zero => exact ⟨q, h⟩
  | succ n ih =>
    have hpow : bit.toNat = 4 ^ n := by rw [hbit, pow_succ, Nat.mul_div_cancel _ (by decide)]
    have hbit' : bit.toNat = 2 ^ n * 2 ^ n := by rw [hpow, ← Nat.mul_pow]
    have hne : bit ≠ 0#64 := fun h0 => by
      rw [h0] at hpow
      exact absurd hpow.symm (by positivity)
    have hshift : (bit >>> 2).toNat = 4 ^ n / 4 := by rw [BitVec.toNat_ushiftRight, Nat.shiftRight_eq_div_pow, hpow]
    obtain ⟨htake, hskip⟩ := h.digit hbit'
    rw [sqrtDigits, if_neg hne]
    split
    next hfits => exact ih (htake hfits) hshift
    next hfits => exact ih (hskip hfits) hshift

theorem Fx.sqrtStart_lt (n : Nat) (num bit : Word) (h : bit.toNat < 4 ^ n) : (sqrtStart n num bit).toNat < 4 ^ n := by
  induction n generalizing bit with
  | zero => exact h
  | succ n ih =>
    rw [sqrtStart]
    split
    · have := ih _ (shiftRight2_lt n bit h)
      rw [pow_succ]
      omega
    · exact h

/-- R160's start loop skips only digits that are 0. -/
theorem Fx.sqrtDigits_sqrtStart (n : Nat) (num bit : Word) (h : bit.toNat < 4 ^ n) :
    sqrtDigits n (sqrtStart n num bit) ⟨num, 0#64⟩ = sqrtDigits n bit ⟨num, 0#64⟩ := by
  induction n generalizing bit with
  | zero => rfl
  | succ n ih =>
    have hshift := shiftRight2_lt n bit h
    rw [sqrtStart]
    split
    next hlt =>
      have hne : bit ≠ 0#64 := fun h0 => by simp [h0] at hlt
      have hzero : ¬ 0#64 + bit ≤ num := by simpa using hlt
      rw [sqrtDigits_ends n 1 _ _ (sqrtStart_lt n num _ hshift), ih _ hshift, sqrtDigits, if_neg hne, if_neg hzero, BitVec.zero_ushiftRight]
    next => rfl

/-- The first pass of R160 leaves the integer root of `x` and its remainder. -/
theorem Fx.sqrt_firstPass {x : Word} (h : 0 ≤ x.toInt) :
    ∃ root, (sqrtDigits 32 (sqrtStart 32 x 0x4000000000000000#64) ⟨x, 0#64⟩).RootSoFar x.toNat 0 root := by
  have hx := toNat_lt_of_nonneg h
  rw [sqrtDigits_sqrtStart 32 x _ (by decide)]
  exact sqrtDigits_root (q := 0) ⟨rfl, rfl, by omega, by decide⟩ (by decide)

/-- The number whose root the second pass of R160 finds, for an operand `x` with the integer root `r` (log 20). -/
def Fx.sqrtRadicand (x r : Nat) : Nat := if 2 ^ 32 ≤ x - r * r then x * 2 ^ 32 - 2 ^ 30 else x * 2 ^ 32

theorem Fx.sqrtRadicand_lt {x : Nat} (r : Nat) (hx : x < 2 ^ 63) : sqrtRadicand x r < 2 ^ 95 := by
  rw [sqrtRadicand]
  split <;> omega

/-- The integer root of a non-negative operand. -/
theorem root_lt_of_mul_self_le {x r : Nat} (hr : r * r ≤ x) (hx : x < 2 ^ 63) : r < 3037000500 := by
  by_contra h
  have := Nat.mul_self_le_mul_self (Nat.le_of_not_lt h)
  omega

/-- Between the passes the root moves up by 16 bits. -/
theorem Fx.SqrtRegs.RootSoFar.rescale_of_lt {r : SqrtRegs} {x root : Nat} (h : r.RootSoFar x 0 root) (hx : x < 2 ^ 63)
    (hrest : r.num.toNat < 2 ^ 32) : (sqrtRescale r).RootSoFar (x * 2 ^ 32) 16 (root * 2 ^ 16) := by
  obtain ⟨hnum, hres, hbelow⟩ := h.root
  have hroot : root < 3037000500 := root_lt_of_mul_self_le (by omega) hx
  have htest : ¬ 0xFFFFFFFF#64 < r.num := by
    have hmask : (0xFFFFFFFF#64 : Word).toNat = 4294967295 := rfl
    rw [BitVec.lt_def, hmask]
    omega
  have hnum32 := toNat_shiftLeft32 hrest
  have hres32 := toNat_shiftLeft32 (w := r.res) (by omega)
  have hsquare : root * 2 ^ 16 * (root * 2 ^ 16) = root * root * 2 ^ 32 := by ring
  have hnext : (root * 2 ^ 16 + 2 ^ 16) * (root * 2 ^ 16 + 2 ^ 16) = (root + 1) * (root + 1) * 2 ^ 32 := by ring
  rw [sqrtRescale, if_neg htest]
  exact ⟨by rw [hnum32, hsquare]; omega, by rw [hres32, hres]; ring, by rw [hnext]; omega, by omega⟩

/-- With a remainder of 2^32 or more the next digit is 1, and it is set at once; the square of that digit is 2^30, where R160 takes
off 2^31 (log 20). -/
theorem Fx.SqrtRegs.RootSoFar.rescale_of_ge {r : SqrtRegs} {x root : Nat} (h : r.RootSoFar x 0 root) (hx : x < 2 ^ 63)
    (hrest : 2 ^ 32 ≤ r.num.toNat) : (sqrtRescale r).RootSoFar (x * 2 ^ 32 - 2 ^ 30) 16 (root * 2 ^ 16 + 2 ^ 15) := by
  have hrest_le := h.rest_le
  obtain ⟨hnum, hres, -⟩ := h.root
  have hroot : root < 3037000500 := root_lt_of_mul_self_le (by omega) hx
  have htest : 0xFFFFFFFF#64 < r.num := by
    have hmask : (0xFFFFFFFF#64 : Word).toNat = 4294967295 := rfl
    rw [BitVec.lt_def, hmask]
    omega
  have hbalance : (r.num.toNat - root) * 2 ^ 32 - 2 ^ 31 + (root * root * 2 ^ 32 + root * 2 ^ 32 + 2 ^ 30) = x * 2 ^ 32 - 2 ^ 30 := by
    omega
  have hsub : (r.num - r.res).toNat = r.num.toNat - root := by
    rw [BitVec.toNat_sub_of_le (by rw [BitVec.le_def]; omega), hres]
  have hsub32 := toNat_shiftLeft32 (w := r.num - r.res) (by omega)
  have hres32 := toNat_shiftLeft32 (w := r.res) (by omega)
  have hhalf : (0x80000000#64 : Word).toNat = 2 ^ 31 := rfl
  have hnum' : ((r.num - r.res) <<< 32 - 0x80000000#64).toNat = (r.num.toNat - root) * 2 ^ 32 - 2 ^ 31 := by
    rw [BitVec.toNat_sub_of_le (by rw [BitVec.le_def, hsub32, hsub, hhalf]; omega), hsub32, hsub, hhalf]
  have hres' : (r.res <<< 32 + 0x80000000#64).toNat = root * 2 ^ 32 + 2 ^ 31 := by
    rw [BitVec.toNat_add_of_lt (by rw [hres32, hhalf]; omega), hres32, hhalf, hres]
  have hsquare : (root * 2 ^ 16 + 2 ^ 15) * (root * 2 ^ 16 + 2 ^ 15) = root * root * 2 ^ 32 + root * 2 ^ 32 + 2 ^ 30 := by ring
  have hnext : (root * 2 ^ 16 + 2 ^ 15 + 2 ^ 16) * (root * 2 ^ 16 + 2 ^ 15 + 2 ^ 16) =
    root * root * 2 ^ 32 + 3 * root * 2 ^ 32 + 9 * 2 ^ 30 := by ring
  rw [sqrtRescale, if_pos htest]
  exact ⟨by rw [hnum', hsquare, hbalance], by rw [hres']; ring, by rw [hnext]; omega, by omega⟩

/-- The second pass starts on `sqrtRadicand`. -/
theorem Fx.SqrtRegs.RootSoFar.rescale {r : SqrtRegs} {x root : Nat} (h : r.RootSoFar x 0 root) (hx : x < 2 ^ 63) :
    ∃ q, (sqrtRescale r).RootSoFar (sqrtRadicand x root) 16 q := by
  obtain ⟨hnum, -, -⟩ := h.root
  rw [sqrtRadicand]
  split
  next => exact ⟨_, h.rescale_of_ge hx (by omega)⟩
  next => exact ⟨_, h.rescale_of_lt hx (by omega)⟩

end Sys2Proof.Machine

namespace Sys2Proof.Claims

open Sys2Proof.Machine

/-- Rounding to the nearest is a bound on either side: `n` is in `(v (v - 1), v (v + 1)]`. -/
theorem isRoundedRoot_iff {n v : Nat} : IsRoundedRoot n v ↔ n ≤ v * v + v ∧ (v = 0 ∨ v * v < n + v) := by
  constructor
  · rintro ⟨r, hle, hlt, rfl⟩
    have hsquare : (r + 1) * (r + 1) = r * r + 2 * r + 1 := by ring
    split <;> omega
  · rintro ⟨hle, hlow⟩
    have hsquare : (v + 1) * (v + 1) = v * v + 2 * v + 1 := by ring
    by_cases h : v * v ≤ n
    · exact ⟨v, h, by omega, by rw [if_neg (by omega)]⟩
    · obtain ⟨r, rfl⟩ : ∃ r, v = r + 1 := Nat.exists_eq_add_one.mpr (Nat.pos_of_ne_zero fun h0 => h (by simp [h0]))
      have hsquare' : (r + 1) * (r + 1) = r * r + 2 * r + 1 := by ring
      exact ⟨r, by omega, by omega, by rw [if_pos (by omega)]⟩

/-- The final adjustment of R160 rounds the integer root. -/
theorem isRoundedRoot_adjust {r : Fx.SqrtRegs} {N q : Nat} (h : r.RootSoFar N 0 q) (hN : N < 2 ^ 95) :
    IsRoundedRoot N (if r.res < r.num then r.res + 1#64 else r.res).toNat := by
  obtain ⟨hnum, hres, hbelow⟩ := h.root
  have hq : q < 2 ^ 48 := lt_of_mul_self_lt_mul_self₀ (by omega) (by omega)
  have htest : r.res < r.num ↔ N - q * q > q := by
    rw [BitVec.lt_def]
    omega
  have hstep : (r.res + 1#64).toNat = q + 1 := by
    rw [BitVec.toNat_add_of_lt (by rw [BitVec.toNat_one (by decide)]; omega), BitVec.toNat_one (by decide), hres]
  refine ⟨q, by omega, hbelow, ?_⟩
  simp only [← htest]
  split
  next => exact hstep
  next => exact hres

theorem isRoundedRoot_lt {N v : Nat} (h : IsRoundedRoot N v) (hN : N < 2 ^ 95) : v < 2 ^ 48 := by
  rw [isRoundedRoot_iff] at h
  by_contra hv
  have := Nat.mul_le_mul_right v (Nat.le_of_not_lt hv)
  omega

/-- R160's function gives the rounded root of the second pass's radicand. -/
theorem sqrtUnsigned_isRoundedRoot {x : Word} (h : 0 ≤ x.toInt) :
    ∃ r, r * r ≤ x.toNat ∧ x.toNat < (r + 1) * (r + 1) ∧ IsRoundedRoot (Fx.sqrtRadicand x.toNat r) (Fx.sqrtUnsigned x).toNat := by
  obtain ⟨r, hfirst⟩ := Fx.sqrt_firstPass h
  obtain ⟨q, hstart⟩ := hfirst.rescale (toNat_lt_of_nonneg h)
  obtain ⟨root, hsecond⟩ := Fx.sqrtDigits_root (bit := 0x40000000#64) hstart (by decide)
  obtain ⟨hnum, -, hbelow⟩ := hfirst.root
  refine ⟨r, hnum ▸ Nat.le_add_left _ _, hbelow, ?_⟩
  rw [Fx.sqrtUnsigned]
  exact isRoundedRoot_adjust hsecond (Fx.sqrtRadicand_lt r (toNat_lt_of_nonneg h))

/-- An integer root below 2^31 leaves a remainder below 2^32. -/
theorem sqrtRadicand_of_lt {x r : Nat} (hr : r * r ≤ x) (hx : x < (r + 1) * (r + 1)) (h62 : x < 2 ^ 62) :
    Fx.sqrtRadicand x r = x * 2 ^ 32 := by
  have hsquare : (r + 1) * (r + 1) = r * r + 2 * r + 1 := by ring
  have hroot : r < 2 ^ 31 := by
    by_contra h
    have := Nat.mul_self_le_mul_self (Nat.le_of_not_lt h)
    omega
  exact if_neg (by omega)

/-- The 2^30 that the rescaling takes off moves the rounded root down by one at most, since it takes them off large radicands only. -/
theorem isNearestRoot_or_succ {x : Word} {r v : Nat} (h : IsRoundedRoot (Fx.sqrtRadicand x.toNat r) v) :
    IsNearestRoot x v ∨ IsNearestRoot x (v + 1) := by
  rw [Fx.sqrtRadicand] at h
  split at h
  next hbig =>
    have hsquare : (v + 1) * (v + 1) = v * v + 2 * v + 1 := by ring
    rw [isRoundedRoot_iff] at h
    have hv : 2 ^ 29 ≤ v := by
      by_contra hlt
      have := Nat.mul_le_mul_right v (Nat.le_of_not_le hlt)
      omega
    rw [IsNearestRoot, IsNearestRoot, isRoundedRoot_iff, isRoundedRoot_iff]
    omega
  next => exact .inl h

/-- Settles O36: the two passes and the adjustment give the rounded root of `sqrtRadicand`, which below 2^62 is R161's, and nowhere more
than 2^30 below it. -/
theorem sqrtIsTheDigitLoopRoot : Obligations.SqrtIsTheDigitLoopRoot := by
  intro s rd a
  rw [exec_sqrt]
  refine ⟨fun h => ?_, fun h => completeS_of_error _ rd s rfl (Fx.sqrt_of_neg h)⟩
  obtain ⟨r, hle, hlt, hroot⟩ := sqrtUnsigned_isRoundedRoot h
  have h63 := toNat_lt_of_nonneg h
  refine ⟨_, completeS_of_ok _ rd s rfl (Fx.sqrt_of_nonneg h), ⟨r, hle, hlt, hroot⟩, fun h62 => ?_, isNearestRoot_or_succ hroot,
    isRoundedRoot_lt hroot (Fx.sqrtRadicand_lt r h63)⟩
  rw [toInt_of_nonneg h] at h62
  rwa [sqrtRadicand_of_lt hle hlt (by omega)] at hroot

end Sys2Proof.Claims
end

