-- ==== Sys2Proof/Proofs/Logarithm.lean ====
section
/-!
PROOFS. Logarithms (spec/43_sqrt_log_pow.md R162, R163). The two normalising loops find the place of the leading one, the squaring loop
the fraction bits; the range of their sum is what lets LN's two products agree.
-/

namespace Sys2Proof.Machine

theorem exec_log2 (rd rs1 : Reg) (s : State) : exec (.log2 rd rs1) s = completeS (.log2 rd rs1) rd (Fx.log2 (s.reg rs1)) s := rfl

theorem exec_ln (rd rs1 : Reg) (s : State) :
    exec (.ln rd rs1) s = completeS (.ln rd rs1) rd (Fx.ln Config.logConstants (s.reg rs1)) s := rfl

theorem Fx.log2_of_nonpos {x : Word} (h : x.toInt ≤ 0) : Fx.log2 x = .error .domainError := if_pos h

theorem Fx.logUp_of_ge (n : Nat) {x : Nat} {y : Int} (h : 2 ^ 32 ≤ x) : logUp n ⟨x, y⟩ = ⟨x, y⟩ := by
  cases n with
  | zero => rfl
  | succ n => exact if_neg (by rw [oneV_toInt]; simp only; omega)

theorem Fx.logUp_of_lt (n : Nat) {x : Nat} {y : Int} (h : x < 2 ^ 32) :
    logUp (n + 1) ⟨x, y⟩ = logUp n ⟨(x * 2 : Nat), y - 2 ^ 32⟩ :=
  if_pos (by rw [oneV_toInt]; simp only; omega)

theorem Fx.logDown_of_lt (n : Nat) {x : Nat} {y : Int} (h : x < 2 ^ 33) : logDown n ⟨x, y⟩ = ⟨x, y⟩ := by
  cases n with
  | zero => rfl
  | succ n => exact if_neg (by rw [oneV_toInt]; simp only; omega)

theorem Fx.logDown_of_ge (n : Nat) {x : Nat} {y : Int} (h : 2 ^ 33 ≤ x) :
    logDown (n + 1) ⟨x, y⟩ = logDown n ⟨(x / 2 : Nat), y + 2 ^ 32⟩ :=
  if_pos (by rw [oneV_toInt]; simp only; omega)

/-- R162's first loop shifts up by `k` bits, each of which takes ONE off the logarithm. -/
theorem Fx.logUp_eq {n k x : Nat} {y : Int} (hk : k ≤ n) (hlow : 2 ^ 32 ≤ x * 2 ^ k) (hhigh : x * 2 ^ k < 2 ^ 33) :
    logUp n ⟨x, y⟩ = ⟨(x * 2 ^ k : Nat), y - k * 2 ^ 32⟩ := by
  induction k generalizing n x y with
  | zero =>
    rw [logUp_of_ge n (by omega)]
    simp
  | succ k ih =>
    obtain ⟨n, rfl⟩ : ∃ m, n = m + 1 := Nat.exists_eq_add_one.mpr (by omega)
    have hshift : x * 2 ^ (k + 1) = x * 2 * 2 ^ k := by ring
    have hone : x * 2 * 1 ≤ x * 2 * 2 ^ k := Nat.mul_le_mul_left _ Nat.one_le_two_pow
    rw [hshift] at hlow hhigh ⊢
    rw [logUp_of_lt n (by omega), ih (by omega) hlow hhigh]
    congr 1
    push_cast
    ring

/-- R162's second loop shifts down by `k` bits, each of which adds ONE to the logarithm. -/
theorem Fx.logDown_eq {n k x : Nat} {y : Int} (hk : k ≤ n) (hlow : 2 ^ 32 ≤ x / 2 ^ k) (hhigh : x / 2 ^ k < 2 ^ 33) :
    logDown n ⟨x, y⟩ = ⟨(x / 2 ^ k : Nat), y + k * 2 ^ 32⟩ := by
  induction k generalizing n x y with
  | zero =>
    rw [logDown_of_lt n (by omega)]
    simp
  | succ k ih =>
    obtain ⟨n, rfl⟩ : ∃ m, n = m + 1 := Nat.exists_eq_add_one.mpr (by omega)
    have hshift : x / 2 ^ (k + 1) = x / 2 / 2 ^ k := by rw [Nat.div_div_eq_div_mul, pow_succ']
    have hone : x / 2 / 2 ^ k ≤ x / 2 := Nat.div_le_self _ _
    rw [hshift] at hlow hhigh ⊢
    rw [logDown_of_ge n (by omega), ih (by omega) hlow hhigh]
    congr 1
    push_cast
    ring

/-- Squaring a mantissa in [ONE, 2·ONE) does not wrap (R162). -/
theorem Fx.toInt_fastmul_self {z : Nat} (h : z < 2 ^ 33) : (fastmul (s64 z) (s64 z)).toInt = (z * z / 2 ^ 32 : Nat) := by
  have hz : (s64 z).toInt = z := toInt_s64_of_range _ (by omega) (by omega)
  have hsquare : z * z ≤ 2 ^ 33 * 2 ^ 33 := Nat.mul_le_mul h.le h.le
  rw [fastmul_eq, hz, toInt_s64_of_range _ (by omega) (by omega)]
  norm_cast

end Sys2Proof.Machine

namespace Sys2Proof.Claims

open Sys2Proof.Machine

/-- The squaring loop adds the fraction bits that `logFraction` gives, each of half the weight of the one before. -/
theorem logSquare_y {n z : Nat} (y : Int) (hlow : 2 ^ 32 ≤ z) (hhigh : z < 2 ^ 33) :
    (Fx.logSquare n (2 ^ n / 2) ⟨z, y⟩).y = y + logFraction n z := by
  induction n generalizing z y with
  | zero => simp [Fx.logSquare, logFraction]
  | succ n ih =>
    have hweight : (2 : Int) ^ (n + 1) / 2 = 2 ^ n := by rw [pow_succ]; omega
    have hsquare : 2 ^ 32 * 2 ^ 32 ≤ z * z := Nat.mul_le_mul hlow hlow
    have hsquare' : z * z < 2 ^ 33 * 2 ^ 33 := Nat.mul_self_lt_mul_self hhigh
    rw [Fx.logSquare, logFraction, Fx.toInt_fastmul_self hhigh, hweight]
    have htest : 2 * oneV.toInt ≤ ((z * z / 2 ^ 32 : Nat) : Int) ↔ 2 ^ 33 ≤ z * z / 2 ^ 32 := by rw [Fx.oneV_toInt]; omega
    have hhalf : asr ((z * z / 2 ^ 32 : Nat) : Int) 1 = (z * z / 2 ^ 32 / 2 : Nat) := by rw [asr]; omega
    have hnext : asr ((2 : Int) ^ n) 1 = 2 ^ n / 2 := rfl
    simp only [htest, hhalf, hnext]
    split
    next hbit =>
      rw [ih _ (by omega) (by omega)]
      push_cast
      ring
    next hbit => exact ih _ (by omega) (by omega)

theorem logFraction_lt (n z : Nat) : logFraction n z < 2 ^ n := by
  induction n generalizing z with
  | zero => exact Nat.one_pos
  | succ n ih =>
    have h1 := ih (z * z / 2 ^ 32 / 2)
    have h2 := ih (z * z / 2 ^ 32)
    rw [logFraction, pow_succ]
    split <;> omega

/-- A power of two has no fraction bits, since its mantissa is ONE and so is the square of ONE. -/
theorem logFraction_one (n : Nat) : logFraction n (2 ^ 32) = 0 := by
  induction n with
  | zero => rfl
  | succ n ih => exact ih

theorem logMantissa_bounds {x : Nat} (h : x ≠ 0) : 2 ^ 32 ≤ logMantissa x ∧ logMantissa x < 2 ^ 33 := by
  have hlow := Nat.log2_self_le h
  have hhigh : x < 2 * 2 ^ Nat.log2 x := by
    rw [← pow_succ']
    exact Nat.lt_log2_self
  rw [logMantissa]
  split
  next hlt =>
    have hpow : 2 ^ Nat.log2 x * 2 ^ (32 - Nat.log2 x) = 2 ^ 32 := pow_mul_pow_sub 2 hlt.le
    constructor
    · calc 2 ^ 32 = _ := hpow.symm
        _ ≤ _ := Nat.mul_le_mul_right _ hlow
    · calc _ < 2 * 2 ^ Nat.log2 x * 2 ^ (32 - Nat.log2 x) := Nat.mul_lt_mul_of_pos_right hhigh (by positivity)
        _ = _ := by rw [mul_assoc, hpow]; rfl
  next hge =>
    have hpow : 2 ^ 32 * 2 ^ (Nat.log2 x - 32) = 2 ^ Nat.log2 x := pow_mul_pow_sub 2 (by omega)
    rw [Nat.le_div_iff_mul_le (by positivity), Nat.div_lt_iff_lt_mul (by positivity), hpow]
    refine ⟨hlow, hhigh.trans_eq ?_⟩
    rw [← hpow, ← mul_assoc]
    rfl

/-- R162's two loops find the place of the leading one and bring it to bit 32. -/
theorem logNormalise_eq {x : Nat} (h : x ≠ 0) (hx : x < 2 ^ 63) :
    Fx.logDown 32 (Fx.logUp 32 ⟨x, 0⟩) = ⟨logMantissa x, ((Nat.log2 x : Int) - 32) * 2 ^ 32⟩ := by
  obtain ⟨hlow, hhigh⟩ := logMantissa_bounds h
  rw [logMantissa] at hlow hhigh ⊢
  split at hlow
  next hlt =>
    rw [if_pos hlt] at hhigh ⊢
    rw [Fx.logUp_eq (by omega) hlow hhigh, Fx.logDown_of_lt _ hhigh]
    congr 1
    omega
  next hge =>
    have hlog : Nat.log2 x < 63 := (Nat.log2_lt h).mpr hx
    have hone : x / 2 ^ (Nat.log2 x - 32) ≤ x := Nat.div_le_self _ _
    rw [if_neg hge] at hhigh ⊢
    rw [Fx.logUp_of_ge _ (by omega), Fx.logDown_eq (by omega) hlow hhigh]
    congr 1
    omega

/-- The value of LOG2 (R162), in units of 2^-32. -/
def log2Value (x : Word) : Int := ((Nat.log2 x.toNat : Int) - 32) * 2 ^ 32 + logFraction 32 (logMantissa x.toNat)

theorem log2Value_bounds {x : Word} (h : 0 < x.toInt) : -32 * 2 ^ 32 ≤ log2Value x ∧ log2Value x < 31 * 2 ^ 32 := by
  have hx := toNat_lt_of_nonneg h.le
  rw [toInt_of_nonneg h.le] at h
  have hlog : Nat.log2 x.toNat < 63 := (Nat.log2_lt (by omega)).mpr hx
  have hfraction := logFraction_lt 32 (logMantissa x.toNat)
  rw [log2Value]
  omega

/-- All of LOG2 on positive operands. -/
theorem fxLog2_eq {x : Word} (h : 0 < x.toInt) : ∃ l, Fx.log2 x = .ok l ∧ l.toInt = log2Value x := by
  have hbounds := log2Value_bounds h
  refine ⟨s64 (log2Value x), ?_, toInt_s64_of_range _ (by omega) (by omega)⟩
  have hx := toNat_lt_of_nonneg h.le
  have hnat := toInt_of_nonneg h.le
  have hne : x.toNat ≠ 0 := by omega
  obtain ⟨hlow, hhigh⟩ := logMantissa_bounds hne
  rw [Fx.log2, if_neg (by omega), hnat, logNormalise_eq hne hx]
  exact congrArg (fun v => Except.ok (s64 v)) (logSquare_y (n := 32) _ hlow hhigh)

/-- At a power of two the logarithm is an integer. -/
theorem log2Value_two_pow {x : Word} {n : Nat} (h : x.toInt = 2 ^ n) : log2Value x = ((n : Int) - 32) * 2 ^ 32 := by
  have hpow : x.toNat = 2 ^ n := by
    have hnat := toInt_of_nonneg (x := x) (h ▸ by positivity)
    rw [h] at hnat
    exact_mod_cast hnat.symm
  have hmantissa : logMantissa (2 ^ n) = 2 ^ 32 := by
    rw [logMantissa, Nat.log2_two_pow]
    split
    next hlt => exact pow_mul_pow_sub 2 hlt.le
    next hge => rw [Nat.pow_div (Nat.sub_le _ _) (by decide), Nat.sub_sub_self (by omega)]
  rw [log2Value, hpow, hmantissa, Nat.log2_two_pow, logFraction_one, Nat.cast_zero, add_zero]

/-- The product of a logarithm and LN2 passes none of MUL's checks (R163). -/
theorem fxMul_ln2 {l : Word} (h : -32 * 2 ^ 32 ≤ l.toInt ∧ l.toInt < 31 * 2 ^ 32) :
    Fx.mul l 0x00000000B17217F7#64 = Fx.fastmul l 0x00000000B17217F7#64 := by
  have hln2 : (0x00000000B17217F7#64 : Word).toInt = 2977044471 := by decide
  have hr : FloorInRange l 0x00000000B17217F7#64 := by rw [FloorInRange, hln2]; omega
  have ht : TopIsClear l 0x00000000B17217F7#64 := by rw [TopIsClear, hln2]; exact .inl (by simp)
  rw [fxMul_of_floorInRange hr ht, Fx.fastmul_eq]

/-- Settles O37: the normalised operand's place and the squaring loop's bits are `log2Value`, whose range and powers of two follow. -/
theorem log2RangeAndPowersOfTwo : Obligations.Log2RangeAndPowersOfTwo := by
  intro s rd a
  rw [exec_log2]
  refine ⟨fun h => ?_, fun h => completeS_of_error _ rd s rfl (Fx.log2_of_nonpos h)⟩
  obtain ⟨l, hl, hvalue⟩ := fxLog2_eq h
  obtain ⟨hlow, hhigh⟩ := log2Value_bounds h
  exact ⟨l, completeS_of_ok _ rd s rfl hl, hvalue, by rwa [hvalue], by rwa [hvalue], fun n hn => by rw [hvalue, log2Value_two_pow hn]⟩

/-- Settles O38: the product of LOG2's range with LN2 is in range and has a clear top, where both products are the floor. -/
theorem lnIsLog2TimesLn2 : Obligations.LnIsLog2TimesLn2 := by
  intro s rd a
  rw [exec_log2, exec_ln, Fx.ln]
  refine ⟨fun h => ?_, fun h => completeS_of_error _ rd s rfl (by rw [Fx.log2_of_nonpos h]; rfl)⟩
  obtain ⟨l, hl, hvalue⟩ := fxLog2_eq h
  have hmul := fxMul_ln2 (l := l) (hvalue ▸ log2Value_bounds h)
  exact ⟨l, completeS_of_ok _ rd s rfl hl, completeS_of_ok _ rd s rfl (by rw [hl, hmul]; rfl), hmul⟩

end Sys2Proof.Claims
end

