-- ==== Sys2Proof/Proofs/Power.lean ====
section
/-!
PROOFS. Powers (spec/43_sqrt_log_pow.md R164 to R166). Every term of POW2's series is monotone in the fraction, so that the bounds of
R165 are those at the largest fraction; the commands then follow branch by branch.
-/

namespace Sys2Proof.Machine

theorem exec_pow2 (rd rs1 : Reg) (s : State) :
    exec (.pow2 rd rs1) s = completeS (.pow2 rd rs1) rd (Fx.pow2 Config.logConstants (s.reg rs1)) s := rfl

theorem exec_pow (rd rs1 rs2 : Reg) (s : State) :
    exec (.pow rd rs1 rs2) s = completeS (.pow rd rs1 rs2) rd (Fx.pow Config.logConstants (s.reg rs1) (s.reg rs2)) s := rfl

theorem log2max_toInt : Config.logConstants.log2max.toInt = 31 * 2 ^ 32 := by decide

theorem log2min_toInt : Config.logConstants.log2min.toInt = -32 * 2 ^ 32 := by decide

-- The branches of POW2 before the series (R164)

theorem Fx.pow2_zero : Fx.pow2 Config.logConstants 0#64 = .ok oneV := rfl

theorem Fx.pow2_of_ge {x : Word} (h : 31 * 2 ^ 32 ≤ x.toInt) : Fx.pow2 Config.logConstants x = .ok maxV := by
  have hne : x ≠ 0#64 := ne_zero_of_toInt_ne (by omega)
  rw [Fx.pow2, if_neg hne, if_pos (log2max_toInt ▸ h)]

theorem Fx.pow2_of_le {x : Word} (h : x.toInt ≤ -32 * 2 ^ 32) : Fx.pow2 Config.logConstants x = .ok zeroV := by
  have hne : x ≠ 0#64 := ne_zero_of_toInt_ne (by omega)
  rw [Fx.pow2, if_neg hne, log2max_toInt, if_neg (by omega), log2min_toInt, if_pos h]

end Sys2Proof.Machine

namespace Sys2Proof.Claims

open Sys2Proof.Machine

theorem toInt_fxNeg {x : Word} (h : -2 ^ 63 < x.toInt) : (Fx.neg x).toInt = -x.toInt := by
  have hx := toInt_bounds x
  rw [fxNeg_eq_clampRaw, clampRaw_of_range (by omega) (by omega), toInt_s64_of_range _ (by omega) (by omega)]

theorem fxDiv_oneV_maxV : Fx.div oneV maxV = .ok 2#64 := by decide

/-- Below -31 the negated exponent is at or past LOG2MAX (R164, 90_conflicts.md C3). -/
theorem fxPow2_of_band {x : Word} (hlow : -32 * 2 ^ 32 < x.toInt) (hhigh : x.toInt ≤ -31 * 2 ^ 32) :
    Fx.pow2 Config.logConstants x = .ok 2#64 := by
  have hne : x ≠ 0#64 := ne_zero_of_toInt_ne (by omega)
  have hneg : x.toInt < 0 := by omega
  simp only [Fx.pow2, if_neg hne, log2max_toInt, log2min_toInt, if_pos hneg, toInt_fxNeg (by omega : -2 ^ 63 < x.toInt)]
  rw [if_neg (by omega), if_neg (by omega), if_pos (by omega), fxDiv_oneV_maxV]

/-- Settles O39: R164's tests in the order written; where the exponent is negated first, the result is the reciprocal of MAXV. -/
theorem pow2Saturates : Obligations.Pow2Saturates := by
  intro s rd a
  rw [exec_pow2]
  exact ⟨fun h => completeS_of_ok _ rd s rfl (h ▸ Fx.pow2_zero), fun h => completeS_of_ok _ rd s rfl (Fx.pow2_of_ge h),
    fun h => completeS_of_ok _ rd s rfl (Fx.pow2_of_le h), fun hlow hhigh => completeS_of_ok _ rd s rfl (fxPow2_of_band hlow hhigh)⟩

-- The terms of the series

theorem powTerm_mono {fr fr' : Nat} (h : fr ≤ fr') (i : Nat) : powTerm fr i ≤ powTerm fr' i := by
  induction i with
  | zero => exact le_rfl
  | succ i ih => simp only [powTerm]; gcongr

/-- No term is above the one before it: neither factor of a product is above ONE, and the division rounds to nearest. -/
theorem powTerm_succ_le {fr : Nat} (h : fr < 2 ^ 32) (i : Nat) : powTerm fr (i + 1) ≤ powTerm fr i := by
  have hfr : fr * powTerm fr i / 2 ^ 32 ≤ powTerm fr i := Nat.div_le_of_le_mul (Nat.mul_le_mul_right _ h.le)
  have hdiv := Nat.div_le_self (2 * (fr * powTerm fr i / 2 ^ 32 * 0xB17217F7 / 2 ^ 32)) (i + 1)
  rw [powTerm]
  omega

theorem powTerm_antitone {fr : Nat} (h : fr < 2 ^ 32) : Antitone (powTerm fr) := antitone_nat_of_succ_le (powTerm_succ_le h)

theorem powTerm_zero (fr : Nat) : powTerm fr 0 = 2 ^ 32 := by rw [powTerm]

theorem powTerm_le_one {fr : Nat} (h : fr < 2 ^ 32) (i : Nat) : powTerm fr i ≤ 2 ^ 32 :=
  (powTerm_antitone h (Nat.zero_le i)).trans_eq (powTerm_zero fr)

theorem powTerm_twelve {fr : Nat} (h : fr < 2 ^ 32) : powTerm fr 12 = 0 := by
  have hmax : powTerm (2 ^ 32 - 1) 12 = 0 := by decide
  have hmono := powTerm_mono (Nat.le_sub_one_of_lt h) 12
  omega

/-- The sum of the first `n` terms. -/
def powPartial (fr n : Nat) : Nat := ((List.range n).map (powTerm fr)).sum

theorem powPartial_succ (fr n : Nat) : powPartial fr (n + 1) = powPartial fr n + powTerm fr n := by
  simp [powPartial, List.range_succ]

theorem powPartial_le {fr : Nat} (h : fr < 2 ^ 32) (n : Nat) : powPartial fr n ≤ n * 2 ^ 32 := by
  induction n with
  | zero => exact Nat.zero_le _
  | succ n ih =>
    have hterm := powTerm_le_one h n
    rw [powPartial_succ]
    omega

/-- From the first term that is 0 on the sum stays. -/
theorem powPartial_add_of_zero {fr i : Nat} (h : fr < 2 ^ 32) (hi : powTerm fr i = 0) (k : Nat) :
    powPartial fr (i + k) = powPartial fr i := by
  induction k with
  | zero => rfl
  | succ k ih =>
    have hterm := powTerm_antitone h (Nat.le_add_right i k)
    rw [← Nat.add_assoc, powPartial_succ, ih]
    omega

theorem powSum_lt {fr : Nat} (h : fr < 2 ^ 32) : powSum fr < 2 ^ 33 := by
  have hmax : powSum (2 ^ 32 - 1) < 2 ^ 33 := by decide
  have hmono : powSum fr ≤ powSum (2 ^ 32 - 1) := List.sum_le_sum fun i _ => powTerm_mono (Nat.le_sub_one_of_lt h) i
  omega

theorem le_powSum (fr : Nat) : 2 ^ 32 ≤ powSum fr := by
  rw [← powTerm_zero fr]
  exact List.single_le_sum (by simp) _ (List.mem_map_of_mem (by decide : 0 ∈ List.range 12))

-- The machine's operations on the words of natural numbers

theorem fxAdd_ofNat {a b : Nat} (h : a + b < 2 ^ 63) :
    Fx.add (BitVec.ofNat 64 a) (BitVec.ofNat 64 b) = BitVec.ofNat 64 (a + b) := by
  rw [fxAdd_eq_clampRaw, toInt_ofNat_of_lt (by omega), toInt_ofNat_of_lt (by omega), clampRaw_of_range (by omega) (by omega),
    ← Nat.cast_add, s64_natCast]

theorem fxFastmul_ofNat {a b : Nat} (ha : a < 2 ^ 63) (hb : b < 2 ^ 63) :
    Fx.fastmul (BitVec.ofNat 64 a) (BitVec.ofNat 64 b) = BitVec.ofNat 64 (a * b / 2 ^ 32) := by
  rw [Fx.fastmul_eq, toInt_ofNat_of_lt ha, toInt_ofNat_of_lt hb, ← s64_natCast]
  norm_cast

theorem divClosed_ofNat {a d : Nat} (ha : a < 2 ^ 63) (hd : d < 2 ^ 63) (hq : a * 2 ^ 33 / d < 2 ^ 64) :
    divClosed (BitVec.ofNat 64 a) (BitVec.ofNat 64 d) = BitVec.ofNat 64 ((a * 2 ^ 33 / d + 1) / 2) := by
  have hsign : sb (BitVec.ofNat 64 a : Word) = sb (BitVec.ofNat 64 d : Word) := by
    rw [sb_eq_iff, toInt_ofNat_of_lt ha, toInt_ofNat_of_lt hd]
    omega
  have hquot : (BitVec.ofNat 64 a : Word).toInt.natAbs * 2 ^ 33 / (BitVec.ofNat 64 d : Word).toInt.natAbs = a * 2 ^ 33 / d := by
    rw [toInt_ofNat_of_lt ha, toInt_ofNat_of_lt hd, Int.natAbs_natCast, Int.natAbs_natCast]
  rw [divClosed_of_small (by rwa [hquot]), if_pos hsign, hquot, s64_natCast]

theorem fxFromint_ofNat {n : Nat} (h : n < 2 ^ 31) : Fx.fromint (BitVec.ofNat 64 n) = BitVec.ofNat 64 (n * 2 ^ 32) := by
  have hlow : ((BitVec.ofNat 64 n).setWidth 32).toInt = n := by
    rw [BitVec.toInt_eq_toNat_cond, BitVec.toNat_setWidth, BitVec.toNat_ofNat]
    omega
  rw [Fx.fromint, hlow, ← s64_natCast]
  norm_cast

-- The series (R164, R165)

/-- The next term of the machine's series is that of the rule. -/
theorem fxPowTerm_eq {fr i : Nat} (h : fr < 2 ^ 32) (hi : i < 12) :
    Fx.powTerm 0x00000000B17217F7#64 (BitVec.ofNat 64 fr) (BitVec.ofNat 64 (powTerm fr i)) (i + 1) =
      .ok (BitVec.ofNat 64 (powTerm fr (i + 1))) := by
  have hterm := powTerm_le_one h i
  have hfr : fr * powTerm fr i / 2 ^ 32 ≤ powTerm fr i := Nat.div_le_of_le_mul (Nat.mul_le_mul_right _ h.le)
  have hscale : ∀ b, b * 2 ^ 33 / ((i + 1) * 2 ^ 32) = 2 * b / (i + 1) := fun b => by
    have hpow : b * 2 ^ 33 = 2 * b * 2 ^ 32 := by omega
    rw [hpow, Nat.mul_div_mul_right _ _ (by decide)]
  have hquot := Nat.div_le_self (2 * (fr * powTerm fr i / 2 ^ 32 * 0xB17217F7 / 2 ^ 32)) (i + 1)
  rw [Fx.powTerm, fxFastmul_ofNat (by omega) (by omega), fxFastmul_ofNat (b := 0xB17217F7) (by omega) (by decide),
    fxFromint_ofNat (by omega), fxDiv_eq_divClosed _ (ofNat_ne_zero (by omega) (by omega)),
    divClosed_ofNat (by omega) (by omega) (by rw [hscale]; omega), hscale, powTerm]

/-- The loop ends at a term that is 0, by its test or by its bound. -/
theorem fxPowSeries_zero (ln2 fr result : Word) (n i : Nat) : Fx.powSeries ln2 fr n result 0#64 i = .ok result := by
  cases n with
  | zero => rfl
  | succ n => exact if_pos rfl

/-- From term `i` on the loop adds the terms up to one that is 0. -/
theorem fxPowSeries_eq {fr i m : Nat} (n : Nat) (h : fr < 2 ^ 32) (him : i + m = 12) :
    Fx.powSeries 0x00000000B17217F7#64 (BitVec.ofNat 64 fr) (m + n) (BitVec.ofNat 64 (powPartial fr (i + 1)))
      (BitVec.ofNat 64 (powTerm fr i)) (i + 1) = .ok (BitVec.ofNat 64 (powSum fr)) := by
  induction m generalizing i with
  | zero =>
    obtain rfl : i = 12 := him
    rw [powTerm_twelve h, fxPowSeries_zero, powPartial_succ, powTerm_twelve h, add_zero, powPartial, powSum]
  | succ m ih =>
    by_cases h0 : powTerm fr i = 0
    · have hsum : powPartial fr (i + (m + 1)) = powPartial fr (i + 1) := by
        rw [powPartial_add_of_zero h h0, powPartial_succ, h0, add_zero]
      rw [h0, fxPowSeries_zero, ← hsum, him, powPartial, powSum]
    · have hterm := powTerm_le_one h i
      have hnext := powTerm_le_one h (i + 1)
      have hsum := powPartial_le h (i + 1)
      rw [Nat.add_right_comm, Fx.powSeries, if_neg (ofNat_ne_zero h0 (by omega)), fxPowTerm_eq h (by omega)]
      simp only
      rw [fxAdd_ofNat (by omega), ← powPartial_succ, ih (by omega)]

/-- Every bound of 12 rounds or more gives the sum of R165. -/
theorem fxPowSeries_powSum {fr : Nat} (h : fr < 2 ^ 32) (n : Nat) :
    Fx.powSeries 0x00000000B17217F7#64 (BitVec.ofNat 64 fr) (12 + n) oneV oneV 1 = .ok (BitVec.ofNat 64 (powSum fr)) := by
  have hfirst : powPartial fr 1 = 2 ^ 32 := by simp [powPartial, powTerm_zero]
  have hseries := fxPowSeries_eq (i := 0) n h (Nat.zero_add 12)
  rw [zero_add, hfirst, powTerm_zero] at hseries
  exact hseries

/-- The series at the fraction of `m`, shifted by its integer part: `powMagnitude` on the magnitude of the exponent. -/
def powShifted (m : Nat) : Nat := powSum (m % 2 ^ 32) * 2 ^ (m / 2 ^ 32)

theorem powMagnitude_eq (x : Word) : powMagnitude x = BitVec.ofNat 64 (powShifted x.toInt.natAbs) := rfl

/-- The shift by 30 at most loses no bit (R165 item 2). -/
theorem powShifted_bounds {m : Nat} (h : m < 31 * 2 ^ 32) : 2 ^ 32 ≤ powShifted m ∧ powShifted m < 2 ^ 63 := by
  have hlow := le_powSum (m % 2 ^ 32)
  have hhigh := powSum_lt (Nat.mod_lt m (by decide : 0 < 2 ^ 32))
  have hshift : 2 ^ (m / 2 ^ 32) ≤ 2 ^ 30 := Nat.pow_le_pow_right (by decide) (by omega)
  rw [powShifted]
  constructor
  · calc 2 ^ 32 = 2 ^ 32 * 1 := rfl
      _ ≤ _ := Nat.mul_le_mul hlow Nat.one_le_two_pow
  · calc _ < 2 ^ 33 * 2 ^ (m / 2 ^ 32) := Nat.mul_lt_mul_of_pos_right hhigh (by positivity)
      _ ≤ 2 ^ 33 * 2 ^ 30 := Nat.mul_le_mul_left _ hshift
      _ = _ := rfl

/-- The series as R164 enters it, at the fraction bits of `a`. -/
theorem fxPowSeries_fracBits (a : Word) :
    Fx.powSeries Config.logConstants.ln2 (BitVec.ofNat 64 (fracBits a)) 64 oneV oneV 1 = .ok (BitVec.ofNat 64 (powSum (fracBits a))) :=
  fxPowSeries_powSum (fracBits_lt a) 52

/-- R164's shift of the sum by the integer part. -/
theorem s64_powSum_shifted {a : Word} {m : Nat} (ha : a.toInt = m) :
    s64 ((BitVec.ofNat 64 (powSum (fracBits a)) : Word).toInt * 2 ^ (asr a.toInt 32).toNat) = BitVec.ofNat 64 (powShifted m) := by
  have hsum := powSum_lt (fracBits_lt a)
  have hfrac : fracBits a = m % 2 ^ 32 := by
    have hmod := fracBits_eq_emod a
    omega
  have hint : (asr a.toInt 32).toNat = m / 2 ^ 32 := by rw [asr, ha]; omega
  rw [toInt_ofNat_of_lt (by omega), hint, hfrac, powShifted, ← s64_natCast, Nat.cast_mul, Nat.cast_pow, Nat.cast_ofNat]

/-- POW2 of a positive exponent below LOG2MAX. -/
theorem fxPow2_of_pos {x : Word} (hpos : 0 < x.toInt) (hmax : x.toInt < 31 * 2 ^ 32) :
    Fx.pow2 Config.logConstants x = .ok (powMagnitude x) := by
  have hne : x ≠ 0#64 := ne_zero_of_toInt_ne (by omega)
  rw [powMagnitude_eq, ← s64_powSum_shifted (a := x) (by omega)]
  simp only [Fx.pow2, if_neg hne, log2max_toInt, log2min_toInt, if_neg (by omega : ¬ x.toInt < 0), fxPowSeries_fracBits]
  rw [if_neg (by omega), if_neg (by omega), if_neg (by omega)]

/-- POW2 of a negative exponent above -31. -/
theorem fxPow2_of_neg {x : Word} (hmin : -31 * 2 ^ 32 < x.toInt) (hneg : x.toInt < 0) :
    Fx.pow2 Config.logConstants x = .ok (divClosed oneV (powMagnitude x)) := by
  have hne : x ≠ 0#64 := ne_zero_of_toInt_ne (by omega)
  have hmagnitude := toInt_fxNeg (by omega : -2 ^ 63 < x.toInt)
  obtain ⟨hlow, hhigh⟩ := powShifted_bounds (m := x.toInt.natAbs) (by omega)
  rw [powMagnitude_eq, ← fxDiv_eq_divClosed _ (ofNat_ne_zero (by omega) hhigh), ← s64_powSum_shifted (a := Fx.neg x) (by omega)]
  simp only [Fx.pow2, if_neg hne, log2max_toInt, log2min_toInt, if_pos hneg, fxPowSeries_fracBits]
  rw [if_neg (by omega), if_neg (by omega), if_neg (by omega)]

/-- The reciprocal does not saturate (R165 item 3). -/
theorem divClosed_oneV_nonneg {m : Nat} (hlow : 2 ^ 32 ≤ m) (hhigh : m < 2 ^ 63) : 0 ≤ (divClosed oneV (BitVec.ofNat 64 m)).toInt := by
  have hquot : 2 ^ 32 * 2 ^ 33 / m ≤ 2 ^ 33 := Nat.div_le_of_le_mul (Nat.mul_le_mul_right _ hlow)
  have hdiv := divClosed_ofNat (a := 2 ^ 32) (by decide) hhigh (by omega)
  have hone : oneV = BitVec.ofNat 64 (2 ^ 32) := rfl
  rw [hone, hdiv, toInt_ofNat_of_lt (by omega)]
  exact Int.natCast_nonneg _

/-- POW2 completes on every exponent, with a result that is not negative (R165 item 4). -/
theorem fxPow2_completes (x : Word) : ∃ v, Fx.pow2 Config.logConstants x = .ok v ∧ 0 ≤ v.toInt := by
  obtain hmin | hmin := Int.lt_or_le (-32 * 2 ^ 32) x.toInt
  · obtain hband | hband := Int.lt_or_le (-31 * 2 ^ 32) x.toInt
    · obtain hmax | hmax := Int.lt_or_le x.toInt (31 * 2 ^ 32)
      · obtain ⟨hlow, hhigh⟩ := powShifted_bounds (m := x.toInt.natAbs) (by omega)
        obtain hneg | hzero | hpos := lt_trichotomy x.toInt 0
        · exact ⟨_, fxPow2_of_neg hband hneg, divClosed_oneV_nonneg hlow hhigh⟩
        · obtain rfl : x = 0#64 := BitVec.eq_of_toInt_eq hzero
          exact ⟨_, Fx.pow2_zero, by decide⟩
        · refine ⟨_, fxPow2_of_pos hpos hmax, ?_⟩
          rw [powMagnitude_eq, toInt_ofNat_of_lt hhigh]
          exact Int.natCast_nonneg _
      · exact ⟨_, Fx.pow2_of_ge hmax, by decide⟩
    · exact ⟨_, fxPow2_of_band hmin hband, by decide⟩
  · exact ⟨_, Fx.pow2_of_le hmin, by decide⟩

/-- Settles O40: the series is bounded at the largest fraction, so that neither the shift nor the reciprocal leaves the range. -/
theorem pow2SeriesIsBounded : Obligations.Pow2SeriesIsBounded := by
  refine ⟨fun fr hfr => ?_, fun s rd a => ?_, fun s rd a => ?_⟩
  · have hlow := le_powSum fr.toNat
    have hhigh := powSum_lt hfr
    have hvalue := toInt_ofNat_of_lt (n := powSum fr.toNat) (by omega)
    refine ⟨powTerm_twelve hfr, BitVec.ofNat 64 (powSum fr.toNat), by omega, by omega, ?_, fun n => ?_⟩
    · rw [BitVec.toNat_ofNat, Nat.mod_eq_of_lt (by omega)]
    · have hseries := fxPowSeries_powSum hfr n
      rwa [BitVec.ofNat_toNat, BitVec.setWidth_eq] at hseries
  · rw [exec_pow2]
    exact ⟨fun hpos hmax => completeS_of_ok _ rd s rfl (fxPow2_of_pos hpos hmax),
      fun hmin hneg => completeS_of_ok _ rd s rfl (fxPow2_of_neg hmin hneg)⟩
  · obtain ⟨v, hv, hnonneg⟩ := fxPow2_completes (s.reg a)
    rw [exec_pow2]
    exact ⟨v, completeS_of_ok _ rd s rfl hv, hnonneg⟩

-- The branches of POW (R166)

theorem fxPow_of_one_or_zero {b e : Word} (h : b = oneV ∨ e = 0#64) : Fx.pow Config.logConstants b e = .ok oneV := by
  rw [Fx.pow]
  obtain rfl | rfl := h
  · exact if_pos rfl
  · rw [if_pos rfl, ite_self]

theorem fxPow_zero_of_pos {e : Word} (h : 0 < e.toInt) : Fx.pow Config.logConstants 0#64 e = .ok zeroV := by
  have he : e ≠ 0#64 := ne_zero_of_toInt_ne (by omega)
  rw [Fx.pow, if_neg (by decide), if_neg he, if_pos rfl, if_neg (by omega)]

theorem fxPow_zero_of_neg {e : Word} (h : e.toInt < 0) : Fx.pow Config.logConstants 0#64 e = .error .divideByZero := by
  have he : e ≠ 0#64 := ne_zero_of_toInt_ne (by omega)
  rw [Fx.pow, if_neg (by decide), if_neg he, if_pos rfl, if_pos h]

theorem fxPow_of_neg {b e : Word} (hb : b.toInt < 0) (he : e ≠ 0#64) : Fx.pow Config.logConstants b e = .error .domainError := by
  have hb0 : b ≠ 0#64 := ne_zero_of_toInt_ne (by omega)
  have hb1 : b ≠ oneV := fun h1 => by simp [h1, Fx.oneV_toInt] at hb
  rw [Fx.pow, if_neg hb1, if_neg he, if_neg hb0, Fx.log2_of_nonpos hb.le]

theorem fxPow_of_log2 {b e l : Word} (hb : 0 < b.toInt) (hb1 : b ≠ oneV) (he : e ≠ 0#64) (hl : Fx.log2 b = .ok l) :
    Fx.pow Config.logConstants b e = Fx.pow2 Config.logConstants (Fx.mul e l) := by
  have hb0 : b ≠ 0#64 := ne_zero_of_toInt_ne (by omega)
  rw [Fx.pow, if_neg hb1, if_neg he, if_neg hb0, hl]

/-- Settles O41: R166's tests in the order written; the general case completes since LOG2 of a positive base and every POW2 do. -/
theorem powSpecialCases : Obligations.PowSpecialCases := by
  intro s rd a b
  rw [exec_pow, exec_log2]
  refine ⟨fun h => completeS_of_ok _ rd s rfl (fxPow_of_one_or_zero h),
    fun ha hb => completeS_of_ok _ rd s rfl (by rw [ha]; exact fxPow_zero_of_pos hb),
    fun ha hb => completeS_of_error _ rd s rfl (by rw [ha]; exact fxPow_zero_of_neg hb),
    fun ha hb => completeS_of_error _ rd s rfl (fxPow_of_neg ha hb), fun ha ha1 hb => ?_⟩
  obtain ⟨l, hl, -⟩ := fxLog2_eq ha
  obtain ⟨p, hp, -⟩ := fxPow2_completes (Fx.mul (s.reg b) l)
  refine ⟨l, p, completeS_of_ok _ rd s rfl hl, ?_, completeS_of_ok _ rd s rfl ((fxPow_of_log2 ha ha1 hb hl).trans hp)⟩
  rw [exec_pow2, State.reg_setReg_same, completeS_of_ok _ rd _ rfl hp, State.setReg_setReg]

end Sys2Proof.Claims
end

