-- ==== Sys2Proof/Proofs/CompareSelect.lean ====
section
/-!
PROOFS. Compare and select (spec/44_compare_select.md). Each selection returns one of its operands, picked by tests on signed values; the
comparisons write the truth value of such a test.
-/

namespace Sys2Proof.Machine

-- How the commands of this family end (R34)

theorem exec_min (rd rs1 rs2 : Reg) (s : State) :
    exec (.min rd rs1 rs2) s = .next (s.setReg rd (Fx.min (s.reg rs1) (s.reg rs2))) :=
  completeS_ok (.min rd rs1 rs2) rd _ s rfl

theorem exec_max (rd rs1 rs2 : Reg) (s : State) :
    exec (.max rd rs1 rs2) s = .next (s.setReg rd (Fx.max (s.reg rs1) (s.reg rs2))) :=
  completeS_ok (.max rd rs1 rs2) rd _ s rfl

theorem exec_clamp (rd rs1 rs2 rs3 : Reg) (s : State) :
    exec (.clamp rd rs1 rs2 rs3) s = .next (s.setReg rd (Fx.clamp (s.reg rs1) (s.reg rs2) (s.reg rs3))) :=
  completeS_ok (.clamp rd rs1 rs2 rs3) rd _ s rfl

theorem exec_clamp01 (rd rs1 : Reg) (s : State) :
    exec (.clamp01 rd rs1) s = .next (s.setReg rd (Fx.clamp01 (s.reg rs1))) :=
  completeS_ok (.clamp01 rd rs1) rd _ s rfl

theorem exec_cmpeq (rd rs1 rs2 : Reg) (s : State) :
    exec (.cmpeq rd rs1 rs2) s = .next (s.setReg rd (Fx.cmpeq (s.reg rs1) (s.reg rs2))) :=
  completeS_ok (.cmpeq rd rs1 rs2) rd _ s rfl

theorem exec_cmplt (rd rs1 rs2 : Reg) (s : State) :
    exec (.cmplt rd rs1 rs2) s = .next (s.setReg rd (Fx.cmplt (s.reg rs1) (s.reg rs2))) :=
  completeS_ok (.cmplt rd rs1 rs2) rd _ s rfl

theorem exec_cmple (rd rs1 rs2 : Reg) (s : State) :
    exec (.cmple rd rs1 rs2) s = .next (s.setReg rd (Fx.cmple (s.reg rs1) (s.reg rs2))) :=
  completeS_ok (.cmple rd rs1 rs2) rd _ s rfl

-- The selections (R190 to R193)

theorem Fx.toInt_min (a b : Word) : (Fx.min a b).toInt = Min.min a.toInt b.toInt := by
  obtain h | h := Int.lt_or_le a.toInt b.toInt
  · rw [Fx.min, if_pos h, min_eq_left h.le]
  · rw [Fx.min, if_neg h.not_gt, min_eq_right h]

theorem Fx.toInt_max (a b : Word) : (Fx.max a b).toInt = Max.max a.toInt b.toInt := by
  obtain h | h := Int.lt_or_le b.toInt a.toInt
  · rw [Fx.max, if_pos h, max_eq_left h.le]
  · rw [Fx.max, if_neg h.not_gt, max_eq_right h]

/-- Between bounds in order CLAMP is the maximum of the lower bound with the minimum. -/
theorem Fx.toInt_clamp {v lo hi : Word} (h : lo.toInt ≤ hi.toInt) :
    (Fx.clamp v lo hi).toInt = Max.max lo.toInt (Min.min v.toInt hi.toInt) := by
  obtain hlo | hlo := Int.lt_or_le v.toInt lo.toInt
  · rw [Fx.clamp, if_pos hlo, min_eq_left (hlo.le.trans h), max_eq_left hlo.le]
  · obtain hhi | hhi := Int.lt_or_le hi.toInt v.toInt
    · rw [Fx.clamp, if_neg hlo.not_gt, if_pos hhi, min_eq_right hhi.le, max_eq_right h]
    · rw [Fx.clamp, if_neg hlo.not_gt, if_neg hhi.not_gt, min_eq_left hhi, max_eq_right hlo]

/-- With inverted bounds the value itself is never returned: not below `lo`, it is above `hi` (R192). -/
theorem Fx.clamp_of_inverted {v lo hi : Word} (h : hi.toInt < lo.toInt) :
    Fx.clamp v lo hi = if v.toInt < lo.toInt then lo else hi := by
  obtain hlo | hlo := Int.lt_or_le v.toInt lo.toInt
  · rw [Fx.clamp, if_pos hlo, if_pos hlo]
  · rw [Fx.clamp, if_neg hlo.not_gt, if_neg hlo.not_gt, if_pos (h.trans_le hlo)]

theorem Fx.toInt_clamp01 (v : Word) : (Fx.clamp01 v).toInt = Max.max 0 (Min.min v.toInt (2 ^ 32)) :=
  Fx.toInt_clamp (lo := zeroV) (hi := oneV) (by decide)

-- The comparisons (R194 to R196)

/-- R194: the signed values agree only where the raw values do. -/
theorem Fx.cmpeq_eq (a b : Word) : Fx.cmpeq a b = if a = b then oneV else zeroV := by
  simp only [Fx.cmpeq, Fx.truth, BitVec.toInt_inj, decide_eq_true_eq]

theorem Fx.cmplt_eq (a b : Word) : Fx.cmplt a b = if a.slt b then oneV else zeroV := rfl

theorem Fx.cmple_eq (a b : Word) : Fx.cmple a b = if a.sle b then oneV else zeroV := rfl

end Sys2Proof.Machine

namespace Sys2Proof.Claims

open Sys2Proof.Machine

/-- Settles O42: each selection's signed value is that of the order; CLAMP by the order of its bounds, and CLAMP01 at the bounds 0 and
ONE. -/
theorem selectionsFollowTheOrder : Obligations.SelectionsFollowTheOrder := fun s rd a b c =>
  ⟨⟨_, exec_min rd a b s, Fx.toInt_min _ _⟩, ⟨_, exec_max rd a b s, Fx.toInt_max _ _⟩,
    ⟨_, exec_clamp rd a b c s, Fx.toInt_clamp, Fx.clamp_of_inverted⟩, ⟨_, exec_clamp01 rd a s, Fx.toInt_clamp01 _⟩⟩

/-- Settles O43: the tests are equality of raw values and the signed order, and their truth values are ONE and 0. -/
theorem comparisonsWriteOneOrZero : Obligations.ComparisonsWriteOneOrZero := by
  intro s rd a b
  rw [exec_cmpeq, exec_cmplt, exec_cmple, Fx.cmpeq_eq, Fx.cmplt_eq, Fx.cmple_eq]
  exact ⟨rfl, rfl, rfl⟩

end Sys2Proof.Claims
end

