-- ==== Sys2Proof/Proofs/Floats.lean ====
section
/-!
SUPPORT. The binary formats (spec/45_move_convert.md R215): what a pattern is worth, that the conversion to fixed point truncates that
value, and that the conversion from fixed point rounds to nearest. The rounding is about integers: in units of the result's last place
every value of the format is an integer or lies below the result's power of two.
-/

namespace Sys2Proof.Machine

theorem FloatFormat.significand_lt (fmt : FloatFormat) (p : Nat) : fmt.significand p < 2 ^ fmt.manBits * 2 := by
  have hman : fmt.manField p < 2 ^ fmt.manBits := Nat.mod_lt _ (by positivity)
  rw [FloatFormat.significand]
  split <;> omega

-- Patterns put together from their fields (R215)

/-- The pattern with sign bit `s`, exponent field `E` and the fraction of the significand `sig`; a significand of twice the hidden bit
carries into the exponent field. -/
def FloatFormat.pack (fmt : FloatFormat) (s E sig : Nat) : Nat :=
  s * 2 ^ (fmt.expBits + fmt.manBits) + (E * 2 ^ fmt.manBits + (sig - 2 ^ fmt.manBits))

theorem FloatFormat.pack_carry (fmt : FloatFormat) (s E : Nat) :
    fmt.pack s E (2 ^ fmt.manBits * 2) = fmt.pack s (E + 1) (2 ^ fmt.manBits) := by
  rw [pack, pack, Nat.add_one_mul]
  omega

theorem FloatFormat.pack_eq (fmt : FloatFormat) (s E f : Nat) :
    fmt.pack s E (2 ^ fmt.manBits + f) = (s * 2 ^ fmt.expBits + E) * 2 ^ fmt.manBits + f := by
  rw [pack, Nat.add_sub_cancel_left, pow_add]
  ring

theorem FloatFormat.pack_mod_two {fmt : FloatFormat} (h : 0 < fmt.manBits) {s E sig : Nat} (hsig : 2 ^ fmt.manBits ≤ sig) :
    fmt.pack s E sig % 2 = sig % 2 := by
  obtain ⟨f, rfl⟩ := Nat.exists_eq_add_of_le hsig
  obtain ⟨k, hk⟩ : 2 ∣ 2 ^ fmt.manBits := dvd_pow_self 2 h.ne'
  rw [pack_eq, hk, mul_left_comm, Nat.mul_add_mod_self_left, Nat.mul_add_mod_self_left]

section Fields

variable {fmt : FloatFormat} {s E f : Nat} (hf : f < 2 ^ fmt.manBits)

include hf

theorem FloatFormat.manField_pack : fmt.manField (fmt.pack s E (2 ^ fmt.manBits + f)) = f := by
  rw [manField, pack_eq, Nat.mul_add_mod_of_lt hf]

theorem FloatFormat.pack_div : fmt.pack s E (2 ^ fmt.manBits + f) / 2 ^ fmt.manBits = s * 2 ^ fmt.expBits + E := by
  rw [pack_eq, Nat.add_comm, Nat.add_mul_div_right _ _ (by positivity), Nat.div_eq_of_lt hf, Nat.zero_add]

variable (hE : E < 2 ^ fmt.expBits)

include hE

theorem FloatFormat.expField_pack : fmt.expField (fmt.pack s E (2 ^ fmt.manBits + f)) = E := by
  rw [expField, pack_div hf, Nat.mul_add_mod_of_lt hE]

theorem FloatFormat.pack_signBit : fmt.pack s E (2 ^ fmt.manBits + f) / 2 ^ (fmt.expBits + fmt.manBits) = s := by
  rw [pow_add, Nat.mul_comm, ← Nat.div_div_eq_div_mul, pack_div hf, Nat.add_comm, Nat.add_mul_div_right _ _ (by positivity),
    Nat.div_eq_of_lt hE, Nat.zero_add]

theorem FloatFormat.pack_lt (hs : s < 2) : fmt.pack s E (2 ^ fmt.manBits + f) < 2 ^ (1 + fmt.expBits + fmt.manBits) := by
  rw [add_assoc, pow_add, pow_one, ← Nat.div_lt_iff_lt_mul (by positivity), pack_signBit hf hE]
  exact hs

end Fields

/-- What R215 item 3 uses of a format: there is a fraction, and every power of two from 2^-32 to 2^32 is a normal number. -/
structure FloatFormat.HoldsFixed (fmt : FloatFormat) : Prop where
  manBits_pos : 0 < fmt.manBits
  le_bias : 33 ≤ fmt.bias
  bias_lt : fmt.bias + 33 < 2 ^ fmt.expBits

theorem binary64_holdsFixed : binary64.HoldsFixed := ⟨by decide, by decide, by decide⟩

theorem binary32_holdsFixed : binary32.HoldsFixed := ⟨by decide, by decide, by decide⟩

/-- The significand of the result, before the carry (R215 item 3). -/
def FloatFormat.roundedSignificand (fmt : FloatFormat) (m : Nat) : Nat :=
  if Nat.log2 m ≤ fmt.manBits then m * 2 ^ (fmt.manBits - Nat.log2 m) else roundShift m (Nat.log2 m - fmt.manBits)

theorem FloatFormat.ofFixed_of_ne_zero (fmt : FloatFormat) {x : Word} (h : x ≠ 0#64) :
    fmt.ofFixed x = fmt.pack (if x.toInt < 0 then 1 else 0) (Nat.log2 x.toInt.natAbs + fmt.bias - 32)
      (fmt.roundedSignificand x.toInt.natAbs) := by
  rw [ofFixed, if_neg h, pack]
  split
  · rw [one_mul]
    rfl
  · rw [zero_mul]
    rfl

theorem FloatFormat.ofFixed_zero (fmt : FloatFormat) : fmt.ofFixed 0#64 = 0 := rfl

end Sys2Proof.Machine

namespace Sys2Proof.Claims

open Sys2Proof.Machine

-- Truncation toward zero (R215 item 1)

theorem truncQ_intCast (z : Int) : truncQ z = z := by simp [truncQ]

theorem truncQ_of_nonneg {q : ℚ} (h : 0 ≤ q) : truncQ q = ⌊q⌋ := if_pos h

/-- Truncation toward zero does not see the sign. -/
theorem truncQ_neg (q : ℚ) : truncQ (-q) = -truncQ q := by
  obtain hneg | rfl | hpos := lt_trichotomy q 0
  · rw [truncQ, truncQ, if_pos (by linarith), if_neg (by linarith), Int.floor_neg]
  · simp [truncQ]
  · rw [truncQ, truncQ, if_neg (by linarith), if_pos hpos.le, Int.ceil_neg]

/-- A shift to the left is exact, and one to the right drops the fraction. -/
theorem floor_natCast_mul_zpow (m : Nat) (e : Int) :
    ⌊(m : ℚ) * 2 ^ e⌋ = ((if 0 ≤ e then m * 2 ^ e.toNat else m / 2 ^ (-e).toNat : Nat) : Int) := by
  split
  next h =>
    obtain ⟨n, rfl⟩ := Int.eq_ofNat_of_zero_le h
    rw [Int.toNat_natCast, zpow_natCast, ← Nat.cast_two, ← Nat.cast_pow, ← Nat.cast_mul, Int.floor_natCast]
  next h =>
    obtain ⟨n, hn⟩ := Int.eq_ofNat_of_zero_le (show 0 ≤ -e by omega)
    obtain rfl : e = -n := by omega
    rw [neg_neg, Int.toNat_natCast, zpow_neg, zpow_natCast, ← div_eq_mul_inv, ← Nat.cast_two, ← Nat.cast_pow,
      Rat.floor_natCast_div_natCast, Int.natCast_div]

-- The value of a pattern (R215)

theorem finite_iff_binaryFinite (fmt : FloatFormat) (p : Nat) : fmt.finite p = true ↔ BinaryFinite fmt.expBits fmt.manBits p := bne_iff_ne

/-- The value in the model's own terms: sign, significand and exponent. -/
theorem binaryValue_eq (fmt : FloatFormat) (p : Nat) : binaryValue fmt.expBits fmt.manBits p =
    (if fmt.negative p then -1 else 1) * ((fmt.significand p : ℚ) * 2 ^ fmt.exponent p) := by
  have hbias : (fmt.bias : Int) = 2 ^ (fmt.expBits - 1) - 1 := by
    rw [FloatFormat.bias, Nat.cast_sub Nat.one_le_two_pow]
    norm_num
  have hexp : p / 2 ^ fmt.manBits % 2 ^ fmt.expBits = fmt.expField p := rfl
  simp only [binaryValue, hexp, FloatFormat.negative, FloatFormat.significand, FloatFormat.exponent, hbias, beq_iff_eq]
  by_cases h : fmt.expField p = 0
  · rw [if_pos h, if_pos h, if_pos h, FloatFormat.manField]
  · rw [if_neg h, if_neg h, if_neg h, FloatFormat.manField]

/-- The conversion's integer arithmetic is the truncation of the value times 2^32. -/
theorem truncFixed_eq (fmt : FloatFormat) (p : Nat) :
    fmt.truncFixed p = truncQ (binaryValue fmt.expBits fmt.manBits p * 2 ^ 32) := by
  have hmag : truncQ ((fmt.significand p : ℚ) * 2 ^ (fmt.exponent p + 32)) = _ :=
    (truncQ_of_nonneg (by positivity)).trans (floor_natCast_mul_zpow _ _)
  have hscale : (fmt.significand p : ℚ) * 2 ^ fmt.exponent p * 2 ^ 32 = fmt.significand p * 2 ^ (fmt.exponent p + 32) := by
    rw [zpow_add₀ two_ne_zero, mul_assoc]
    rfl
  rw [FloatFormat.truncFixed, binaryValue_eq, mul_assoc, hscale]
  split
  · rw [neg_one_mul, truncQ_neg, hmag]
  · rw [one_mul, hmag]

/-- Every pattern's value is a multiple of `c`, a power of two up to its sign, or below the least normal significand times `c`. -/
theorem binaryValue_multiple_or_small (fmt : FloatFormat) (p : Nat) {c : ℚ} {e : Int} (hc : |c| = 2 ^ e) :
    (∃ k : Int, binaryValue fmt.expBits fmt.manBits p = k * c) ∨
      |binaryValue fmt.expBits fmt.manBits p| < 2 ^ fmt.manBits * |c| := by
  rw [binaryValue_eq]
  obtain hle | hlt := le_or_gt e (fmt.exponent p)
  · left
    obtain ⟨n, hn⟩ := Int.le.dest hle
    have hpow : (2 : ℚ) ^ fmt.exponent p = 2 ^ n * |c| := by rw [hc, ← hn, zpow_add₀ two_ne_zero, zpow_natCast, mul_comm]
    obtain ⟨t, ht⟩ : ∃ t : Int, |c| = t * c := by
      obtain h | h := abs_choice c
      · exact ⟨1, by rw [h, Int.cast_one, one_mul]⟩
      · exact ⟨-1, by rw [h, Int.cast_neg, Int.cast_one, neg_one_mul]⟩
    refine ⟨(if fmt.negative p then -1 else 1) * (fmt.significand p * (2 ^ n * t)), ?_⟩
    rw [hpow, ht]
    push_cast
    ring
  · right
    have hsig : (fmt.significand p : ℚ) < 2 ^ fmt.manBits * 2 := mod_cast fmt.significand_lt p
    have hpow : 2 * (2 : ℚ) ^ fmt.exponent p ≤ |c| := by
      rw [hc, mul_comm, ← zpow_add_one₀ two_ne_zero]
      exact zpow_le_zpow_right₀ one_le_two hlt
    have hsign : |(if fmt.negative p then -1 else 1 : ℚ)| = 1 := by split <;> simp
    rw [abs_mul, hsign, one_mul, abs_of_nonneg (by positivity)]
    calc _ < 2 ^ fmt.manBits * 2 * (2 : ℚ) ^ fmt.exponent p := by gcongr
      _ = 2 ^ fmt.manBits * (2 * (2 : ℚ) ^ fmt.exponent p) := mul_assoc _ _ _
      _ ≤ _ := by gcongr

-- The nearest integer, ties to even (R215 item 3)

/-- `n` is an integer nearest to `x`, and the even one of two equally near. -/
structure IsNearestEven (x : ℚ) (n : Nat) : Prop where
  near : |n - x| ≤ 1 / 2
  even_of_tie : |n - x| = 1 / 2 → n % 2 = 0

theorem isNearestEven_natCast (n : Nat) : IsNearestEven n n where
  near := by norm_num
  even_of_tie h := by norm_num at h

theorem one_le_abs_sub_of_ne {n : Nat} {k : Int} (hk : k ≠ n) : 1 ≤ |(k : ℚ) - n| := by
  exact_mod_cast Int.one_le_abs (sub_ne_zero.mpr hk)

/-- Any other integer is at least half a unit away. -/
theorem IsNearestEven.half_le {x : ℚ} {n : Nat} (h : IsNearestEven x n) {k : Int} (hk : k ≠ n) : 1 / 2 ≤ |(k : ℚ) - x| := by
  have hsplit := abs_sub_le (k : ℚ) x n
  rw [abs_sub_comm x n] at hsplit
  linarith [h.near, one_le_abs_sub_of_ne hk]

theorem IsNearestEven.le_abs_sub {x : ℚ} {n : Nat} (h : IsNearestEven x n) (k : Int) : |(n : ℚ) - x| ≤ |(k : ℚ) - x| := by
  by_cases hk : k = n
  · rw [hk, Int.cast_natCast]
  · exact h.near.trans (h.half_le hk)

/-- An integer is its own nearest one. -/
theorem IsNearestEven.eq_of_intCast {x : ℚ} {n : Nat} (h : IsNearestEven x n) {k : Int} (hx : x = k) : (n : ℚ) = x := by
  have hdist := h.le_abs_sub k
  rw [← hx, sub_self, abs_zero] at hdist
  exact sub_eq_zero.mp (abs_nonpos_iff.mp hdist)

theorem IsNearestEven.le {x : ℚ} {n b : Nat} (h : IsNearestEven x n) (hb : (b : ℚ) ≤ x) : b ≤ n := by
  by_contra hlt
  have hlt' : (n : ℚ) + 1 ≤ b := mod_cast Nat.not_le.mp hlt
  have hdist := neg_le_of_abs_le h.near
  linarith

theorem IsNearestEven.ge {x : ℚ} {n b : Nat} (h : IsNearestEven x n) (hb : x ≤ b) : n ≤ b := by
  by_contra hlt
  have hlt' : (b : ℚ) + 1 ≤ n := mod_cast Nat.not_le.mp hlt
  have hdist := le_of_abs_le h.near
  linarith

/-- Among the multiples of a unit `c` and the values below `b` units, `n` units are nearest to `x` units, if `x` is not below `b`. -/
theorem IsNearestEven.nearest_multiple {x c v : ℚ} {n b : Nat} (h : IsNearestEven x n) (hb : (b : ℚ) ≤ x) (hc : c ≠ 0)
    (hv : (∃ k : Int, v = k * c) ∨ |v| < b * |c|) :
    |n * c - x * c| ≤ |v - x * c| ∧ (|v - x * c| = |n * c - x * c| → v ≠ n * c → n % 2 = 0) := by
  have hpos : 0 < |c| := abs_pos.mpr hc
  obtain ⟨r, rfl⟩ : ∃ r, v = r * c := ⟨v / c, (div_mul_cancel₀ v hc).symm⟩
  rw [← sub_mul, ← sub_mul, abs_mul, abs_mul, mul_le_mul_iff_left₀ hpos, mul_left_inj' hpos.ne', ne_eq, mul_left_inj' hc]
  obtain ⟨k, hk⟩ | hsmall := hv
  · obtain rfl : r = k := mul_right_cancel₀ hc hk
    refine ⟨h.le_abs_sub k, fun htie hne => h.even_of_tie (le_antisymm h.near ?_)⟩
    rw [← htie]
    exact h.half_le fun hkn => hne (by rw [hkn, Int.cast_natCast])
  · rw [abs_mul, mul_lt_mul_iff_left₀ hpos] at hsmall
    have hnear := h.le_abs_sub b
    rw [Int.cast_natCast, abs_sub_comm, abs_sub_comm (b : ℚ), abs_of_nonneg (sub_nonneg.mpr hb)] at hnear
    have hfar : x - b < |r - x| := by
      rw [abs_sub_comm]
      exact lt_of_lt_of_le (by linarith [le_abs_self r]) (le_abs_self _)
    rw [abs_sub_comm (n : ℚ)]
    exact ⟨hnear.trans hfar.le, fun htie => absurd htie (hnear.trans_lt hfar).ne'⟩

/-- The nearest integer is the integer part or the next one, by the fraction. -/
theorem isNearestEven_of_fraction {q : Nat} {f : ℚ} (h0 : 0 ≤ f) (h1 : f < 1) :
    IsNearestEven (q + f) (if 1 / 2 < f ∨ (f = 1 / 2 ∧ q % 2 = 1) then q + 1 else q) := by
  split
  next h =>
    have hdist : |((q + 1 : Nat) : ℚ) - (q + f)| = 1 - f := by
      rw [abs_of_nonneg] <;> push_cast <;> linarith
    obtain hlt | ⟨heq, hodd⟩ := h
    · exact ⟨by linarith, fun htie => by linarith⟩
    · exact ⟨by linarith, fun htie => by omega⟩
  next h =>
    have hdist : |(q : ℚ) - (q + f)| = f := by
      rw [abs_sub_comm, add_sub_cancel_left, abs_of_nonneg h0]
    obtain ⟨hle, heven⟩ : f ≤ 1 / 2 ∧ (f = 1 / 2 → q % 2 ≠ 1) := by simpa using h
    exact ⟨hdist.trans_le hle, fun htie => Nat.mod_two_ne_one.mp (heven (hdist.symm.trans htie))⟩

theorem natCast_div_eq_quotient_add (m d : Nat) : (m : ℚ) / d = (m / d : Nat) + (m % d : Nat) / d := by
  have hsplit := Int.floor_add_fract ((m : ℚ) / d)
  rw [Rat.floor_natCast_div_natCast, Int.fract_div_natCast_eq_div_natCast_mod] at hsplit
  exact_mod_cast hsplit.symm

/-- The rounded shift is the nearest integer to the quotient: its tests of twice the remainder are those of the fraction. -/
theorem roundShift_isNearestEven (m sh : Nat) : IsNearestEven (m / 2 ^ sh) (roundShift m sh) := by
  have hpos : (0 : ℚ) < (2 ^ sh : Nat) := by positivity
  have hrem : ((m % 2 ^ sh : Nat) : ℚ) < (2 ^ sh : Nat) := mod_cast Nat.mod_lt m (by positivity)
  have hmore : 2 * (m % 2 ^ sh) > 2 ^ sh ↔ 1 / 2 < (m % 2 ^ sh : Nat) / ((2 ^ sh : Nat) : ℚ) := by
    rw [lt_div_iff₀ hpos, gt_iff_lt, ← Nat.cast_lt (α := ℚ), Nat.cast_mul, Nat.cast_two]
    constructor <;> intro h <;> linarith
  have htie : 2 * (m % 2 ^ sh) = 2 ^ sh ↔ (m % 2 ^ sh : Nat) / ((2 ^ sh : Nat) : ℚ) = 1 / 2 := by
    rw [div_eq_iff hpos.ne', ← Nat.cast_inj (R := ℚ), Nat.cast_mul, Nat.cast_two]
    constructor <;> intro h <;> linarith
  have hcast : (2 : ℚ) ^ sh = (2 ^ sh : Nat) := by push_cast; rfl
  simp only [roundShift, hmore, htie]
  rw [hcast, natCast_div_eq_quotient_add]
  exact isNearestEven_of_fraction (by positivity) ((div_lt_one hpos).mpr hrem)

-- The value of a pattern put together from its fields (R215)

/-- `p` is a finite pattern of the format, of value `v`. -/
structure IsPatternOf (fmt : FloatFormat) (v : ℚ) (p : Nat) : Prop where
  lt : p < 2 ^ (1 + fmt.expBits + fmt.manBits)
  finite : BinaryFinite fmt.expBits fmt.manBits p
  value : binaryValue fmt.expBits fmt.manBits p = v

/-- A packed pattern with a normal exponent field, its significand below the carry. -/
theorem pack_isPatternOf_of_fraction {fmt : FloatFormat} {s E f : Nat} (hs : s < 2) (hE0 : E ≠ 0) (hE : E < 2 ^ fmt.expBits - 1)
    (hf : f < 2 ^ fmt.manBits) :
    IsPatternOf fmt ((2 ^ fmt.manBits + f : Nat) * ((-1) ^ s * 2 ^ ((E : Int) - fmt.bias - fmt.manBits)))
      (fmt.pack s E (2 ^ fmt.manBits + f)) := by
  have hE' : E < 2 ^ fmt.expBits := by omega
  have hexp := FloatFormat.expField_pack (s := s) hf hE'
  have hsign : (if fmt.negative (fmt.pack s E (2 ^ fmt.manBits + f)) then -1 else 1 : ℚ) = (-1) ^ s := by
    rw [FloatFormat.negative, FloatFormat.pack_signBit hf hE']
    obtain rfl | rfl : s = 0 ∨ s = 1 := by omega
    · simp
    · simp
  refine ⟨FloatFormat.pack_lt hf hE' hs, ?_, ?_⟩
  · rw [← finite_iff_binaryFinite, FloatFormat.finite, hexp, bne_iff_ne]
    omega
  · rw [binaryValue_eq, hsign, FloatFormat.significand, FloatFormat.exponent, hexp, FloatFormat.manField_pack hf, if_neg hE0,
      if_neg (mod_cast hE0)]
    ring

/-- With the carry, the significand may be twice the hidden bit. -/
theorem pack_isPatternOf {fmt : FloatFormat} {s E sig : Nat} (hs : s < 2) (hE0 : E ≠ 0) (hE : E < 2 ^ fmt.expBits - 2)
    (hlow : 2 ^ fmt.manBits ≤ sig) (hhigh : sig ≤ 2 ^ fmt.manBits * 2) :
    IsPatternOf fmt (sig * ((-1) ^ s * 2 ^ ((E : Int) - fmt.bias - fmt.manBits))) (fmt.pack s E sig) := by
  obtain hlt | rfl := hhigh.lt_or_eq
  · obtain ⟨f, rfl⟩ := Nat.exists_eq_add_of_le hlow
    exact pack_isPatternOf_of_fraction hs hE0 (by omega) (by omega)
  · have hcarry := pack_isPatternOf_of_fraction (fmt := fmt) (f := 0) hs E.succ_ne_zero (by omega) (by positivity)
    have hexp : ((E + 1 : Nat) : Int) - fmt.bias - fmt.manBits = (E - fmt.bias - fmt.manBits) + 1 := by push_cast; ring
    rw [FloatFormat.pack_carry]
    refine ⟨hcarry.lt, hcarry.finite, hcarry.value.trans ?_⟩
    rw [hexp, zpow_add_one₀ two_ne_zero]
    push_cast
    ring

-- The rounding of a magnitude (R215 item 3)

/-- The magnitude in units of the last place of its power of two. -/
def inUnits (fmt : FloatFormat) (m : Nat) : ℚ := m * 2 ^ ((fmt.manBits : Int) - Nat.log2 m)

theorem roundedSignificand_isNearestEven (fmt : FloatFormat) (m : Nat) :
    IsNearestEven (inUnits fmt m) (fmt.roundedSignificand m) := by
  rw [inUnits, FloatFormat.roundedSignificand]
  split
  next h =>
    rw [← Nat.cast_sub h, zpow_natCast]
    exact_mod_cast isNearestEven_natCast (m * 2 ^ (fmt.manBits - Nat.log2 m))
  next h =>
    rw [← neg_sub, ← Nat.cast_sub (by omega), zpow_neg, zpow_natCast, ← div_eq_mul_inv]
    exact roundShift_isNearestEven m _

theorem inUnits_bounds (fmt : FloatFormat) {m : Nat} (h : m ≠ 0) :
    ((2 ^ fmt.manBits : Nat) : ℚ) ≤ inUnits fmt m ∧ inUnits fmt m ≤ (2 ^ fmt.manBits * 2 : Nat) := by
  have hlow : (2 : ℚ) ^ Nat.log2 m ≤ m := mod_cast Nat.log2_self_le h
  have hhigh : (m : ℚ) ≤ 2 ^ Nat.log2 m * 2 := mod_cast Nat.lt_log2_self.le
  have hpow : (2 : ℚ) ^ Nat.log2 m * 2 ^ ((fmt.manBits : Int) - Nat.log2 m) = 2 ^ fmt.manBits := by
    rw [← zpow_natCast, ← zpow_add₀ two_ne_zero, add_sub_cancel, zpow_natCast]
  push_cast
  rw [inUnits, ← hpow]
  constructor
  · gcongr
  · rw [mul_right_comm]
    gcongr

theorem roundedSignificand_bounds (fmt : FloatFormat) {m : Nat} (h : m ≠ 0) :
    2 ^ fmt.manBits ≤ fmt.roundedSignificand m ∧ fmt.roundedSignificand m ≤ 2 ^ fmt.manBits * 2 := by
  obtain ⟨hlow, hhigh⟩ := inUnits_bounds fmt h
  have hnear := roundedSignificand_isNearestEven fmt m
  exact ⟨hnear.le hlow, hnear.ge hhigh⟩

/-- A magnitude of no more significant bits than the format's is an integer number of units. -/
theorem inUnits_eq_intCast_of_significantBits (fmt : FloatFormat) {m a k : Nat} (h : m ≠ 0) (hm : m = a * 2 ^ k)
    (ha : a < 2 ^ (fmt.manBits + 1)) : ∃ n : Int, inUnits fmt m = n := by
  have htop : Nat.log2 m < fmt.manBits + 1 + k := by
    rw [Nat.log2_lt h, hm, pow_add]
    gcongr
  obtain ⟨j, hj⟩ := Nat.exists_eq_add_of_le (show Nat.log2 m ≤ k + fmt.manBits by omega)
  refine ⟨a * 2 ^ j, ?_⟩
  have hexp : (k : Int) + (fmt.manBits - Nat.log2 m) = j := by omega
  rw [inUnits]
  nth_rw 1 [hm]
  push_cast
  rw [mul_assoc, ← zpow_natCast, ← zpow_add₀ two_ne_zero, hexp, zpow_natCast]

/-- The unit of the last place of the result, signed as the operand. -/
def signedUnit (fmt : FloatFormat) (x : Word) : ℚ :=
  (-1) ^ (if x.toInt < 0 then 1 else 0) * 2 ^ ((Nat.log2 x.toInt.natAbs : Int) - 32 - fmt.manBits)

theorem abs_signedUnit (fmt : FloatFormat) (x : Word) :
    |signedUnit fmt x| = 2 ^ ((Nat.log2 x.toInt.natAbs : Int) - 32 - fmt.manBits) := by
  rw [signedUnit, abs_mul, abs_neg_one_pow, one_mul, abs_of_pos (by positivity)]

theorem inUnits_mul_signedUnit (fmt : FloatFormat) (x : Word) :
    inUnits fmt x.toInt.natAbs * signedUnit fmt x = (x.toInt : ℚ) / 2 ^ 32 := by
  have hpow : (2 : ℚ) ^ ((fmt.manBits : Int) - Nat.log2 x.toInt.natAbs) *
      2 ^ ((Nat.log2 x.toInt.natAbs : Int) - 32 - fmt.manBits) = (2 ^ 32)⁻¹ := by
    rw [← zpow_add₀ two_ne_zero, ← zpow_natCast, ← zpow_neg]
    congr 1
    push_cast
    ring
  have hsign : (x.toInt.natAbs : ℚ) * (-1) ^ (if x.toInt < 0 then 1 else 0) = x.toInt := by
    split
    next h =>
      rw [pow_one, mul_neg_one, Nat.cast_natAbs, abs_of_neg h, Int.cast_neg, neg_neg]
    next h =>
      rw [pow_zero, mul_one, Nat.cast_natAbs, abs_of_nonneg (not_lt.mp h)]
  rw [inUnits, signedUnit, div_eq_mul_inv, ← hpow, ← hsign]
  ring

theorem natAbs_toInt_ne_zero {x : Word} (h : x ≠ 0#64) : x.toInt.natAbs ≠ 0 := Int.natAbs_ne_zero.mpr (toInt_ne_zero h)

/-- A raw value that is not 0 becomes a normal number: its rounded significand times the unit (R215 item 3). -/
theorem ofFixed_isPatternOf {fmt : FloatFormat} (hfmt : fmt.HoldsFixed) {x : Word} (h : x ≠ 0#64) :
    IsPatternOf fmt (fmt.roundedSignificand x.toInt.natAbs * signedUnit fmt x) (fmt.ofFixed x) := by
  have hx := toInt_bounds x
  have hne := natAbs_toInt_ne_zero h
  have htop : Nat.log2 x.toInt.natAbs < 64 := (Nat.log2_lt hne).mpr (by omega)
  have hbias := hfmt.le_bias
  have hmax := hfmt.bias_lt
  obtain ⟨hlow, hhigh⟩ := roundedSignificand_bounds fmt hne
  have hexp : ((Nat.log2 x.toInt.natAbs + fmt.bias - 32 : Nat) : Int) - fmt.bias - fmt.manBits =
      Nat.log2 x.toInt.natAbs - 32 - fmt.manBits := by omega
  rw [FloatFormat.ofFixed_of_ne_zero fmt h, signedUnit, ← hexp]
  exact pack_isPatternOf (by split <;> omega) (by omega) (by omega) hlow hhigh

/-- The even significand of a tie gives the even pattern. -/
theorem ofFixed_mod_two {fmt : FloatFormat} (hfmt : fmt.HoldsFixed) {x : Word} (h : x ≠ 0#64) :
    fmt.ofFixed x % 2 = fmt.roundedSignificand x.toInt.natAbs % 2 := by
  rw [FloatFormat.ofFixed_of_ne_zero fmt h, FloatFormat.pack_mod_two hfmt.manBits_pos]
  exact (roundedSignificand_bounds fmt (natAbs_toInt_ne_zero h)).1

/-- The pattern 0 is that of the value 0. -/
theorem zero_isPatternOf {fmt : FloatFormat} (hfmt : fmt.HoldsFixed) : IsPatternOf fmt 0 0 where
  lt := by positivity
  finite := by
    have hmax := hfmt.bias_lt
    rw [BinaryFinite, Nat.zero_div, Nat.zero_mod]
    omega
  value := by simp [binaryValue]

/-- TOF64 and TOF32 round to nearest, ties to even: every value of the format is a multiple of the result's unit or below its power of
two. -/
theorem ofFixed_isRoundedTo {fmt : FloatFormat} (hfmt : fmt.HoldsFixed) (x : Word) :
    IsRoundedTo fmt.expBits fmt.manBits (x.toInt / 2 ^ 32) (fmt.ofFixed x) := by
  by_cases h : x = 0#64
  · obtain ⟨hlt, hfinite, hvalue⟩ := zero_isPatternOf hfmt
    rw [h, FloatFormat.ofFixed_zero, BitVec.toInt_zero, Int.cast_zero, zero_div]
    refine ⟨hlt, hfinite, fun _ => rfl, fun q _ _ => ⟨?_, fun _ _ => rfl⟩⟩
    rw [hvalue, sub_self, abs_zero]
    exact abs_nonneg _
  · obtain ⟨hlt, hfinite, hvalue⟩ := ofFixed_isPatternOf hfmt h
    have hne := natAbs_toInt_ne_zero h
    have hunit := abs_signedUnit fmt x
    have hunit0 : signedUnit fmt x ≠ 0 := abs_pos.mp (by rw [hunit]; positivity)
    have hraw : (x.toInt : ℚ) / 2 ^ 32 ≠ 0 := div_ne_zero (mod_cast toInt_ne_zero h) (by positivity)
    refine ⟨hlt, hfinite, fun h0 => absurd h0 hraw, fun q _ _ => ?_⟩
    rw [hvalue, ← inUnits_mul_signedUnit fmt x, ofFixed_mod_two hfmt h]
    refine (roundedSignificand_isNearestEven fmt _).nearest_multiple (inUnits_bounds fmt hne).1 hunit0 ?_
    exact_mod_cast binaryValue_multiple_or_small fmt q hunit

/-- A magnitude of no more significant bits than the format's is not rounded (R217). -/
theorem binaryValue_ofFixed_exact {fmt : FloatFormat} (hfmt : fmt.HoldsFixed) {x : Word} {m : Int} {k : Nat}
    (hx : x.toInt = m * 2 ^ k) (hm : m.natAbs < 2 ^ (fmt.manBits + 1)) :
    BinaryFinite fmt.expBits fmt.manBits (fmt.ofFixed x) ∧
    binaryValue fmt.expBits fmt.manBits (fmt.ofFixed x) = (x.toInt : ℚ) / 2 ^ 32 := by
  by_cases h : x = 0#64
  · obtain ⟨_, hfinite, hvalue⟩ := zero_isPatternOf hfmt
    rw [h, FloatFormat.ofFixed_zero, BitVec.toInt_zero, Int.cast_zero, zero_div]
    exact ⟨hfinite, hvalue⟩
  · obtain ⟨_, hfinite, hvalue⟩ := ofFixed_isPatternOf hfmt h
    have habs : x.toInt.natAbs = m.natAbs * 2 ^ k := by rw [hx, Int.natAbs_mul, Int.natAbs_pow]; rfl
    obtain ⟨n, hn⟩ := inUnits_eq_intCast_of_significantBits fmt (natAbs_toInt_ne_zero h) habs hm
    refine ⟨hfinite, ?_⟩
    rw [hvalue, (roundedSignificand_isNearestEven fmt _).eq_of_intCast hn, inUnits_mul_signedUnit]

end Sys2Proof.Claims
end

