-- ==== Sys2Proof/Proofs/MoveConvert.lean ====
section
/-!
PROOFS. Moves, constants and conversions (spec/45_move_convert.md). The integer conversions stay in range; the float conversions come down
to the facts about the formats.
-/

namespace Sys2Proof.Machine

-- How the commands of this family end (R34, R35); MOV and LDC stand with the encodings

theorem exec_li (rd : Reg) (imm : BitVec 20) (s : State) : exec (.li rd imm) s = .next (s.setReg rd (Fx.li imm)) :=
  completeS_ok (.li rd imm) rd _ s rfl

theorem exec_fromint (rd rs1 : Reg) (s : State) : exec (.fromint rd rs1) s = .next (s.setReg rd (Fx.fromint (s.reg rs1))) :=
  completeS_ok (.fromint rd rs1) rd _ s rfl

theorem exec_toint (rd rs1 : Reg) (s : State) : exec (.toint rd rs1) s = .next (s.setReg rd (Fx.toint (s.reg rs1))) :=
  completeS_ok (.toint rd rs1) rd _ s rfl

theorem exec_fromf64 (rd rs1 : Reg) (s : State) :
    exec (.fromf64 rd rs1) s = completeS (.fromf64 rd rs1) rd (Fx.fromf64 (s.reg rs1)) s := rfl

theorem exec_fromf32 (rd rs1 : Reg) (s : State) :
    exec (.fromf32 rd rs1) s = completeS (.fromf32 rd rs1) rd (Fx.fromf32 (s.reg rs1)) s := rfl

theorem exec_tof64 (rd rs1 : Reg) (s : State) : exec (.tof64 rd rs1) s = .next (s.setReg rd (Fx.tof64 (s.reg rs1))) :=
  completeS_ok (.tof64 rd rs1) rd _ s rfl

theorem exec_tof32 (rd rs1 : Reg) (s : State) : exec (.tof32 rd rs1) s = .next (s.setReg rd (Fx.tof32 (s.reg rs1))) :=
  completeS_ok (.tof32 rd rs1) rd _ s rfl

-- The immediate of LI and the integer conversions (R211, R213, R214)

/-- A 20-bit integer times 2^32 is in range, so that narrowing keeps it. -/
theorem Fx.toInt_li (imm : BitVec 20) : (Fx.li imm).toInt = imm.toInt * 2 ^ 32 := by
  have hlow := imm.le_toInt
  have hhigh := imm.toInt_lt
  rw [Fx.li, sext20, toInt_s64_of_range] <;> omega

/-- A 32-bit integer times 2^32 is in range, so that narrowing keeps it. -/
theorem Fx.toInt_fromint (n : Word) : (Fx.fromint n).toInt = (n.toNat : Int).bmod (2 ^ 32) * 2 ^ 32 := by
  have hlow := (n.setWidth 32).le_toInt
  have hhigh := (n.setWidth 32).toInt_lt
  rw [Fx.fromint, toInt_s64_of_range, BitVec.toInt_setWidth] <;> omega

theorem Fx.toInt_toint (x : Word) : (Fx.toint x).toInt = x.toInt / 2 ^ 32 := by
  have hx := toInt_bounds x
  rw [Fx.toint, asr, toInt_s64_of_range] <;> omega

/-- TOINT's result is a 32-bit integer, so that FROMINT reads all of it (R214). -/
theorem Fx.fromint_toint (x : Word) : Fx.fromint (Fx.toint x) = Fx.floor x := by
  have hx := toInt_bounds x
  have htoint := Fx.toInt_toint x
  apply BitVec.eq_of_toInt_eq
  rw [Fx.toInt_fromint, Fx.toInt_floor, Int.bmod_def]
  rw [BitVec.toInt_eq_toNat_cond] at htoint
  omega

end Sys2Proof.Machine

namespace Sys2Proof.Claims

open Sys2Proof.Machine

/-- Settles O44: each command writes its value, and LDC's rows are those of the table with the default constants. -/
theorem movesAndConstants : Obligations.MovesAndConstants := fun s rd a =>
  ⟨exec_mov rd a s, fun imm => ⟨_, exec_li rd imm s, Fx.toInt_li imm⟩, exec_ldc rd (by decide) s, exec_ldc rd (by decide) s,
    exec_ldc rd (by decide) s, exec_ldc rd (by decide) s, exec_ldc rd (by decide) s, exec_ldc rd (by decide) s,
    exec_ldc rd (by decide) s⟩

/-- Settles O45: the results are in range, and TOINT's fits the 32 bits that FROMINT reads. -/
theorem integerConversions : Obligations.IntegerConversions := by
  intro s rd a
  refine ⟨⟨_, exec_fromint rd a s, Fx.toInt_fromint _⟩, _, exec_toint rd a s, Fx.toInt_toint _, ?_⟩
  rw [exec_fromint, exec_floor, State.reg_setReg_same, State.setReg_setReg, Fx.fromint_toint]

-- From float to fixed (R215, R216, R218)

/-- The test of R215 item 1. -/
theorem fromFloat_test_iff (fmt : FloatFormat) (n : Nat) :
    (fmt.finite n ∧ minV.toInt ≤ fmt.truncFixed n ∧ fmt.truncFixed n ≤ maxV.toInt) ↔
      ¬ FloatOutOfRange fmt.expBits fmt.manBits n := by
  have hmin : minV.toInt = -2 ^ 63 := by decide
  have hmax : maxV.toInt = 2 ^ 63 - 1 := by decide
  rw [FloatOutOfRange, not_not, finite_iff_binaryFinite, truncFixed_eq, hmin, hmax, Int.le_sub_one_iff]

theorem fxFromFloat_of_inRange {fmt : FloatFormat} {n : Nat} (p : FloatPattern)
    (h : ¬ FloatOutOfRange fmt.expBits fmt.manBits n) :
    Fx.fromFloat fmt n p = .ok (s64 (truncQ (binaryValue fmt.expBits fmt.manBits n * 2 ^ 32))) := by
  rw [← truncFixed_eq]
  exact if_pos ((fromFloat_test_iff fmt n).mpr h)

/-- Out of range the parameter decides: its value for the pattern, or the fault (log 8). -/
theorem completeS_fromFloat_of_outOfRange (i : Instr) (rd : Reg) {fmt : FloatFormat} {n : Nat} (p : FloatPattern) (s : State)
    (hw : i.wellFormed = true) (h : FloatOutOfRange fmt.expBits fmt.manBits n) :
    completeS i rd (Fx.fromFloat fmt n p) s = .next
      (match Config.f2xOor with
       | some g => s.setReg rd (g p)
       | none => s.faultEntry .domainError (encode i)) := by
  have htest := (fromFloat_test_iff fmt n).not.mpr (not_not.mpr h)
  simp only [Fx.fromFloat, if_neg htest]
  cases Config.f2xOor with
  | some g => exact completeS_ok i rd (g p) s hw
  | none => exact completeS_error i rd .domainError s hw

/-- Settles O46: both formats by the common rule of R215, binary32 on the low half of the register. -/
theorem floatsTruncateToFixed : Obligations.FloatsTruncateToFixed := by
  intro s rd a
  rw [exec_fromf64, exec_fromf32, ← BitVec.toNat_setWidth 32 (s.reg a)]
  exact ⟨fun h => completeS_of_ok _ rd s rfl (fxFromFloat_of_inRange (fmt := binary64) _ h),
    fun h => completeS_fromFloat_of_outOfRange (fmt := binary64) _ rd _ s rfl h,
    fun h => completeS_of_ok _ rd s rfl (fxFromFloat_of_inRange (fmt := binary32) _ h),
    fun h => completeS_fromFloat_of_outOfRange (fmt := binary32) _ rd _ s rfl h⟩

-- From fixed to float (R215, R217, R219)

/-- The upper half of a binary32 result is 0 (R219). -/
theorem fxTof32_eq (x : Word) : Fx.tof32 x = BitVec.ofNat 64 (binary32.ofFixed x) := by
  have hlt : binary32.ofFixed x < 2 ^ 32 := (ofFixed_isRoundedTo binary32_holdsFixed x).1
  apply BitVec.eq_of_toNat_eq
  rw [Fx.tof32, BitVec.toNat_setWidth, BitVec.toNat_ofNat, BitVec.toNat_ofNat]
  omega

/-- Settles O47: both formats by the common rule of R215. -/
theorem fixedRoundsToFloat : Obligations.FixedRoundsToFloat := by
  intro s rd a
  rw [exec_tof64, exec_tof32, fxTof32_eq]
  exact ⟨⟨_, rfl, ofFixed_isRoundedTo binary64_holdsFixed _⟩, _, rfl, ofFixed_isRoundedTo binary32_holdsFixed _⟩

theorem toNat_fxTof64 (x : Word) : (Fx.tof64 x).toNat = binary64.ofFixed x :=
  (BitVec.toNat_ofNat _ _).trans (Nat.mod_eq_of_lt (ofFixed_isRoundedTo binary64_holdsFixed x).1)

/-- A raw value of at most 53 significant bits loses nothing in TOF64, so that it comes back in range. -/
theorem fxFromf64_tof64 {x : Word} {m : Int} {k : Nat} (hx : x.toInt = m * 2 ^ k) (hm : m.natAbs < 2 ^ 53) :
    Fx.fromf64 (Fx.tof64 x) = .ok x := by
  have hbounds := toInt_bounds x
  obtain ⟨hfinite, hvalue⟩ := binaryValue_ofFixed_exact binary64_holdsFixed hx hm
  have htrunc : truncQ (binaryValue binary64.expBits binary64.manBits (binary64.ofFixed x) * 2 ^ 32) = x.toInt := by
    rw [hvalue, div_mul_cancel₀ _ (by positivity), truncQ_intCast]
  have hrange : ¬ FloatOutOfRange binary64.expBits binary64.manBits (binary64.ofFixed x) := by
    rw [FloatOutOfRange, htrunc, not_not]
    exact ⟨hfinite, by omega, by omega⟩
  rw [Fx.fromf64, toNat_fxTof64, fxFromFloat_of_inRange _ hrange, htrunc, s64_toInt]

/-- Settles O48: TOF64 is exact on these raw values, and FROMF64 truncates nothing. -/
theorem floatRoundTripOn53Bits : Obligations.FloatRoundTripOn53Bits := by
  intro s rd a m k hx hm
  refine ⟨_, exec_tof64 rd a s, ?_⟩
  rw [exec_fromf64, State.reg_setReg_same, completeS_of_ok _ rd _ rfl (fxFromf64_tof64 hx hm), State.setReg_setReg]

end Sys2Proof.Claims
end

