-- ==== Sys2Proof/Proofs/VectorLaws.lean ====
section
/-!
SUPPORT. How the commands of the vector pipeline end (spec/46_vector.md), and what its functions compute: divisions by the closed form of
DIV, sums of squares that are never negative, and the magnitude as the digit loop's root (log 20).
-/

namespace Sys2Proof.Machine

-- How a command with a group destination ends, from the value of its function (R34, R35)

theorem completeV_of_ok (i : Instr) (rd : Reg) {r : Except Cause Vec3} {x y z : Word} (s : State) (hw : i.wellFormed = true)
    (h : r = .ok ⟨x, y, z⟩) : completeV i rd r s = .next (s.writeGroup rd [x, y, z]) := h ▸ completeV_ok i rd _ s hw

theorem completeV_of_error (i : Instr) (rd : Reg) {r : Except Cause Vec3} {c : Cause} (s : State) (hw : i.wellFormed = true)
    (h : r = .error c) : completeV i rd r s = .next (s.faultEntry c (encode i)) := h ▸ completeV_error i rd c s hw

theorem completeQ_of_ok (i : Instr) (rd : Reg) {r : Except Cause Quat} {x y z w : Word} (s : State) (hw : i.wellFormed = true)
    (h : r = .ok ⟨x, y, z, w⟩) : completeQ i rd r s = .next (s.writeGroup rd [x, y, z, w]) := h ▸ completeQ_ok i rd _ s hw

-- How the commands of this family end (R34, R35, R83)

theorem exec_vldc {rd : Reg} {k : BitVec 20} (s : State) (hd : vecBase rd = true) (hk : k.toNat ≤ 7) :
    exec (.vldc rd k) s = .next (s.writeGroup rd (Fx.vconst k.toNat).toList) :=
  completeV_ok (.vldc rd k) rd _ s (by simp [Instr.wellFormed, hd, hk])

theorem exec_qid {rd : Reg} (s : State) (hd : quatBase rd = true) :
    exec (.qid rd) s = .next (s.writeGroup rd Fx.qidentity.toList) :=
  completeQ_ok (.qid rd) rd _ s hd

theorem exec_qnorm (rd a : Reg) (s : State) : exec (.qnorm rd a) s = completeQ (.qnorm rd a) rd (Fx.qnorm (s.quat a)) s := rfl

theorem exec_vdivs (rd a c : Reg) (s : State) :
    exec (.vdivs rd a c) s = completeV (.vdivs rd a c) rd (Fx.vdivs (s.vec a) (s.reg c)) s := rfl

theorem exec_vmag (rd a : Reg) (s : State) : exec (.vmag rd a) s = completeS (.vmag rd a) rd (Fx.vmag (s.vec a)) s := rfl

theorem exec_vnorm (rd a : Reg) (s : State) : exec (.vnorm rd a) s = completeV (.vnorm rd a) rd (Fx.vnorm (s.vec a)) s := rfl

theorem exec_vproj (rd a b : Reg) (s : State) :
    exec (.vproj rd a b) s = completeV (.vproj rd a b) rd (Fx.vproj (s.vec a) (s.vec b)) s := rfl

theorem exec_vprojp (rd a b : Reg) (s : State) :
    exec (.vprojp rd a b) s = completeV (.vprojp rd a b) rd (Fx.vprojp (s.vec a) (s.vec b)) s := rfl

theorem exec_vdist (rd a b : Reg) (s : State) :
    exec (.vdist rd a b) s = completeS (.vdist rd a b) rd (Fx.vdist (s.vec a) (s.vec b)) s := rfl

theorem exec_vsqrmag {rd a : Reg} (s : State) (ha : vecBase a = true) :
    exec (.vsqrmag rd a) s = .next (s.setReg rd (Fx.vsqrmag (s.vec a))) := completeS_ok (.vsqrmag rd a) rd _ s ha

theorem vecBase_pair {a b : Reg} (ha : vecBase a = true) (hb : vecBase b = true) : (vecBase a && vecBase b) = true :=
  Bool.and_eq_true_iff.mpr ⟨ha, hb⟩

section TwoSources

variable {rd a b : Reg} (s : State) (ha : vecBase a = true) (hb : vecBase b = true)

include ha hb

theorem exec_vdot : exec (.vdot rd a b) s = .next (s.setReg rd (Fx.vdot (s.vec a) (s.vec b))) :=
  completeS_ok (.vdot rd a b) rd _ s (vecBase_pair ha hb)

theorem exec_veq : exec (.veq rd a b) s = .next (s.setReg rd (Fx.veq (s.vec a) (s.vec b))) :=
  completeS_ok (.veq rd a b) rd _ s (vecBase_pair ha hb)

end TwoSources

section GroupDestination

variable {rd a b c : Reg} (s : State) (hd : vecBase rd = true) (ha : vecBase a = true) (hb : vecBase b = true)

include hd ha

theorem exec_vneg : exec (.vneg rd a) s = .next (s.writeGroup rd (Fx.vneg (s.vec a)).toList) :=
  completeV_ok (.vneg rd a) rd _ s (vecBase_pair hd ha)

theorem exec_vscale : exec (.vscale rd a c) s = .next (s.writeGroup rd (Fx.vscale (s.vec a) (s.reg c)).toList) :=
  completeV_ok (.vscale rd a c) rd _ s (vecBase_pair hd ha)

include hb

theorem vecBase_triple : (vecBase rd && vecBase a && vecBase b) = true :=
  Bool.and_eq_true_iff.mpr ⟨vecBase_pair hd ha, hb⟩

theorem exec_vadd : exec (.vadd rd a b) s = .next (s.writeGroup rd (Fx.vadd (s.vec a) (s.vec b)).toList) :=
  completeV_ok (.vadd rd a b) rd _ s (vecBase_triple hd ha hb)

theorem exec_vsub : exec (.vsub rd a b) s = .next (s.writeGroup rd (Fx.vsub (s.vec a) (s.vec b)).toList) :=
  completeV_ok (.vsub rd a b) rd _ s (vecBase_triple hd ha hb)

theorem exec_vmin : exec (.vmin rd a b) s = .next (s.writeGroup rd (Fx.vmin (s.vec a) (s.vec b)).toList) :=
  completeV_ok (.vmin rd a b) rd _ s (vecBase_triple hd ha hb)

theorem exec_vmax : exec (.vmax rd a b) s = .next (s.writeGroup rd (Fx.vmax (s.vec a) (s.vec b)).toList) :=
  completeV_ok (.vmax rd a b) rd _ s (vecBase_triple hd ha hb)

theorem exec_vcross : exec (.vcross rd a b) s = .next (s.writeGroup rd (Fx.vcross (s.vec a) (s.vec b)).toList) :=
  completeV_ok (.vcross rd a b) rd _ s (vecBase_triple hd ha hb)

theorem exec_vlerpu :
    exec (.vlerpu rd a b c) s = .next (s.writeGroup rd (Fx.vlerpu (s.vec a) (s.vec b) (s.reg c)).toList) :=
  completeV_ok (.vlerpu rd a b c) rd _ s (vecBase_triple hd ha hb)

theorem exec_vlerp :
    exec (.vlerp rd a b c) s = .next (s.writeGroup rd (Fx.vlerp (s.vec a) (s.vec b) (s.reg c)).toList) :=
  completeV_ok (.vlerp rd a b c) rd _ s (vecBase_triple hd ha hb)

end GroupDestination

-- The clamped parameter of VLERP (R193, R254)

theorem Fx.clamp01_of_nonpos {t : Word} (h : t.toInt ≤ 0) : Fx.clamp01 t = 0#64 :=
  BitVec.eq_of_toInt_eq (by rw [Fx.toInt_clamp01, BitVec.toInt_zero]; omega)

theorem Fx.clamp01_of_mem {t : Word} (h0 : 0 ≤ t.toInt) (h1 : t.toInt ≤ 2 ^ 32) : Fx.clamp01 t = t :=
  BitVec.eq_of_toInt_eq (by rw [Fx.toInt_clamp01]; omega)

theorem Fx.clamp01_of_ge {t : Word} (h : 2 ^ 32 ≤ t.toInt) : Fx.clamp01 t = oneV :=
  BitVec.eq_of_toInt_eq (by rw [Fx.toInt_clamp01, oneV_toInt]; omega)

-- A zero divisor (R245, R251, R252)

theorem Fx.vdivs_zero (a : Vec3) : Fx.vdivs a 0#64 = .error .divideByZero := rfl

theorem Fx.vproj_of_zero {v n : Vec3} (h : Fx.vdot n n = 0#64) : Fx.vproj v n = .error .divideByZero := by
  simp [Fx.vproj, h]

theorem Fx.vprojp_of_zero {v n : Vec3} (h : Fx.vdot n n = 0#64) : Fx.vprojp v n = .error .divideByZero := by
  simp [Fx.vprojp, h]

-- The normalisations, from the magnitude (R249, R293)

theorem Fx.vnorm_of_mag {a : Vec3} {m : Word} (h : Fx.vmag a = .ok m) :
    Fx.vnorm a = if m.toInt ≤ 0 then .ok ⟨0#64, 0#64, 0#64⟩ else Fx.div3 a m := by
  rw [Fx.vnorm, h]
  rfl

theorem Fx.qnorm_of_mag {a : Quat} {m : Word} (h : Fx.sqrt (Fx.qdot a a) = .ok m) :
    Fx.qnorm a = if m.toInt ≤ 0 then .ok Fx.qidentity else Fx.div4 a m := by
  rw [Fx.qnorm, h]
  rfl

end Sys2Proof.Machine

namespace Sys2Proof.Claims

open Sys2Proof.Machine

-- Clamping, and the sum and difference of special operands (R100, R101)

theorem toInt_clampRaw (v : Int) : (clampRaw v).toInt = max (-2 ^ 63) (min v (2 ^ 63 - 1)) := by
  by_cases hlo : v < -2 ^ 63
  · rw [clampRaw_of_lt hlo, show minV.toInt = -2 ^ 63 from rfl]
    omega
  by_cases hhi : 2 ^ 63 ≤ v
  · rw [clampRaw_of_ge hhi, show maxV.toInt = 2 ^ 63 - 1 from rfl]
    omega
  · rw [clampRaw_of_range (by omega) (by omega), toInt_s64_of_range _ (by omega) (by omega)]
    omega

theorem clampRaw_of_le {v : Int} (h : v ≤ -2 ^ 63) : clampRaw v = minV :=
  BitVec.eq_of_toInt_eq (by rw [toInt_clampRaw, show minV.toInt = -2 ^ 63 from rfl]; omega)

theorem fxAdd_nonneg {x y : Word} (hx : 0 ≤ x.toInt) (hy : 0 ≤ y.toInt) : 0 ≤ (Fx.add x y).toInt := by
  rw [fxAdd_eq_clampRaw, toInt_clampRaw]
  omega

theorem fxAdd_zero (x : Word) : Fx.add x 0#64 = x := by
  rw [fxAdd_eq_clampRaw, BitVec.toInt_zero, Int.add_zero, clampRaw_toInt]

theorem fxSub_self (x : Word) : Fx.sub x x = 0#64 := by
  rw [fxSub_eq_clampRaw, Int.sub_self]
  rfl

-- A product of equal operands (R103, R104 item 7)

/-- Where the square is in range, `x` is below 2^47.6 in magnitude, so that R103's `top` test does not fire. -/
theorem topIsClear_self {x : Word} (h : x.toInt * x.toInt < 2 ^ 95) : TopIsClear x x := by
  have hx : |x.toInt| < |(3 * 2 ^ 46 : Int)| := abs_lt_iff_mul_self_lt.mpr (by omega)
  rw [abs_of_pos (by norm_num : (0 : Int) < 3 * 2 ^ 46), abs_lt] at hx
  have hhi : |x.toInt / 2 ^ 32| ≤ |(3 * 2 ^ 14 : Int)| := by
    rw [abs_of_pos (by norm_num : (0 : Int) < 3 * 2 ^ 14), abs_le]
    omega
  have hsquare := abs_le_iff_mul_self_le.mp hhi
  exact .inl (Int.ediv_eq_zero_of_lt (mul_self_nonneg _) (by omega))

/-- On equal operands MUL is the clamp of the truncated square. -/
theorem fxMul_self_eq_clampRaw (x : Word) : Fx.mul x x = clampRaw (x.toInt * x.toInt / 2 ^ 32) := by
  have h0 := mul_self_nonneg x.toInt
  by_cases h : x.toInt * x.toInt < 2 ^ 95
  · rw [fxMul_of_floorInRange (by rw [FloorInRange]; omega) (topIsClear_self h), clampRaw_of_range (by omega) (by omega)]
  · have hout : ¬ (FloorInRange x x ∧ TopIsClear x x) := fun hr => by rw [FloorInRange] at hr; omega
    rw [fxMul_eq, if_neg hout, signBound_of_sb_eq rfl, clampRaw_of_ge (by omega)]

/-- Clamping an integer and its negation leaves opposite values, or MINV and MAXV, whose squares are both out of range. -/
theorem fxMul_self_clampRaw_neg (v : Int) :
    Fx.mul (clampRaw (-v)) (clampRaw (-v)) = Fx.mul (clampRaw v) (clampRaw v) := by
  have hbounds : Fx.mul minV minV = Fx.mul maxV maxV := by decide
  by_cases hlo : v ≤ -2 ^ 63
  · rw [clampRaw_of_le hlo, clampRaw_of_ge (by omega), hbounds]
  by_cases hhi : 2 ^ 63 ≤ v
  · rw [clampRaw_of_ge hhi, clampRaw_of_le (by omega), hbounds]
  · have hneg : (clampRaw (-v)).toInt = -(clampRaw v).toInt := by
      rw [toInt_clampRaw, toInt_clampRaw]
      omega
    rw [fxMul_self_eq_clampRaw, fxMul_self_eq_clampRaw, hneg, neg_mul_neg]

theorem fxMul_self_sub_comm (x y : Word) : Fx.mul (Fx.sub x y) (Fx.sub x y) = Fx.mul (Fx.sub y x) (Fx.sub y x) := by
  rw [fxSub_eq_clampRaw x y, fxSub_eq_clampRaw y x, ← Int.neg_sub, fxMul_self_clampRaw_neg]

-- Sums of squares (R246, R247, R294)

theorem fxVdot_self_nonneg (a : Vec3) : 0 ≤ (Fx.vdot a a).toInt :=
  fxAdd_nonneg (fxAdd_nonneg (fxMul_self_nonneg _) (fxMul_self_nonneg _)) (fxMul_self_nonneg _)

theorem fxVsqrmag_nonneg (a : Vec3) : 0 ≤ (Fx.vsqrmag a).toInt := fxVdot_self_nonneg a

theorem fxQdot_self_nonneg (a : Quat) : 0 ≤ (Fx.qdot a a).toInt :=
  fxAdd_nonneg (fxAdd_nonneg (fxAdd_nonneg (fxMul_self_nonneg _) (fxMul_self_nonneg _)) (fxMul_self_nonneg _))
    (fxMul_self_nonneg _)

theorem fxVsqrmag_vsub_comm (a b : Vec3) : Fx.vsqrmag (Fx.vsub a b) = Fx.vsqrmag (Fx.vsub b a) := by
  simp only [Fx.vsqrmag, Fx.vdot, Fx.vsub, Fx.zip3, fxMul_self_sub_comm a.x, fxMul_self_sub_comm a.y, fxMul_self_sub_comm a.z]

theorem fxVcross_self (a : Vec3) : Fx.vcross a a = ⟨0#64, 0#64, 0#64⟩ := by
  simp only [Fx.vcross, fxMul_comm a.z a.y, fxMul_comm a.x a.z, fxMul_comm a.y a.x, fxSub_self]

theorem fxVeq_self (a : Vec3) : Fx.veq a a = oneV := by
  simp only [Fx.veq, fxSub_self, fxAdd_zero, Fx.truth, decide_true, if_true]

-- The root of a sum of squares (R248, R253)

/-- SQRT of an operand that is not negative, by its specification alone: no later proof evaluates the digit loop. -/
theorem fxSqrt_root {x : Word} (h : 0 ≤ x.toInt) : ∃ m, Fx.sqrt x = .ok m ∧ IsDigitLoopRoot x m.toNat :=
  ⟨_, Fx.sqrt_of_nonneg h, sqrtUnsigned_isRoundedRoot h⟩

theorem isNearestRoot_of_isDigitLoopRoot {x : Word} {v : Nat} (h : IsDigitLoopRoot x v) (hx : 0 ≤ x.toInt)
    (h62 : x.toInt < 2 ^ 62) : IsNearestRoot x v := by
  obtain ⟨r, hle, hlt, hroot⟩ := h
  rw [toInt_of_nonneg hx] at h62
  rw [IsNearestRoot, ← sqrtRadicand_of_lt hle hlt (by omega)]
  exact hroot

/-- The bound is the rounded root of MAXV. -/
theorem isDigitLoopRoot_le {x : Word} {v : Nat} (h : IsDigitLoopRoot x v) (hx : 0 ≤ x.toInt) : v ≤ 0x0000B504F333F9DE := by
  have hlt := toNat_lt_of_nonneg hx
  obtain ⟨r, -, -, hroot⟩ := h
  obtain ⟨-, hsquare⟩ := isRoundedRoot_iff.mp hroot
  by_contra hv
  have hproduct := Nat.mul_le_mul_right v (Nat.lt_of_not_le hv)
  split at hsquare <;> omega

/-- The test `m <= 0` of the normalisations asks whether the magnitude is 0, since a root is not negative. -/
theorem isDigitLoopRoot_nonpos_iff {x m : Word} (h : IsDigitLoopRoot x m.toNat) (hx : 0 ≤ x.toInt) : m.toInt ≤ 0 ↔ m = 0#64 := by
  have hle := isDigitLoopRoot_le h hx
  have hm := BitVec.toInt_eq_toNat_of_lt (x := m) (by omega)
  rw [← BitVec.toNat_inj, BitVec.toNat_zero]
  omega

theorem fxVdist_comm (a b : Vec3) : Fx.vdist a b = Fx.vdist b a := by
  rw [Fx.vdist, Fx.vdist, Fx.vmag, Fx.vmag, fxVsqrmag_vsub_comm]

-- Divisions of a group by the closed form of DIV (R106, R245, R249, R251, R252, R293)

theorem fxDiv3_eq (a : Vec3) {d : Word} (hd : d ≠ 0#64) :
    Fx.div3 a d = .ok ⟨divClosed a.x d, divClosed a.y d, divClosed a.z d⟩ := by
  simp only [Fx.div3, fxDiv_eq_divClosed _ hd]
  rfl

theorem fxDiv4_eq (a : Quat) {d : Word} (hd : d ≠ 0#64) :
    Fx.div4 a d = .ok ⟨divClosed a.x d, divClosed a.y d, divClosed a.z d, divClosed a.w d⟩ := by
  simp only [Fx.div4, fxDiv_eq_divClosed _ hd]
  rfl

theorem fxVdivs_eq (a : Vec3) {d : Word} (hd : d ≠ 0#64) :
    Fx.vdivs a d = .ok ⟨divClosed a.x d, divClosed a.y d, divClosed a.z d⟩ := by
  rw [Fx.vdivs, if_neg hd, fxDiv3_eq a hd]

/-- R249: both branches of VNORM, by the magnitude. -/
theorem fxVnorm_cases (a : Vec3) : ∃ m, Fx.vmag a = .ok m ∧
    (m = 0#64 → Fx.vnorm a = .ok ⟨0#64, 0#64, 0#64⟩) ∧
    (m ≠ 0#64 → Fx.vnorm a = .ok ⟨divClosed a.x m, divClosed a.y m, divClosed a.z m⟩) := by
  obtain ⟨m, hm, hroot⟩ := fxSqrt_root (fxVsqrmag_nonneg a)
  simp only [Fx.vnorm_of_mag hm, isDigitLoopRoot_nonpos_iff hroot (fxVsqrmag_nonneg a)]
  exact ⟨m, hm, fun h => if_pos h, fun h => (if_neg h).trans (fxDiv3_eq a h)⟩

/-- R293: both branches of QNORM, by the magnitude. -/
theorem fxQnorm_cases (a : Quat) : ∃ m, Fx.sqrt (Fx.qdot a a) = .ok m ∧
    (m = 0#64 → Fx.qnorm a = .ok Fx.qidentity) ∧
    (m ≠ 0#64 → Fx.qnorm a = .ok ⟨divClosed a.x m, divClosed a.y m, divClosed a.z m, divClosed a.w m⟩) := by
  obtain ⟨m, hm, hroot⟩ := fxSqrt_root (fxQdot_self_nonneg a)
  simp only [Fx.qnorm_of_mag hm, isDigitLoopRoot_nonpos_iff hroot (fxQdot_self_nonneg a)]
  exact ⟨m, hm, fun h => if_pos h, fun h => (if_neg h).trans (fxDiv4_eq a h)⟩

/-- The guard of R251 for a negative dot product is never taken. -/
theorem fxVproj_eq (v : Vec3) {n : Vec3} (h : Fx.vdot n n ≠ 0#64) : Fx.vproj v n =
    .ok ⟨divClosed (Fx.mul n.x (Fx.vdot v n)) (Fx.vdot n n), divClosed (Fx.mul n.y (Fx.vdot v n)) (Fx.vdot n n),
      divClosed (Fx.mul n.z (Fx.vdot v n)) (Fx.vdot n n)⟩ := by
  rw [Fx.vproj, if_neg (fxVdot_self_nonneg n).not_gt, if_neg h]
  exact fxDiv3_eq _ h

/-- Where VPROJ gives a vector, VPROJP subtracts it (R252). -/
theorem fxVprojp_eq {v n : Vec3} {x y z : Word} (h : Fx.vdot n n ≠ 0#64) (hp : Fx.vproj v n = .ok ⟨x, y, z⟩) :
    Fx.vprojp v n = .ok ⟨Fx.sub v.x x, Fx.sub v.y y, Fx.sub v.z z⟩ := by
  have hguard := (fxVdot_self_nonneg n).not_gt
  rw [Fx.vproj, if_neg hguard, if_neg h] at hp
  rw [Fx.vprojp, if_neg hguard, if_neg h]
  exact congrArg (Except.map (Fx.vsub v)) hp

end Sys2Proof.Claims
end

