-- ==== Sys2Proof/Proofs/Vector.lean ====
section
/-!
PROOFS. The vector pipeline (spec/46_vector.md): how each command ends, put together with the value of its function.
-/

namespace Sys2Proof.Claims

open Sys2Proof.Machine

/-- Settles O49: each command writes its function's components, and sums, differences and negations are clamps. -/
theorem vectorComponentwise : Obligations.VectorComponentwise := by
  intro s rd a b c hd ha hb
  simp only [← fxAdd_eq_clampRaw, ← fxSub_eq_clampRaw, ← fxNeg_eq_clampRaw]
  exact ⟨exec_vadd s hd ha hb, exec_vsub s hd ha hb, exec_vneg s hd ha, exec_vscale s hd ha, exec_vmin s hd ha hb,
    exec_vmax s hd ha hb⟩

/-- Settles O50: three divisions by the closed form, or the one fault. -/
theorem vectorDividedByScalar : Obligations.VectorDividedByScalar := by
  intro s rd a c hd ha
  have hlegal : (Instr.vdivs rd a c).wellFormed = true := vecBase_pair hd ha
  rw [exec_vdivs]
  refine ⟨fun hc => completeV_of_ok _ rd s hlegal (fxVdivs_eq _ hc), fun hc => ?_⟩
  rw [hc]
  exact completeV_of_error _ rd s hlegal (Fx.vdivs_zero _)

/-- Settles O51: every sum and difference is a clamp, in the order written. -/
theorem vectorProductsAndEquality : Obligations.VectorProductsAndEquality := by
  intro s rd q a b ha hb
  simp only [← fxAdd_eq_clampRaw, ← fxSub_eq_clampRaw]
  refine ⟨exec_vdot s ha hb, exec_vsqrmag s ha, fun hd => exec_vcross s hd ha hb, ?_⟩
  rw [exec_veq s ha hb]
  simp only [Fx.veq, Fx.truth, decide_eq_true_eq]
  rfl

/-- Settles O52: a sum of squares, and differences of equal values. -/
theorem vectorSelfLaws : Obligations.VectorSelfLaws := by
  intro s rd q a hd ha
  refine ⟨⟨_, exec_vdot s ha ha, fxVdot_self_nonneg _⟩, ?_, ?_⟩
  · rw [exec_vcross s hd ha ha, fxVcross_self]
    rfl
  · rw [exec_veq s ha ha, fxVeq_self]

/-- Settles O53: the root of a sum of squares, which for a distance does not change with the sign of the differences. -/
theorem magnitudeAndDistance : Obligations.MagnitudeAndDistance := by
  intro s rd a b ha hb
  have hmag := fxVsqrmag_nonneg (s.vec a)
  have hdist := fxVsqrmag_nonneg (Fx.vsub (s.vec a) (s.vec b))
  obtain ⟨m, hm, hroot⟩ := fxSqrt_root hmag
  obtain ⟨d, hd, hdroot⟩ := fxSqrt_root hdist
  rw [exec_vmag, exec_vdist, exec_vdist, fxVdist_comm (s.vec b)]
  exact ⟨⟨_, m, exec_vsqrmag s ha, completeS_of_ok _ rd s ha hm, hroot, isNearestRoot_of_isDigitLoopRoot hroot hmag,
      isDigitLoopRoot_le hroot hmag⟩,
    d, completeS_of_ok _ rd s (vecBase_pair ha hb) hd, completeS_of_ok _ rd s (vecBase_pair hb ha) hd, hd,
    isDigitLoopRoot_le hdroot hdist⟩

/-- Settles O54: a magnitude exists for every operand, and it is either 0 or a divisor of the closed form. -/
theorem normalizeNeverFaults : Obligations.NormalizeNeverFaults := by
  refine ⟨fun s rd a hd ha => ?_, fun s rd a hd ha => ?_⟩
  · have hlegal : (Instr.vnorm rd a).wellFormed = true := vecBase_pair hd ha
    obtain ⟨m, hm, hzero, hdivided⟩ := fxVnorm_cases (s.vec a)
    rw [exec_vnorm]
    exact ⟨m, hm, fun h => completeV_of_ok _ rd s hlegal (hzero h), fun h => completeV_of_ok _ rd s hlegal (hdivided h)⟩
  · have hlegal : (Instr.qnorm rd a).wellFormed = true := Bool.and_eq_true_iff.mpr ⟨hd, ha⟩
    obtain ⟨m, hm, hzero, hdivided⟩ := fxQnorm_cases (s.quat a)
    rw [exec_qnorm]
    exact ⟨m, hm, fun h => completeQ_of_ok _ rd s hlegal (hzero h), fun h => completeQ_of_ok _ rd s hlegal (hdivided h)⟩

/-- Settles O55: the projection is a division by the closed form, its complement a difference from it. -/
theorem projections : Obligations.Projections := by
  intro s rd a n hd ha hn
  have hproj : (Instr.vproj rd a n).wellFormed = true := vecBase_triple hd ha hn
  have hprojp : (Instr.vprojp rd a n).wellFormed = true := vecBase_triple hd ha hn
  rw [exec_vproj, exec_vprojp]
  refine ⟨fun h => ?_, fun h => ⟨completeV_of_error _ rd s hproj (Fx.vproj_of_zero h),
    completeV_of_error _ rd s hprojp (Fx.vprojp_of_zero h)⟩⟩
  have hp := fxVproj_eq (s.vec a) h
  exact ⟨completeV_of_ok _ rd s hproj hp, completeV_of_ok _ rd s hprojp (fxVprojp_eq h hp)⟩

/-- Settles O56: the clamped parameter is 0, the operand or ONE, and products by 0 and by ONE are exact. -/
theorem interpolation : Obligations.Interpolation := by
  intro s rd a b c hd ha hb
  rw [exec_vlerp s hd ha hb, Fx.vlerp]
  refine ⟨exec_vlerpu s hd ha hb, fun h => ?_, fun h0 h1 => ?_, fun h => ?_⟩
  · rw [Fx.clamp01_of_nonpos h]
    simp only [Fx.vlerpu, Fx.zip3, Vec3.toList, fxMul_zero, fxAdd_zero]
  · rw [Fx.clamp01_of_mem h0 h1]
    rfl
  · rw [Fx.clamp01_of_ge h]
    simp only [Fx.vlerpu, Fx.zip3, Vec3.toList, fxMul_oneV]

/-- Settles O57: the rows of VCONST, and Identity. -/
theorem groupConstants : Obligations.GroupConstants := by
  intro s rd hd
  exact ⟨exec_vldc s hd (by decide), exec_vldc s hd (by decide), exec_vldc s hd (by decide), exec_vldc s hd (by decide),
    exec_vldc s hd (by decide), exec_vldc s hd (by decide), exec_vldc s hd (by decide), exec_vldc s hd (by decide),
    exec_qid s⟩

end Sys2Proof.Claims
end

