-- ==== Sys2Proof/Proofs/Quaternion.lean ====
section
/-!
PROOFS. The quaternion pipeline (spec/47_quaternion.md): how each command ends, products by Identity, and the dot test. Both expansions
are exact at Identity because every MUL in them is by ZERO or by ONE.
-/

namespace Sys2Proof.Machine

-- How the commands of this family end (R34, R35, R83)

section

variable {rd a b : Reg} (s : State)

theorem exec_qmul (hd : quatBase rd = true) (ha : quatBase a = true) (hb : quatBase b = true) :
    exec (.qmul rd a b) s = .next (s.writeGroup rd (Fx.qmul (s.quat a) (s.quat b)).toList) :=
  completeQ_ok (.qmul rd a b) rd _ s (by simp only [Instr.wellFormed, hd, ha, hb, Bool.and_self])

theorem exec_qrot (hd : vecBase rd = true) (ha : quatBase a = true) (hb : vecBase b = true) :
    exec (.qrot rd a b) s = .next (s.writeGroup rd (Fx.qrot (s.quat a) (s.vec b)).toList) :=
  completeV_ok (.qrot rd a b) rd _ s (by simp only [Instr.wellFormed, hd, ha, hb, Bool.and_self])

theorem exec_qdot (ha : quatBase a = true) (hb : quatBase b = true) :
    exec (.qdot rd a b) s = .next (s.setReg rd (Fx.qdot (s.quat a) (s.quat b))) :=
  completeS_ok (.qdot rd a b) rd _ s (Bool.and_eq_true_iff.mpr ⟨ha, hb⟩)

theorem exec_qeq (ha : quatBase a = true) (hb : quatBase b = true) :
    exec (.qeq rd a b) s = .next (s.setReg rd (Fx.qeq (s.quat a) (s.quat b))) :=
  completeS_ok (.qeq rd a b) rd _ s (Bool.and_eq_true_iff.mpr ⟨ha, hb⟩)

theorem exec_qinv (hd : quatBase rd = true) (ha : quatBase a = true) :
    exec (.qinv rd a) s = .next (s.writeGroup rd (Fx.qinv (s.quat a)).toList) :=
  completeQ_ok (.qinv rd a) rd _ s (Bool.and_eq_true_iff.mpr ⟨hd, ha⟩)

end

-- The dot test and Identity (R296, R297)

theorem Fx.qeq_eq (a b : Quat) : Fx.qeq a b = if Fx.qdot a b = oneV then oneV else 0#64 :=
  if_congr decide_eq_true_iff rfl rfl

theorem Fx.qidentity_eq : Fx.qidentity = ⟨0#64, 0#64, 0#64, oneV⟩ := rfl

end Sys2Proof.Machine

namespace Sys2Proof.Claims

open Sys2Proof.Machine

-- ZERO and ONE as left operands, and ZERO subtracted (R100, R101, R104 items 5 to 7)

theorem fxZero_add (x : Word) : Fx.add 0#64 x = x := by
  rw [fxAdd_eq_clampRaw, BitVec.toInt_zero, Int.zero_add, clampRaw_toInt]

theorem fxSub_zero (x : Word) : Fx.sub x 0#64 = x := by
  rw [fxSub_eq_clampRaw, BitVec.toInt_zero, Int.sub_zero, clampRaw_toInt]

theorem fxZero_mul (x : Word) : Fx.mul 0#64 x = 0#64 := (fxMul_comm _ x).trans (fxMul_zero x)

theorem fxOneV_mul (x : Word) : Fx.mul oneV x = x := (fxMul_comm _ x).trans (fxMul_oneV x)

-- Products by Identity (R291, R292)

theorem fxQmul_identity (r : Quat) : Fx.qmul Fx.qidentity r = r := by
  simp only [Fx.qmul, Fx.qidentity_eq, fxZero_mul, fxOneV_mul, fxAdd_zero, fxSub_zero]

/-- Every doubled product of the expansion is 0, so that a component's own factor is ONE and the two others' factors are ZERO. -/
theorem fxQrot_identity (p : Vec3) : Fx.qrot Fx.qidentity p = p := by
  simp only [Fx.qrot, Fx.qidentity_eq, fxZero_mul, fxMul_zero, fxOneV_mul, fxAdd_zero, fxZero_add, fxSub_zero]

/-- Settles O58: the four sums as written, and the product by Identity. -/
theorem hamiltonProduct : Obligations.HamiltonProduct := by
  intro s rd a b hd ha hb
  have hexec := exec_qmul s hd ha hb
  refine ⟨⟨_, _, _, _, hexec, rfl, rfl, rfl, rfl⟩, fun hidentity => ?_⟩
  rw [hexec, hidentity, ← Fx.qidentity_eq, fxQmul_identity]
  rfl

/-- Settles O59: the expansion as written, and the rotation by Identity. -/
theorem rotation : Obligations.Rotation := by
  intro s rd a b hd ha hb
  have hexec := exec_qrot s hd ha hb
  refine ⟨?_, fun hidentity => ?_⟩
  · rintro x2 y2 z2 rfl rfl rfl xx yy zz xy xz yz wx wy wz rfl rfl rfl rfl rfl rfl rfl rfl rfl
    exact hexec
  · rw [hexec, hidentity, ← Fx.qidentity_eq, fxQrot_identity]
    rfl

/-- Settles O60: a sum of four products, never negative when they are squares; its dot test; and three negations, which are clamps. -/
theorem quaternionDotInverseEquality : Obligations.QuaternionDotInverseEquality := by
  intro s rd q a b hd ha hb
  simp only [← fxNeg_eq_clampRaw]
  refine ⟨⟨_, exec_qdot s ha hb, rfl, ?_⟩, ⟨_, exec_qdot s ha ha, fxQdot_self_nonneg _⟩, exec_qinv s hd ha⟩
  rw [exec_qeq s ha hb, Fx.qeq_eq]

end Sys2Proof.Claims
end

