-- ==== Sys2Proof/Proofs/Exceptions.lean ====
section
/-!
PROOFS. Faults (spec/60_exceptions.md). What a step can do to FSR and FCMD is said once, and the behaviour while Halted is read off it. For
the table R321, each function that can raise gets the condition of its fault, and every command ends as its row of the table says.
-/

namespace Sys2Proof.Machine

-- The Halted state (R324, R325)

theorem issueCommand_of_halted {w : CmdWord} {s : State} (hs : s.halt = true) : issueCommand w s = .next s.discard := by
  simp [issueCommand, hs]

/-- A command served while Halted was discarded, whatever its word. -/
theorem eq_discard_of_halted {w : CmdWord} {s t : State} (h : issueCommand w s = .next t) (hs : s.halt = true) : t = s.discard := by
  rw [issueCommand_of_halted hs] at h
  cases h
  rfl

theorem step_fsrWrite {s : State} {es : List HostEvent} {v : Word} (hr : s.inReset = false)
    (hh : s.host = .write 64 0x100 v :: es) : step s = .next ({ s with host := es, busOut := none }.writeFsr v) := by
  rw [step_write hr hh (by decide) (by decide), hostWrite_fsr]

/-- Settles O17: a CMD write is discarded; the other accesses are served without a look at HALT. -/
theorem haltedDiscardsCommands : Obligations.HaltedDiscardsCommands := by
  intro s es hs hr
  refine ⟨fun v hh => ?_, fun off ha hw hh => step_read hr hh ha hw, fun q v hh => step_regWrite hr hh,
    fun v hh => step_fsrWrite hr hh⟩
  rw [step_cmdWrite hh hr]
  exact issueCommand_of_halted hs

-- What a step does to FSR and FCMD (R37, R39, R322 to R326)

/-- All of FSR and FCMD agrees (R37, R39). -/
def State.SameStatus (s t : State) : Prop := t.halt = s.halt ∧ t.cause = s.cause ∧ t.lost = s.lost ∧ t.fcmd = s.fcmd

theorem hostWrite_status (off : Nat) (v : Word) (s : State) :
    (off = 0x100 ∧ hostWrite off v s = .next (s.writeFsr v)) ∨
    (off = 0x118 ∧ hostWrite off v s = issueCommand (v.setWidth 32) s) ∨
    ∃ t, hostWrite off v s = .next t ∧ s.SameStatus t := by
  unfold hostWrite
  split
  · exact .inr (.inr ⟨_, rfl, rfl, rfl, rfl, rfl⟩)
  split
  next hfsr => exact .inl ⟨hfsr, rfl⟩
  split
  next hcmd => exact .inr (.inl ⟨hcmd, rfl⟩)
  · exact .inr (.inr ⟨_, rfl, rfl, rfl, rfl, rfl⟩)

/-- A write that is served is 64 bits wide, and what its offset does is the answer. -/
theorem serve_write_next {width off : Nat} {v : Word} {s t : State} (h : serve (.write width off v) s = .next t) :
    width = 64 ∧ hostWrite off v { s with busOut := none } = .next t := by
  rcases serveAccess_cases width off s (hostWrite off v { s with busOut := none }) with ⟨_, hnone, he⟩ | ⟨r, he⟩
  · exact ⟨((accessRefusal_eq_none_iff width off).mp hnone).1, he.symm.trans h⟩
  · cases he.symm.trans h

/-- FSR and FCMD change by a write to FSR, by a command and by reset, and by nothing else. -/
theorem step_status {s t : State} (h : step s = .next t) :
    s.SameStatus t ∨
    (∃ es v, s.host = .write 64 0x100 v :: es ∧ t = { s with host := es, busOut := none }.writeFsr v) ∨
    (∃ es v, s.host = .write 64 0x118 v :: es ∧ issueCommand (v.setWidth 32) { s with host := es, busOut := none } = .next t) ∨
    ∃ es, s.host = .resetAssert :: es ∧ t = { s with host := es }.resetTo true := by
  rcases step_cases s t h with ⟨_, rfl⟩ | ⟨e, es, hh, he⟩
  · exact .inl ⟨rfl, rfl, rfl, rfl⟩
  cases e with
  | read width off =>
    cases serveAccess_next he
    exact .inl ⟨rfl, rfl, rfl, rfl⟩
  | write width off v =>
    obtain ⟨rfl, hwrite⟩ := serve_write_next he
    rcases hostWrite_status off v { s with host := es, busOut := none } with ⟨rfl, hw⟩ | ⟨rfl, hw⟩ | ⟨u, hw, hsame⟩ <;>
      rw [hw] at hwrite
    · cases hwrite
      exact .inr (.inl ⟨es, v, hh, rfl⟩)
    · exact .inr (.inr (.inl ⟨es, v, hh, hwrite⟩))
    · cases hwrite
      exact .inl hsame
  | resetAssert =>
    cases he
    exact .inr (.inr (.inr ⟨es, hh, rfl⟩))
  | resetRelease =>
    cases he
    exact .inl ⟨rfl, rfl, rfl, rfl⟩

/-- No command clears LOST: a discarded one sets it, and the others keep it (R322, R324). -/
theorem issueCommand_keeps_lost {w : CmdWord} {s t : State} (h : issueCommand w s = .next t) (hl : s.lost = true) :
    t.lost = true := by
  rcases issueCommand_cases w s with ⟨_, he⟩ | ⟨_, _, he⟩ | ⟨_, i, _, he⟩ <;> rw [he] at h
  · cases h
    rfl
  · cases h
    exact hl
  · obtain ⟨_, hlost, _⟩ := commandsFrame i s t h
    rw [hlost, hl]

-- Resume and nesting (R325, R326)

/-- A step from Halted to Running is a resume or a reset. -/
theorem step_leaves_halted {s t : State} (h : step s = .next t) (hs : s.halt = true) (ht : t.halt = false) :
    (∃ es v, s.host = .write 64 0x100 v :: es ∧ v.getLsbD 0 = true) ∨ ∃ es, s.host = .resetAssert :: es := by
  rcases step_status h with ⟨hhalt, _⟩ | ⟨es, v, hh, rfl⟩ | ⟨es, v, _, hcmd⟩ | ⟨es, hh, _⟩
  · simp [hhalt, hs] at ht
  · simp only [State.writeFsr_halt, hs] at ht
    exact .inl ⟨es, v, hh, by simpa using ht⟩
  · obtain rfl := eq_discard_of_halted hcmd hs
    simp [hs] at ht
  · exact .inr ⟨es, hh⟩

/-- A step that clears LOST is a write to FSR with bit 4 set or a reset. -/
theorem step_clears_lost {s t : State} (h : step s = .next t) (hs : s.lost = true) (ht : t.lost = false) :
    (∃ es v, s.host = .write 64 0x100 v :: es ∧ v.getLsbD 4 = true) ∨ ∃ es, s.host = .resetAssert :: es := by
  rcases step_status h with ⟨_, _, hlost, _⟩ | ⟨es, v, hh, rfl⟩ | ⟨es, v, _, hcmd⟩ | ⟨es, hh, _⟩
  · simp [hlost, hs] at ht
  · simp only [State.writeFsr_lost, hs] at ht
    exact .inl ⟨es, v, hh, by simpa using ht⟩
  · have hkept := issueCommand_keeps_lost hcmd hs
    simp [hkept] at ht
  · exact .inr ⟨es, hh⟩

/-- Settles O18: the write to FSR by its field rules, the only ways out by `step_status`; in a consistent Running state CAUSE and FCMD are
clear already. -/
theorem resumeIsTheOnlyWayOut : Obligations.ResumeIsTheOnlyWayOut := by
  refine ⟨fun s es v hr hh hv => ?_, fun s t => step_leaves_halted, fun s t => step_clears_lost, fun s es v hcons hs hr hh => ?_⟩
  · exact ⟨_, step_fsrWrite hr hh, by simp [hv, State.execState]⟩
  · obtain ⟨hcause, hfcmd⟩ := hcons.1 hs
    exact ⟨_, step_fsrWrite hr hh, by simp [hs, hcause, hfcmd]⟩

/-- While Halted a step that serves a CMD write discards it (R324). -/
theorem step_cmdWrite_of_halted {s t : State} {es : List HostEvent} {v : Word} (h : step s = .next t) (hs : s.halt = true)
    (hh : s.host = .write 64 0x118 v :: es) : t = { s with host := es, busOut := none }.discard := by
  rw [step_serve s _ es hh] at h
  obtain ⟨_, hwrite⟩ := serve_write_next h
  exact eq_discard_of_halted hwrite hs

/-- Settles O19: of the steps that touch FSR or FCMD, a resume and a reset leave Halted, and a discarded command records only LOST. -/
theorem faultsNeverNest : Obligations.FaultsNeverNest := by
  intro s t h hs ht
  have hregs (es : List HostEvent) (v : Word) (hh : s.host = .write 64 0x118 v :: es) : t.f = s.f := by
    rw [step_cmdWrite_of_halted h hs hh, State.discard_f]
  rcases step_status h with ⟨_, hcause, _, hfcmd⟩ | ⟨es, v, _, rfl⟩ | ⟨es, v, _, hcmd⟩ | ⟨es, _, rfl⟩
  · exact ⟨hcause, hfcmd, hregs⟩
  · have hv : v[0] = false := by simpa [hs] using ht
    exact ⟨by simp [hv], by simp [hv], hregs⟩
  · obtain rfl := eq_discard_of_halted hcmd hs
    exact ⟨rfl, rfl, hregs⟩
  · simp at ht

-- Fault entry (R322, R323)

theorem State.faultEntry_sameButStatus (s : State) (c : Cause) (w : CmdWord) : s.SameButStatus (s.faultEntry c w) :=
  ⟨rfl, rfl, rfl, rfl, rfl⟩

/-- Settles O20: of the two ends of a command only fault entry raises HALT. -/
theorem faultsArePrecise : Obligations.FaultsArePrecise := by
  refine ⟨fun i s t hs h ht => ?_, fun w s hs hd => ?_⟩
  · rcases exec_next_cases h with ⟨vs, _, _, rfl⟩ | ⟨c, rfl⟩
    · simp [hs] at ht
    · exact ⟨s.faultEntry_sameButStatus c _, rfl, ⟨c, rfl⟩, rfl⟩
  · exact ⟨_, issueCommand_of_decode_none hs hd, s.faultEntry_sameButStatus _ w, rfl, rfl, rfl⟩

end Sys2Proof.Machine

namespace Sys2Proof.Claims

open Sys2Proof.Machine

-- When each function raises (R321)

section

variable {α : Type} {r : Except Cause α} {P : Prop} {c₀ : Cause}

/-- A function with one fault case raises its cause there and nothing anywhere else. -/
theorem error_iff_of_dichotomy (herr : P → r = .error c₀) (hok : ¬ P → ∃ v, r = .ok v) (c : Cause) :
    r = .error c ↔ c = c₀ ∧ P := by
  by_cases hP : P
  · simp [herr hP, hP, eq_comm (b := c)]
  · obtain ⟨v, rfl⟩ := hok hP
    simp [hP]

theorem error_iff_false_of_ok (h : ∃ v, r = .ok v) (c : Cause) : r = .error c ↔ False := by
  obtain ⟨v, rfl⟩ := h
  simp

end

theorem fxDiv_error_iff (x y : Word) (c : Cause) : Fx.div x y = .error c ↔ c = .divideByZero ∧ y = 0#64 :=
  error_iff_of_dichotomy (fun h => h ▸ Fx.div_zero x) (fun h => ⟨_, fxDiv_eq_divClosed x h⟩) c

theorem fxMod_error_iff (x y : Word) (c : Cause) : Fx.mod x y = .error c ↔ c = .divideByZero ∧ y = 0#64 :=
  error_iff_of_dichotomy (fun h => h ▸ Fx.mod_zero x) (fun h => ⟨_, Fx.mod_of_ne_zero x h⟩) c

theorem fxFastmod_error_iff (x y : Word) (c : Cause) : Fx.fastmod x y = .error c ↔
    (c = .divideByZero ∧ y = 0#64) ∨ (c = .fastModOverflow ∧ x = minV ∧ y.toInt = -1 ∧ Config.fastmodMinNeg1 = none) := by
  by_cases hy : y = 0#64
  · subst hy
    simp [Fx.fastmod_zero, eq_comm (b := c)]
  by_cases hover : x = minV ∧ y.toInt = -1
  · obtain ⟨rfl, hy1⟩ := hover
    obtain ⟨hvalue, hfault⟩ := Fx.fastmod_minV_neg_one hy1
    cases hparam : Config.fastmodMinNeg1 with
    | none => simp [hfault hparam, hy, hy1, eq_comm (b := c)]
    | some v => simp [hvalue v hparam, hy]
  · rw [Fx.fastmod_of_not_overflow hy hover]
    simp [hy, ← and_assoc, hover]

theorem fxSqrt_error_iff (x : Word) (c : Cause) : Fx.sqrt x = .error c ↔ c = .domainError ∧ x.toInt < 0 :=
  error_iff_of_dichotomy Fx.sqrt_of_neg (fun h => ⟨_, Fx.sqrt_of_nonneg (Int.not_lt.mp h)⟩) c

theorem fxLog2_error_iff (x : Word) (c : Cause) : Fx.log2 x = .error c ↔ c = .domainError ∧ x.toInt ≤ 0 :=
  error_iff_of_dichotomy Fx.log2_of_nonpos (fun h => (fxLog2_eq (Int.not_le.mp h)).imp fun _ => And.left) c

/-- LN raises what its LOG2 raises. -/
theorem fxLn_error_iff (k : Config.LogConstants) (x : Word) (c : Cause) :
    Fx.ln k x = .error c ↔ c = .domainError ∧ x.toInt ≤ 0 := by
  rw [← fxLog2_error_iff, Fx.ln]
  cases Fx.log2 x <;> simp [Except.map]

theorem fxPow2_error_iff (x : Word) (c : Cause) : Fx.pow2 Config.logConstants x = .error c ↔ False :=
  error_iff_false_of_ok ((fxPow2_completes x).imp fun _ => And.left) c

/-- For an exponent that is not 0 the sign of the base decides: the fault of LOG2, the zero base, or a POW2, which never faults. -/
theorem fxPow_error_iff (b e : Word) (c : Cause) : Fx.pow Config.logConstants b e = .error c ↔
    (c = .divideByZero ∧ b = 0#64 ∧ e.toInt < 0) ∨ (c = .domainError ∧ b.toInt < 0 ∧ e ≠ 0#64) := by
  by_cases hspecial : b = oneV ∨ e = 0#64
  · rw [fxPow_of_one_or_zero hspecial]
    have hone : oneV ≠ 0#64 ∧ ¬ oneV.toInt < 0 := by decide
    obtain rfl | rfl := hspecial <;> simp [hone]
  obtain ⟨hb1, he⟩ := not_or.mp hspecial
  obtain hneg | hzero | hpos := lt_trichotomy b.toInt 0
  · have hb0 : b ≠ 0#64 := ne_zero_of_toInt_ne (by omega)
    simp [fxPow_of_neg hneg he, hb0, hneg, he, eq_comm (b := c)]
  · obtain rfl : b = 0#64 := BitVec.eq_of_toInt_eq hzero
    obtain hlt | hge := Int.lt_or_le e.toInt 0
    · simp [fxPow_zero_of_neg hlt, hlt, eq_comm (b := c)]
    · have hne : e.toInt ≠ 0 := toInt_ne_zero he
      rw [fxPow_zero_of_pos (by omega)]
      simp [hge]
  · obtain ⟨l, hl, _⟩ := fxLog2_eq hpos
    have hb0 : b ≠ 0#64 := ne_zero_of_toInt_ne (by omega)
    rw [fxPow_of_log2 hpos hb1 he hl, fxPow2_error_iff]
    simp [hb0, hpos.le]

theorem fxFromFloat_error_iff (fmt : FloatFormat) (n : Nat) (p : FloatPattern) (c : Cause) : Fx.fromFloat fmt n p = .error c ↔
    c = .domainError ∧ FloatOutOfRange fmt.expBits fmt.manBits n ∧ Config.f2xOor.isNone := by
  by_cases hrange : FloatOutOfRange fmt.expBits fmt.manBits n
  · have htest := (fromFloat_test_iff fmt n).not.mpr (not_not.mpr hrange)
    simp only [Fx.fromFloat, if_neg htest]
    cases Config.f2xOor <;> simp [hrange, eq_comm (b := c)]
  · simp [fxFromFloat_of_inRange p hrange, hrange]

theorem fxVdivs_error_iff (a : Vec3) (d : Word) (c : Cause) : Fx.vdivs a d = .error c ↔ c = .divideByZero ∧ d = 0#64 :=
  error_iff_of_dichotomy (fun h => h ▸ Fx.vdivs_zero a) (fun h => ⟨_, fxVdivs_eq a h⟩) c

theorem fxVproj_error_iff (v n : Vec3) (c : Cause) : Fx.vproj v n = .error c ↔ c = .divideByZero ∧ Fx.vdot n n = 0#64 :=
  error_iff_of_dichotomy Fx.vproj_of_zero (fun h => ⟨_, fxVproj_eq v h⟩) c

theorem fxVprojp_error_iff (v n : Vec3) (c : Cause) : Fx.vprojp v n = .error c ↔ c = .divideByZero ∧ Fx.vdot n n = 0#64 :=
  error_iff_of_dichotomy Fx.vprojp_of_zero (fun h => ⟨_, fxVprojp_eq h (fxVproj_eq v h)⟩) c

/-- The radicand of a magnitude is a sum of squares, so that SQRT's fault does not arise. -/
theorem fxVmag_error_iff (a : Vec3) (c : Cause) : Fx.vmag a = .error c ↔ False :=
  error_iff_false_of_ok ⟨_, Fx.sqrt_of_nonneg (fxVsqrmag_nonneg a)⟩ c

theorem fxVnorm_error_iff (a : Vec3) (c : Cause) : Fx.vnorm a = .error c ↔ False := by
  obtain ⟨m, _, hzero, hdivided⟩ := fxVnorm_cases a
  by_cases hm : m = 0#64
  · exact error_iff_false_of_ok ⟨_, hzero hm⟩ c
  · exact error_iff_false_of_ok ⟨_, hdivided hm⟩ c

theorem fxQnorm_error_iff (a : Quat) (c : Cause) : Fx.qnorm a = .error c ↔ False := by
  obtain ⟨m, _, hzero, hdivided⟩ := fxQnorm_cases a
  by_cases hm : m = 0#64
  · exact error_iff_false_of_ok ⟨_, hzero hm⟩ c
  · exact error_iff_false_of_ok ⟨_, hdivided hm⟩ c

-- Every command against the table (R320, R321)

/-- The command ends by `complete` with a result that raises exactly what the table R321 lists, and otherwise has a value for every
register of its destination. -/
def EndsAsListed (i : Instr) (s : State) : Prop :=
  ∃ r, exec i s = complete i (destBase i) r s ∧ (∀ vs, r = .ok vs → vs.length = destCount i) ∧ ∀ c, r = .error c ↔ Raises i s c

/-- A command without a fault case. -/
theorem EndsAsListed.of_value {i : Instr} {s : State} {vs : List Word} (he : exec i s = complete i (destBase i) (.ok vs) s)
    (hlen : vs.length = destCount i) (hr : ∀ c, ¬ Raises i s c) : EndsAsListed i s :=
  ⟨.ok vs, he, fun us hus => by cases hus; exact hlen, fun c => by simp [hr c]⟩

/-- A command whose function can raise: `g` lists the components of its value. -/
theorem EndsAsListed.of_map {α : Type} {i : Instr} {s : State} {r : Except Cause α} (g : α → List Word)
    (hg : ∀ a, (g a).length = destCount i) (he : exec i s = complete i (destBase i) (r.map g) s)
    (hr : ∀ c, r = .error c ↔ Raises i s c) : EndsAsListed i s := by
  refine ⟨r.map g, he, map_length g _ hg r, fun c => ?_⟩
  rw [← hr c]
  cases r <;> simp [Except.map]

/-- A scalar destination. -/
theorem EndsAsListed.of_scalar {i : Instr} {s : State} {r : Except Cause Word} (he : exec i s = completeS i (destBase i) r s)
    (hn : destCount i = 1) (hr : ∀ c, r = .error c ↔ Raises i s c) : EndsAsListed i s :=
  .of_map (fun v => [v]) (fun _ => hn.symm) he hr

/-- A vector destination. -/
theorem EndsAsListed.of_vector {i : Instr} {s : State} {r : Except Cause Vec3} (he : exec i s = completeV i (destBase i) r s)
    (hn : destCount i = 3) (hr : ∀ c, r = .error c ↔ Raises i s c) : EndsAsListed i s :=
  .of_map Vec3.toList (fun _ => hn.symm) he hr

/-- A quaternion destination. -/
theorem EndsAsListed.of_quaternion {i : Instr} {s : State} {r : Except Cause Quat} (he : exec i s = completeQ i (destBase i) r s)
    (hn : destCount i = 4) (hr : ∀ c, r = .error c ↔ Raises i s c) : EndsAsListed i s :=
  .of_map Quat.toList (fun _ => hn.symm) he hr

/-- Command by command: the row of R321, or for a command without one the value it computes. -/
theorem endsAsListed (i : Instr) (s : State) : EndsAsListed i s := by
  cases i
  case div => exact .of_scalar rfl rfl (fxDiv_error_iff _ _)
  case mod => exact .of_scalar rfl rfl (fxMod_error_iff _ _)
  case fastmod => exact .of_scalar rfl rfl (fxFastmod_error_iff _ _)
  case sqrt => exact .of_scalar rfl rfl (fxSqrt_error_iff _)
  case log2 => exact .of_scalar rfl rfl (fxLog2_error_iff _)
  case ln => exact .of_scalar rfl rfl (fxLn_error_iff _ _)
  case pow2 => exact .of_scalar rfl rfl (fxPow2_error_iff _)
  case pow => exact .of_scalar rfl rfl (fxPow_error_iff _ _)
  case fromf64 => exact .of_scalar rfl rfl (fxFromFloat_error_iff binary64 _ _)
  case fromf32 rd rs1 =>
    refine .of_scalar (exec_fromf32 rd rs1 s) rfl fun c => ?_
    rw [Fx.fromf32, fxFromFloat_error_iff, BitVec.toNat_setWidth]
    rfl
  case vdivs => exact .of_vector rfl rfl (fxVdivs_error_iff _ _)
  case vproj => exact .of_vector rfl rfl (fxVproj_error_iff _ _)
  case vprojp => exact .of_vector rfl rfl (fxVprojp_error_iff _ _)
  case vmag => exact .of_scalar rfl rfl (fxVmag_error_iff _)
  case vdist => exact .of_scalar rfl rfl (fxVmag_error_iff _)
  case vnorm => exact .of_vector rfl rfl (fxVnorm_error_iff _)
  case qnorm => exact .of_quaternion rfl rfl (fxQnorm_error_iff _)
  -- No other command has a row: each computes a plain value.
  all_goals exact .of_value rfl rfl fun _ => id

/-- Settles O21: a legal command ends by its result, which is that of `endsAsListed`; an ill-formed term by the IllegalCommand fault. -/
theorem faultsExactlyAsListed : Obligations.FaultsExactlyAsListed := by
  refine ⟨fun i s hw => ?_, fun i s hw => ?_⟩
  · obtain ⟨r, he, hlen, hr⟩ := endsAsListed i s
    rw [he]
    refine ⟨fun c hc => ?_, fun hnone => ?_⟩
    · rw [(hr c).mpr hc]
      exact complete_error i _ c s hw
    · cases r with
      | ok vs => exact ⟨vs, hlen vs rfl, complete_ok i _ vs s hw⟩
      | error c => exact absurd ((hr c).mp rfl) (hnone c)
  · obtain ⟨r, he, _⟩ := exec_complete i s
    rw [he]
    exact complete_illegal i _ r s hw

/-- Settles O22: an undecoded word is the IllegalCommand fault; a decoded one is the encoding of a legal command, which O21 speaks of. -/
theorem issuedWordsFaultAsListed : Obligations.IssuedWordsFaultAsListed := by
  intro w s hs
  refine ⟨fun hd => issueCommand_of_decode_none hs hd, fun i hd => ?_⟩
  obtain ⟨hw, rfl⟩ := encodeOfDecode w i hd
  rw [issueCommand_of_decode hs hd]
  exact faultsExactlyAsListed.1 i s hw

end Sys2Proof.Claims
end

