-- ==== Sys2Proof/Proofs/ResetHazards.lean ====
section
/-!
PROOFS. The reset input (spec/70_reset_and_hazards.md): what raising and lowering it does, and that no access is accepted while it is up.
-/

namespace Sys2Proof.Machine

/-- While reset is asserted the width, the offset and what the access would have done do not matter (R361). -/
theorem serveAccess_inReset {s : State} (hr : s.inReset = true) (width offset : Nat) (o : Host.Outcome State Fault Refusal) :
    serveAccess width offset s o = .refused .accessDuringReset := by
  rw [serveAccess, if_pos hr]

theorem step_resetAssert {s : State} {es : List HostEvent} (hh : s.host = .resetAssert :: es) :
    step s = .next ({ s with host := es }.resetTo true) := by
  rw [step_serve s _ es hh, serve]

theorem step_resetRelease {s : State} {es : List HostEvent} (hh : s.host = .resetRelease :: es) :
    step s = .next { s with host := es, inReset := false } := by
  rw [step_serve s _ es hh, serve]

theorem step_read_inReset {s : State} {es : List HostEvent} {width offset : Nat} (hr : s.inReset = true)
    (hh : s.host = .read width offset :: es) : step s = .refused .accessDuringReset := by
  rw [step_serve s _ es hh]
  exact serveAccess_inReset (s := { s with host := es }) hr width offset _

theorem step_write_inReset {s : State} {es : List HostEvent} {width offset : Nat} {v : Word} (hr : s.inReset = true)
    (hh : s.host = .write width offset v :: es) : step s = .refused .accessDuringReset := by
  rw [step_serve s _ es hh]
  exact serveAccess_inReset (s := { s with host := es }) hr width offset _

end Sys2Proof.Machine

namespace Sys2Proof.Claims

open Sys2Proof.Machine

/-- Settles O8: one step lemma per event. `resetTo` keeps of the old state only what comes next, so its result does not depend on `s`. -/
theorem resetInputFromEveryState : Obligations.ResetInputFromEveryState := by
  refine ⟨fun s es hh => ?_, fun s es w off hr hh => ?_, fun s es w off v hr hh => ?_, fun s es hh => ?_⟩
  · rw [step_resetAssert hh, State.resetTo]
  · exact step_read_inReset hr hh
  · exact step_write_inReset hr hh
  · exact step_resetRelease hh

end Sys2Proof.Claims
end
